-- ==== Sys2Proof/Word.lean ====
section
/-! DEFINITION. The word types of the block (spec R9, R10): protocol bytes, 16-bit fields, 32-bit host registers and
the 9-bit length fields. Everything is unsigned. -/

namespace Sys2Proof

/-- A byte of a frame, an 8-bit protocol field (R9). -/
abbrev Byte := BitVec 8

/-- A 16-bit protocol field: register address, value, CRC, register word (R9). -/
abbrev Half := BitVec 16

/-- A host register, a CMD word, a binary32 encoding (R9). -/
abbrev Word := BitVec 32

/-- The width of BLEN and EXPLEN, bits [8:0] of their registers (R36, R37). -/
abbrev Len := BitVec 9

end Sys2Proof
end

