-- ==== Sys2Proof/Syntax.lean ====
section
/-! DEFINITION. The instructions of the block: the operations a CMD write selects (spec R2, R82, R83), one constructor
per row of spec/opcode_table.json. No operand is in the CMD word (R80). -/

namespace Sys2Proof

/-- The rows of the operation map (R82). The seven reserved codes are rows of their own (R83). -/
inductive Instr where
  /-- 0x0 NOP (R200) -/
  | nop
  /-- 0x1 CRC_COMPUTE (R112) -/
  | crcCompute
  /-- 0x2 CRC_VERIFY (R113) -/
  | crcVerify
  /-- 0x3 ENCODE (R135) -/
  | encode
  /-- 0x4 FRAMELEN (R141) -/
  | framelen
  /-- 0x5 PARSE (R145) -/
  | parse
  /-- 0x6 DEC_MEAS (R176) -/
  | decMeas
  /-- 0x7 DEC_PARAM (R180) -/
  | decParam
  /-- 0x8 UNPACK (R150) -/
  | unpack
  /-- 0x9, reserved (R201) -/
  | reserved9
  /-- 0xA, reserved (R201) -/
  | reservedA
  /-- 0xB, reserved (R201) -/
  | reservedB
  /-- 0xC, reserved (R201) -/
  | reservedC
  /-- 0xD, reserved (R201) -/
  | reservedD
  /-- 0xE, reserved (R201) -/
  | reservedE
  /-- 0xF, reserved (R201) -/
  | reservedF
  deriving DecidableEq, Repr

end Sys2Proof
end

