-- ==== Sys2Proof/Decode.lean ====
section
/-! DEFINITION. The CMD decoder and encoder (spec R80 to R83; spec/opcode_table.json). The decoder is total on 32-bit
words (R83: "every 32-bit CMD value selects exactly one row"); what is not one 32-bit CMD word is rejected by name. -/

namespace Sys2Proof

/-- OP, bits [3:0] of the CMD word; bits [31:4] are ignored (R80). -/
def opField (w : Word) : BitVec 4 := w.extractLsb' 0 4

/-- The operation map R82 read by code. The last row is code 0xF, since OP has four bits. -/
def decodeOp (op : BitVec 4) : Instr :=
  match op.toNat with
  | 0x0 => .nop
  | 0x1 => .crcCompute
  | 0x2 => .crcVerify
  | 0x3 => .encode
  | 0x4 => .framelen
  | 0x5 => .parse
  | 0x6 => .decMeas
  | 0x7 => .decParam
  | 0x8 => .unpack
  | 0x9 => .reserved9
  | 0xA => .reservedA
  | 0xB => .reservedB
  | 0xC => .reservedC
  | 0xD => .reservedD
  | 0xE => .reservedE
  | _   => .reservedF

/-- The operation a CMD write of `w` starts (R23, R82). -/
def decodeCmd (w : Word) : Instr := decodeOp (opField w)

/-- Why bits are no CMD word. -/
inductive DecodeError where
  /-- More than the 32 bits of the one CMD format (R80). -/
  | longerThanCmdWord (nbits : Nat)
  deriving DecidableEq, Repr

/-- Decoding `nbits` bits whose number is `w`, the bits above them 0 (log 12). -/
def decodeBits (nbits w : Nat) : Except DecodeError Instr :=
  if nbits ≤ 32 then .ok (decodeCmd (BitVec.ofNat 32 (w % 2 ^ nbits)))
  else .error (.longerThanCmdWord nbits)

/-- The host's question: the instruction the decoder reads from a row's bits. -/
def decodeTableWord (nbits w : Nat) : Option Instr :=
  match decodeBits nbits w with
  | .ok i => some i
  | .error _ => none

/-- The code of each operation (R82), written from the map and not from the decoder. -/
def opCode : Instr → BitVec 4
  | .nop        => 0x0#4
  | .crcCompute => 0x1#4
  | .crcVerify  => 0x2#4
  | .encode     => 0x3#4
  | .framelen   => 0x4#4
  | .parse      => 0x5#4
  | .decMeas    => 0x6#4
  | .decParam   => 0x7#4
  | .unpack     => 0x8#4
  | .reserved9  => 0x9#4
  | .reservedA  => 0xA#4
  | .reservedB  => 0xB#4
  | .reservedC  => 0xC#4
  | .reservedD  => 0xD#4
  | .reservedE  => 0xE#4
  | .reservedF  => 0xF#4

/-- The CMD word of an operation: its code in OP, the ignored bits 0 (R80, R82; R93 writes `PARSE` as 0x5). -/
def encode (i : Instr) : Word := (opCode i).setWidth 32

/-- Whether an operation is one of the reserved codes 0x9 to 0xF (R83). -/
def Instr.isReserved : Instr → Bool
  | .nop        => false
  | .crcCompute => false
  | .crcVerify  => false
  | .encode     => false
  | .framelen   => false
  | .parse      => false
  | .decMeas    => false
  | .decParam   => false
  | .unpack     => false
  | .reserved9  => true
  | .reservedA  => true
  | .reservedB  => true
  | .reservedC  => true
  | .reservedD  => true
  | .reservedE  => true
  | .reservedF  => true

end Sys2Proof
end

