-- ==== Sys2Proof/Config.lean ====
section
/-! DEFINITION. The parameters of the block (spec R8) and its free values. Configuration is not state (R20). -/

namespace Sys2Proof.Config

/-- PAIR_ORDER (R67, R172): which word of a 32-bit pair comes first in the payload. -/
inductive PairOrder where
  | hiFirst
  | loFirst
  deriving DecidableEq, Repr

/-- FLOAT_ROUND (R170, R171): one rounding of the exact quotient, or the operand rounded to binary32 first. -/
inductive FloatRound where
  | single
  | double
  deriving DecidableEq, Repr

/-- The decision-valued parameters of R8 that a model may take as arguments. -/
structure Params where
  bcastAddr  : Byte
  fcReadSet  : List Byte
  fcEchoSet  : List Byte
  pairOrder  : PairOrder
  floatRound : FloatRound
  deriving DecidableEq, Repr

/-- The decided values (R8; decisions D7, D8, D15, D17). DESIGN CHOICE of the spec, taken over: log 8. -/
def params : Params :=
  { bcastAddr := 0xF8#8
    fcReadSet := [0x03#8, 0x04#8]
    fcEchoSet := [0x06#8, 0x42#8]
    pairOrder := .hiFirst
    floatRound := .single }

/-- CMD_FRAME_LEN (R8): a command frame is exactly 8 bytes. -/
def cmdFrameLen : Nat := 8

/-- MIN_RESP_LEN (R8): a response frame is at least 5 bytes. -/
def minRespLen : Nat := 5

/-- BUF_CAP (R8): the capacity of BUF in bytes. -/
def bufCap : Nat := 260

/-- CRC_INIT (R8). -/
def crcInit : Half := 0xFFFF#16

/-- CRC_POLY (R8), reflected. -/
def crcPoly : Half := 0xA001#16

/-- MEAS_WORDS = 8 (R8): the byte count of a measurement payload. -/
def measBytes : Nat := 16

/-- PARAM_WORDS = 4 (R8): the byte count of a parameter payload. -/
def paramBytes : Nat := 8

/-- DIV_V (R8): voltage is in units of 0.01 V. -/
def divV : Nat := 100

/-- DIV_I (R8): current is in units of 0.01 A. -/
def divI : Nat := 100

/-- DIV_P (R8): power is in units of 0.1 W. -/
def divP : Nat := 10

/-- DIV_E (R8): energy is in units of 1 Wh. -/
def divE : Nat := 1

/-- DIV_TH (R8): the alarm thresholds are in units of 1 V. -/
def divTh : Nat := 1

/-- The value read from byte `index` of BUF by draw number `draw` when nothing has written that byte since reset
(R43: "any byte, possibly different on each read"; 93 U1, U2). It has no body: nothing can be proved of its value.
Logs 2 and 3. -/
opaque freeByte (draw index : Nat) : Byte

end Sys2Proof.Config
end

