-- ==== Sys2Proof/Machine/Bus.lean ====
section
/-! DEFINITION. The host interface as data (spec R11, R22, R60 to R65, R226, R240, R259): the registers of the window,
bus accesses, the events the host and the platform bring to the block, and what a read returns. -/

namespace Sys2Proof.Machine

/-- The host registers of the map R22, in the order of their offsets. -/
inductive RegName where
  | cmd | status | addr | fc | reg | val | crc | blen | expLen | rsp | unpk0 | unpk1
  | mv | mi | mp | me | malm | phv | plv | pAddr | pShunt
  deriving DecidableEq, Repr

/-- A host bus access at a byte offset of the block's window (R11: `MemRead(addr, n)`, `MemWrite(addr, n, v)`). -/
inductive Access where
  /-- A read of `n` bytes. -/
  | read (off n : Nat)
  /-- A write of `n` bytes; the value is the low 8·n bits of `v` (log 14). -/
  | write (off n v : Nat)
  deriving DecidableEq, Repr

/-- What can reach the block from outside: the host's input of R7, and the platform's reset input of R240. -/
inductive Event where
  /-- An access of the one host agent. -/
  | access (a : Access)
  /-- Accesses of two host agents with nothing serialising them (R226). -/
  | concurrent (a b : Access)
  /-- The reset input (R240). -/
  | reset
  deriving DecidableEq, Repr

/-- The value a supported read returns: 32 bits of a register (R62) or 8 bits of the BUF window (R63). -/
inductive ReadValue where
  | word (w : Word)
  | byte (b : Byte)
  deriving DecidableEq, Repr

end Sys2Proof.Machine
end

