-- ==== Sys2Proof/Machine/State.lean ====
section
/-! DEFINITION. The state of the block (spec R20), the host's input and the run's observation beside it (R7, R259), the
reasons a step can stop, and the state after reset (R240). Plain data throughout. -/

namespace Sys2Proof.Machine

/-- BUF (R43) as the bytes something has written since reset: (index, byte) pairs in one canonical form, the indexes
strictly rising and below BUF_CAP (`Memory.wf`). An index not listed has no defined value (log 2). -/
abbrev Memory := List Host.Cell

/-- The complete state of the block: exactly the fields of R20. -/
structure Block where
  /-- R31 -/
  addr    : Byte
  /-- R31 -/
  bcast   : Bool
  /-- R32 -/
  fc      : Byte
  /-- R33 -/
  reg     : Half
  /-- R34 -/
  val     : Half
  /-- R43 -/
  buf     : Memory
  /-- R36, 0..260 -/
  blen    : Len
  /-- R35 -/
  crc     : Half
  /-- R37, 0..260 -/
  expLen  : Len
  /-- R38 -/
  rAddr   : Byte
  /-- R38 -/
  rFc     : Byte
  /-- R39 -/
  uAddr   : Byte
  /-- R39 -/
  uFc     : Byte
  /-- R39 -/
  uReg    : Half
  /-- R39 -/
  uVal    : Half
  /-- R25 -/
  err     : BitVec 3
  /-- R26 -/
  vfy     : Bool
  /-- R27 -/
  valid   : Bool
  /-- R28 -/
  conn    : Bool
  /-- R29 -/
  decOk   : Bool
  /-- R30 -/
  ill     : Bool
  /-- R40 -/
  mv      : Word
  /-- R40 -/
  mi      : Word
  /-- R40 -/
  mp      : Word
  /-- R40 -/
  me      : Word
  /-- R41 -/
  alh     : Bool
  /-- R41 -/
  all     : Bool
  /-- R42 -/
  phv     : Word
  /-- R42 -/
  plv     : Word
  /-- R42 -/
  pAddr   : Byte
  /-- R42 -/
  pShunt  : Half
  deriving DecidableEq, Repr

/-- The machine: the block, and the model's own three fields (logs 1, 2, 10). -/
structure State extends Block where
  /-- The host's accesses not yet performed, oldest first (R7, R71). -/
  pending : List Event
  /-- The values the run's reads have returned, oldest first (R259). -/
  reads   : List ReadValue
  /-- The number of draws made so far for bytes nothing has written (R43). -/
  draws   : Nat
  deriving DecidableEq, Repr

/-- Why the machine stops with a fault. -/
inductive Fault where
  /-- Raised by `stepHost` in a state whose ERR is above 4, which nothing reaches (R25; 93 U5: "a state with ERR > 4 is
  a model fault"). Safe. -/
  | errOutOfRange
  deriving DecidableEq, Repr

/-- Why the model gives an event no meaning. -/
inductive Refusal where
  /-- An operation that has no meaning yet, by its mnemonic. No arm of `exec` uses it. Safe. -/
  | notModelled (mnemonic : String)
  /-- Raised by `perform` for an access of R64, to which the spec gives no response. Safe. -/
  | unsupportedAccess
  /-- Raised by `perform` for an offset the block does not decode (R61), which is another device's. Safe. -/
  | outsideWindow
  /-- Raised by `performEvent` for two unserialised hosts (R226). Safe. -/
  | concurrentHosts
  deriving DecidableEq, Repr

/-- The outcome of an operation, an access or a step. -/
abbrev Result := Host.Outcome State Fault Refusal

/-- The block after reset (R240, R241): every field 0, no byte of BUF with a defined value. -/
def Block.reset : Block :=
  { addr := 0, bcast := false, fc := 0, reg := 0, val := 0
    buf := [], blen := 0
    crc := 0, expLen := 0, rAddr := 0, rFc := 0
    uAddr := 0, uFc := 0, uReg := 0, uVal := 0
    err := 0, vfy := false, valid := false, conn := false, decOk := false, ill := false
    mv := 0, mi := 0, mp := 0, me := 0, alh := false, all := false
    phv := 0, plv := 0, pAddr := 0, pShunt := 0 }

/-- The machine right after reset: idle, awaiting the host (R242). DESIGN CHOICE for the model's own fields: no access
pending, nothing read, no draw made (logs 1, 2, 10). -/
def State.reset : State :=
  { toBlock := Block.reset, pending := [], reads := [], draws := 0 }

end Sys2Proof.Machine
end

