-- ==== Sys2Proof/Machine/Ops.lean ====
section
/-! DEFINITION. The shared operations over BUF and the registers: reading and writing bytes, recording an error, and the
updates of the result registers (spec R11, R25, R31 to R44). -/

namespace Sys2Proof.Machine

/-- A field `v` of a host register, its lowest bit at bit `n`, every other bit 0 (R21, R22). -/
def fieldAt (n : Nat) {m : Nat} (v : BitVec m) : Word := v.setWidth 32 <<< n

/-! ## BUF as a list of written bytes -/

/-- The byte at index `i`, if something has written it since reset. -/
def Memory.get? : Memory → Nat → Option Byte
  | [], _ => none
  | (a, b) :: m, i => if a = i then some b else Memory.get? m i

/-- `BUF[i] <- b`, keeping the indexes strictly rising. -/
def Memory.set : Memory → Nat → Byte → Memory
  | [], i, b => [(i, b)]
  | (a, x) :: m, i, b =>
    if i < a then (i, b) :: (a, x) :: m
    else if i = a then (i, b) :: m
    else (a, x) :: Memory.set m i b

/-- Strictly rising indexes from `lo` up, all below BUF_CAP. -/
def Memory.wfFrom : Nat → Memory → Bool
  | _, [] => true
  | lo, (a, _) :: m => decide (lo ≤ a) && decide (a < Config.bufCap) && Memory.wfFrom (a + 1) m

/-- The canonical form of BUF. No index reads as a fixed byte before it is written, so any listed byte may stand. -/
def Memory.wf (m : Memory) : Bool := Memory.wfFrom 0 m

namespace State

/-- `BUF[i]` as read by draw number `k` of the step: the byte last written there (R43), or a free value (R43, 93 U1, U2;
logs 2 and 3). -/
def byteAt (s : State) (k i : Nat) : Byte :=
  (Memory.get? s.buf i).getD (Config.freeByte (s.draws + k) i)

/-- `BUF[a..b)` (R11), each byte read once, by draw number `k`. -/
def bytes (s : State) (k a b : Nat) : List Byte :=
  (List.range (b - a)).map fun j => s.byteAt k (a + j)

/-- `BUF[i] <- b` (R11). -/
def setByte (s : State) (i : Nat) (b : Byte) : State := { s with buf := Memory.set s.buf i b }

/-- `BUF[i] <- b0`, `BUF[i+1] <- b1`, … in order. -/
def storeBytes (s : State) : Nat → List Byte → State
  | _, [] => s
  | i, b :: bs => storeBytes (s.setByte i b) (i + 1) bs

/-- The step has made `n` draws: the next step's draws are fresh (R43: "possibly different on each read"). -/
def drew (s : State) (n : Nat) : State := { s with draws := s.draws + n }

/-- `BLEN <- n` (R36). -/
def setBlen (s : State) (n : Nat) : State := { s with blen := BitVec.ofNat 9 n }

/-! ## Result registers -/

/-- `CRC <- c` (R35). -/
def setCrc (s : State) (c : Half) : State := { s with crc := c }

/-- `EXPLEN <- n` (R37). -/
def setExpLen (s : State) (n : Nat) : State := { s with expLen := BitVec.ofNat 9 n }

/-- `R_ADDR <- a`, `R_FC <- f` (R38). -/
def setResponse (s : State) (a f : Byte) : State := { s with rAddr := a, rFc := f }

/-- The unpacked command fields (R39). -/
def setUnpacked (s : State) (a f : Byte) (r v : Half) : State :=
  { s with uAddr := a, uFc := f, uReg := r, uVal := v }

/-- The measurement outputs, all together (R40, R41, R70). -/
def setMeas (s : State) (v i p e : Word) (hi lo : Bool) : State :=
  { s with mv := v, mi := i, mp := p, me := e, alh := hi, all := lo }

/-- The parameter outputs, all together (R42, R70). -/
def setParam (s : State) (hv lv : Word) (a : Byte) (sh : Half) : State :=
  { s with phv := hv, plv := lv, pAddr := a, pShunt := sh }

/-- A read of the run returned `v` (R259). -/
def logRead (s : State) (v : ReadValue) : State := { s with reads := s.reads ++ [v] }

end State

/-! ## Errors: the block's one form of exception (R214: "There is no trap") -/

/-- The outcomes of PARSE (R25, R210). -/
inductive Err where
  | ok
  | timeout
  | checksumMismatch
  | addressMismatch
  | malformedFrame
  deriving DecidableEq, Repr

/-- `code(E)` (R11, R25). -/
def Err.code : Err → BitVec 3
  | .ok               => 0#3
  | .timeout          => 1#3
  | .checksumMismatch => 2#3
  | .addressMismatch  => 3#3
  | .malformedFrame   => 4#3

/-- `raise E`: `STATUS.ERR <- code(E)` and nothing else. No state is saved, no mode changes and control goes nowhere, so
there is nothing to return from (R11, R214, R216). -/
def State.raise (s : State) (e : Err) : State := { s with err := e.code }

end Sys2Proof.Machine
end

