-- ==== Sys2Proof/Machine/Flags.lean ====
section
/-! DEFINITION. The STATUS flags (spec R25 to R30): who writes each, PARSE's closing flag writes, and the word a read of
STATUS returns (R22). -/

namespace Sys2Proof.Machine.State

/-- `VFY <- b` (R26). -/
def setVfy (s : State) (b : Bool) : State := { s with vfy := b }

/-- `VALID <- b` (R27). -/
def setValid (s : State) (b : Bool) : State := { s with valid := b }

/-- `CONN <- b` (R28). -/
def setConn (s : State) (b : Bool) : State := { s with conn := b }

/-- `DEC_OK <- b` (R29). -/
def setDecOk (s : State) (b : Bool) : State := { s with decOk := b }

/-- `ILL <- b`, which every CMD write does (R30). -/
def setIll (s : State) (b : Bool) : State := { s with ill := b }

/-- `(ERR = OK)`. -/
def errIsOk (s : State) : Bool := s.err == Err.ok.code

/-- The last three lines of PARSE (R145): VALID and CONN from ERR, ILL cleared. -/
def closeParse (s : State) : State :=
  ((s.setValid s.errIsOk).setConn s.errIsOk).setIll false

/-- STATUS as a read returns it (R22): [2:0] ERR, [3] VFY, [4] VALID, [5] CONN, [6] DEC_OK, [7] ILL, the rest 0. -/
def statusWord (s : State) : Word :=
  fieldAt 0 s.err ||| fieldAt 3 (BitVec.ofBool s.vfy) ||| fieldAt 4 (BitVec.ofBool s.valid)
    ||| fieldAt 5 (BitVec.ofBool s.conn) ||| fieldAt 6 (BitVec.ofBool s.decOk) ||| fieldAt 7 (BitVec.ofBool s.ill)

end Sys2Proof.Machine.State
end

