-- ==== Sys2Proof/Machine/Control.lean ====
section
/-! DEFINITION. Control operations (spec R200 to R203): NOP and the seven reserved codes. A reserved code does not trap:
it records ILL and changes nothing else (R83, R201, R211). -/

namespace Sys2Proof.Machine

/-- NOP (R200). -/
def execNop (s : State) : Result := .next (s.setIll false)

/-- What every reserved code does (R201, R211). -/
def State.recordIllegal (s : State) : State := s.setIll true

/-- Code 0x9 (R201). -/
def execReserved9 (s : State) : Result := .next s.recordIllegal

/-- Code 0xA (R201). -/
def execReservedA (s : State) : Result := .next s.recordIllegal

/-- Code 0xB (R201). -/
def execReservedB (s : State) : Result := .next s.recordIllegal

/-- Code 0xC (R201). -/
def execReservedC (s : State) : Result := .next s.recordIllegal

/-- Code 0xD (R201). -/
def execReservedD (s : State) : Result := .next s.recordIllegal

/-- Code 0xE (R201). -/
def execReservedE (s : State) : Result := .next s.recordIllegal

/-- Code 0xF (R201). -/
def execReservedF (s : State) : Result := .next s.recordIllegal

end Sys2Proof.Machine
end

