-- ==== Sys2Proof/Machine/Operands.lean ====
section
/-! DEFINITION. How operands are assembled (spec R81, R84, R86, R88, R89, R140, R172, R173, R175): 16-bit fields from
bytes in both byte orders, payload words, 32-bit pairs, the alarm comparator, the length of a response, the decode
precondition. -/

namespace Sys2Proof.Machine

/-- The high byte of a 16-bit field, `v[15:8]` (R10). -/
def hi8 (v : Half) : Byte := v.extractLsb' 8 8

/-- The low byte of a 16-bit field, `v[7:0]` (R10). -/
def lo8 (v : Half) : Byte := v.extractLsb' 0 8

/-- `hi ++ lo`, the 16-bit value hi·256 + lo (R10). -/
def half (hi lo : Byte) : Half := hi ++ lo

namespace State

/-- A big-endian 16-bit field at index `i`: `BUF[i] ++ BUF[i+1]` (R66, R86). -/
def beHalf (s : State) (k i : Nat) : Half := half (s.byteAt k i) (s.byteAt k (i + 1))

/-- A little-endian CRC at index `i`: `BUF[i+1] ++ BUF[i]` (R66, R86, R87). -/
def leHalf (s : State) (k i : Nat) : Half := half (s.byteAt k (i + 1)) (s.byteAt k i)

/-- Payload word `w_j = BUF[3+2j] ++ BUF[4+2j]` (R89). -/
def payloadWord (s : State) (k j : Nat) : Half := s.beHalf k (3 + 2 * j)

/-- Byte 0 of a command frame (R84): BCAST_ADDR when BCAST = 1, else ADDR. -/
def addressByte (p : Config.Params) (s : State) : Byte := if s.bcast then p.bcastAddr else s.addr

/-- The first six bytes of a command frame (R84). -/
def commandFields (p : Config.Params) (s : State) : List Byte :=
  [s.addressByte p, s.fc, hi8 s.reg, lo8 s.reg, hi8 s.val, lo8 s.val]

end State

/-- `frame_total(fc, b2)` (R140): the length of a response from its function code and third byte. -/
def frameTotal (p : Config.Params) (fc b2 : Byte) : Nat :=
  if fc ∈ p.fcReadSet then 5 + b2.toNat
  else if fc ∈ p.fcEchoSet then 8
  else 5

/-- `pair(first, second)` (R172). -/
def pair (o : Config.PairOrder) (first second : Half) : Nat :=
  match o with
  | .hiFirst => first.toNat * 65536 + second.toNat
  | .loFirst => second.toNat * 65536 + first.toNat

/-- `alarm(w)` (R173). -/
def alarm (w : Half) : Bool := w != 0#16

/-- `dec_ready(N)` (R175). -/
def State.decReady (s : State) (k n : Nat) : Bool :=
  s.valid && (s.blen.toNat == 5 + n) && (s.byteAt k 2 == BitVec.ofNat 8 n)

end Sys2Proof.Machine
end

