-- ==== Sys2Proof/Machine/Crc.lean ====
section
/-! DEFINITION. The CRC16 Codec (spec R110 to R116): the checksum, the frame check, CRC_COMPUTE and CRC_VERIFY. -/

namespace Sys2Proof.Machine

/-- One of the eight rounds of R110: shift right, and XOR CRC_POLY when the bit shifted out is 1. -/
def crcBit (r : Half) : Half :=
  if r.getLsbD 0 then (r >>> 1) ^^^ Config.crcPoly else r >>> 1

/-- `n` rounds. -/
def crcRounds : Nat → Half → Half
  | 0, r => r
  | n + 1, r => crcRounds n (crcBit r)

/-- One byte: XOR into the low byte, then eight rounds (R110). -/
def crcByte (r : Half) (b : Byte) : Half := crcRounds 8 (r ^^^ b.setWidth 16)

/-- The working register after the bytes `d`, from `r` (R110; R44: it exists only inside one step). -/
def crcFrom (r : Half) (d : List Byte) : Half := d.foldl crcByte r

/-- `crc16(d)` (R110). -/
def crc16 (d : List Byte) : Half := crcFrom Config.crcInit d

/-- `crc_ok(T)` (R114), for T ≥ 2. -/
def State.crcOk (s : State) (k t : Nat) : Bool :=
  crc16 (s.bytes k 0 (t - 2)) == s.leHalf k (t - 2)

/-- CRC_COMPUTE (R112). -/
def execCrcCompute (s : State) : Result :=
  .next (((s.setCrc (crc16 (s.bytes 0 0 s.blen.toNat))).setIll false).drew 1)

/-- CRC_VERIFY (R113). -/
def execCrcVerify (s : State) : Result :=
  let ok := if 2 ≤ s.blen.toNat then s.crcOk 0 s.blen.toNat else false
  .next (((s.setVfy ok).setIll false).drew 1)

end Sys2Proof.Machine
end

