-- ==== Sys2Proof/Machine/FrameCodec.lean ====
section
/-! DEFINITION. The Frame Codec (spec R135 to R151): ENCODE, FRAMELEN, PARSE, UNPACK. The first argument of `byteAt`,
`bytes`, `crcOk` numbers the reads of one operation: a byte nothing has written may differ from read to read (R43; log 3). -/

namespace Sys2Proof.Machine

/-- ENCODE (R135; the frame layout is R84). -/
def execEncode (s : State) : Result :=
  let s1 := s.storeBytes 0 (s.commandFields Config.params)
  let c := crc16 (s1.bytes 0 0 6)
  let s2 := s1.storeBytes 6 [lo8 c, hi8 c]
  .next ((((s2.setBlen Config.cmdFrameLen).setCrc c).setValid false).setIll false)

/-- FRAMELEN (R141). -/
def execFramelen (s : State) : Result :=
  let n :=
    if s.blen.toNat < Config.minRespLen then Config.minRespLen
    else frameTotal Config.params (s.byteAt 0 1) (s.byteAt 0 2)
  .next (((s.setExpLen n).setIll false).drew 1)

/-- The checks of PARSE on a delimited frame of length `t` (R145): CRC, then address, then acceptance. -/
def State.judgeFrame (s : State) (t : Nat) : State :=
  let s1 := s.setBlen t
  if !s1.crcOk 1 t then s1.raise .checksumMismatch
  else if !s1.bcast && s1.byteAt 2 0 != s1.addr then s1.raise .addressMismatch
  else (s1.raise .ok).setResponse (s1.byteAt 3 0) (s1.byteAt 3 1)

/-- PARSE up to ERR (R145; the order of the errors is R215). -/
def State.parseFrame (s : State) : State :=
  if s.blen.toNat = 0 then s.raise .timeout
  else if s.blen.toNat < Config.minRespLen then s.raise .malformedFrame
  else if s.blen.toNat < frameTotal Config.params (s.byteAt 0 1) (s.byteAt 0 2) then s.raise .timeout
  else s.judgeFrame (frameTotal Config.params (s.byteAt 0 1) (s.byteAt 0 2))

/-- PARSE (R145 to R148). -/
def execParse (s : State) : Result :=
  .next (s.parseFrame.closeParse.drew 4)

/-- UNPACK (R150). -/
def execUnpack (s : State) : Result :=
  let s1 :=
    if s.blen.toNat == Config.cmdFrameLen && s.crcOk 0 Config.cmdFrameLen then
      (s.setUnpacked (s.byteAt 1 0) (s.byteAt 1 1) (s.beHalf 1 2) (s.beHalf 1 4)).setVfy true
    else s.setVfy false
  .next ((s1.setIll false).drew 2)

end Sys2Proof.Machine
end

