-- ==== Sys2Proof/Machine/Binary32.lean ====
section
/-! DEFINITION. The fixed-point to IEEE 754 binary32 converter `fx2f` (spec R170, R171, R174), in exact natural-number
arithmetic: every rational of the rule is a quotient of two naturals. -/

namespace Sys2Proof.Machine

/-- `round_half_even(num/den)`: the nearest integer, on a tie the even one (R170). -/
def roundHalfEven (num den : Nat) : Nat :=
  let f := num / den
  let r := num % den
  if 2 * r < den then f
  else if den < 2 * r then f + 1
  else if f % 2 = 0 then f
  else f + 1

/-- The exponent of R170 in the biased form `e + 7`, a natural number since e ≥ -7: the `l` with
2^l ≤ 2^7 · raw/div < 2^(l+1) (log 11). -/
def biasedExp (raw div : Nat) : Nat := Nat.log2 (raw * 128 / div)

/-- `round_half_even(q · 2^(23-e))` for q = raw/div and l = e + 7 (R170): 23 - e = 30 - l. -/
def significand (raw div l : Nat) : Nat :=
  if l ≤ 30 then roundHalfEven (raw * 2 ^ (30 - l)) div
  else roundHalfEven raw (div * 2 ^ (l - 30))

/-- `((e + 127) << 23) | (k - 2^23)` for l = e + 7 (R170): e + 127 = l + 120, and the fraction is below 2^23. -/
def packBinary32 (l k : Nat) : Word := BitVec.ofNat 32 ((l + 120) * 2 ^ 23 + (k - 2 ^ 23))

/-- `fx2f(raw, div)` under FLOAT_ROUND = SINGLE (R170). -/
def fx2fSingle (raw div : Nat) : Word :=
  if raw = 0 then 0#32
  else
    let l := biasedExp raw div
    let k := significand raw div l
    if k = 2 ^ 24 then packBinary32 (l + 1) (2 ^ 23) else packBinary32 l k

/-- The biased exponent field of a binary32 encoding. -/
def expField (w : Word) : Nat := (w.toNat / 2 ^ 23) % 256

/-- The fraction field of a binary32 encoding. -/
def fracField (w : Word) : Nat := w.toNat % 2 ^ 23

/-- The value of a finite non-negative binary32 encoding, times 2^149, which is always a natural number. -/
def scaledValue (w : Word) : Nat :=
  if expField w = 0 then fracField w else (2 ^ 23 + fracField w) * 2 ^ (expField w - 1)

/-- `raw` rounded to binary32, as a number (R171): an integer, since every binary32 value at or above 2^23 is one and an
integer below 2^24 is exact. -/
def roundedRaw (raw : Nat) : Nat := scaledValue (fx2fSingle raw 1) / 2 ^ 149

/-- `fx2f` under both settings of FLOAT_ROUND (R170, R171). -/
def fx2f (m : Config.FloatRound) (raw div : Nat) : Word :=
  match m with
  | .single => fx2fSingle raw div
  | .double => fx2fSingle (roundedRaw raw) div

end Sys2Proof.Machine
end

