-- ==== Sys2Proof/Machine/RegisterDecoder.lean ====
section
/-! DEFINITION. The Register Decoder (spec R170 to R183): DEC_MEAS and DEC_PARAM, from payload words to binary32
values and alarm flags. -/

namespace Sys2Proof.Machine

/-- `fx2f` under the configured FLOAT_ROUND. -/
def convert (raw div : Nat) : Word := fx2f Config.params.floatRound raw div

/-- `pair(w_j, w_(j+1))` under the configured PAIR_ORDER. -/
def State.payloadPair (s : State) (k j : Nat) : Nat :=
  pair Config.params.pairOrder (s.payloadWord k j) (s.payloadWord k (j + 1))

/-- DEC_MEAS (R176; the payload layout is R90). -/
def execDecMeas (s : State) : Result :=
  let s1 :=
    if s.decReady 0 Config.measBytes then
      (s.setMeas
        (convert (s.payloadWord 1 0).toNat Config.divV)
        (convert (s.payloadWord 1 1).toNat Config.divI)
        (convert (s.payloadPair 1 2) Config.divP)
        (convert (s.payloadPair 1 4) Config.divE)
        (alarm (s.payloadWord 1 6))
        (alarm (s.payloadWord 1 7))).setDecOk true
    else s.setDecOk false
  .next ((s1.setIll false).drew 2)

/-- DEC_PARAM (R180 to R182; the payload layout is R91). -/
def execDecParam (s : State) : Result :=
  let s1 :=
    if s.decReady 0 Config.paramBytes then
      (s.setParam
        (convert (s.payloadWord 1 0).toNat Config.divTh)
        (convert (s.payloadWord 1 1).toNat Config.divTh)
        (lo8 (s.payloadWord 1 2))
        (s.payloadWord 1 3)).setDecOk true
    else s.setDecOk false
  .next ((s1.setIll false).drew 2)

end Sys2Proof.Machine
end

