-- ==== Sys2Proof/Machine/Registers.lean ====
section
/-! DEFINITION. The host register map (spec R21, R22, R31 to R42): each register's offset, the word a read returns, and
what a host write does. CMD is not here: writing it starts an operation (R23; Machine/Access.lean). -/

namespace Sys2Proof.Machine

/-- The register's offset in the window (R22). -/
def RegName.offset : RegName → Nat
  | .cmd     => 0x000
  | .status  => 0x004
  | .addr    => 0x008
  | .fc      => 0x00C
  | .reg     => 0x010
  | .val     => 0x014
  | .crc     => 0x018
  | .blen    => 0x01C
  | .expLen  => 0x020
  | .rsp     => 0x024
  | .unpk0   => 0x028
  | .unpk1   => 0x02C
  | .mv      => 0x030
  | .mi      => 0x034
  | .mp      => 0x038
  | .me      => 0x03C
  | .malm    => 0x040
  | .phv     => 0x044
  | .plv     => 0x048
  | .pAddr   => 0x04C
  | .pShunt  => 0x050

/-- Every register of the map R22. -/
def RegName.every : List RegName :=
  [.cmd, .status, .addr, .fc, .reg, .val, .crc, .blen, .expLen, .rsp, .unpk0, .unpk1,
   .mv, .mi, .mp, .me, .malm, .phv, .plv, .pAddr, .pShunt]

/-- The register at an offset; none at a reserved one (R22, R65). -/
def regAt? (off : Nat) : Option RegName := RegName.every.find? fun r => r.offset == off

/-- The word a 32-bit read of the register returns; undefined bits read as 0, CMD reads as 0 (R21, R22, R23). -/
def State.readReg (s : State) : RegName → Word
  | .cmd     => 0#32
  | .status  => s.statusWord
  | .addr    => fieldAt 0 s.addr ||| fieldAt 8 (BitVec.ofBool s.bcast)
  | .fc      => fieldAt 0 s.fc
  | .reg     => fieldAt 0 s.reg
  | .val     => fieldAt 0 s.val
  | .crc     => fieldAt 0 s.crc
  | .blen    => fieldAt 0 s.blen
  | .expLen  => fieldAt 0 s.expLen
  | .rsp     => fieldAt 0 s.rAddr ||| fieldAt 8 s.rFc
  | .unpk0   => fieldAt 0 s.uAddr ||| fieldAt 8 s.uFc
  | .unpk1   => fieldAt 0 s.uReg ||| fieldAt 16 s.uVal
  | .mv      => s.mv
  | .mi      => s.mi
  | .mp      => s.mp
  | .me      => s.me
  | .malm    => fieldAt 0 (BitVec.ofBool s.alh) ||| fieldAt 1 (BitVec.ofBool s.all)
  | .phv     => s.phv
  | .plv     => s.plv
  | .pAddr   => fieldAt 0 s.pAddr
  | .pShunt  => fieldAt 0 s.pShunt

namespace State

/-- A host write of ADDR: ADDR <- w[7:0], BCAST <- w[8] (R31). -/
def writeAddr (s : State) (w : Word) : State := { s with addr := w.extractLsb' 0 8, bcast := w.getLsbD 8 }

/-- A host write of FC (R32). -/
def writeFc (s : State) (w : Word) : State := { s with fc := w.extractLsb' 0 8 }

/-- A host write of REG (R33). -/
def writeRegField (s : State) (w : Word) : State := { s with reg := w.extractLsb' 0 16 }

/-- A host write of VAL (R34). -/
def writeVal (s : State) (w : Word) : State := { s with val := w.extractLsb' 0 16 }

/-- A host write of BLEN (R36): a value above 260 is ignored entirely, an accepted one clears VALID. -/
def writeBlen (s : State) (w : Word) : State :=
  if (w.extractLsb' 0 9).toNat ≤ Config.bufCap then (s.setBlen (w.extractLsb' 0 9).toNat).setValid false else s

/-- A host write of a register other than CMD; a read-only register ignores it (R21). -/
def writeReg (s : State) (w : Word) : RegName → State
  | .cmd     => s
  | .status  => s
  | .addr    => s.writeAddr w
  | .fc      => s.writeFc w
  | .reg     => s.writeRegField w
  | .val     => s.writeVal w
  | .crc     => s
  | .blen    => s.writeBlen w
  | .expLen  => s
  | .rsp     => s
  | .unpk0   => s
  | .unpk1   => s
  | .mv      => s
  | .mi      => s
  | .mp      => s
  | .me      => s
  | .malm    => s
  | .phv     => s
  | .plv     => s
  | .pAddr   => s
  | .pShunt  => s

/-- A 32-bit read at an offset of the register space: the register, or 0 at a reserved offset (R62, R65). -/
def readRegSpace (s : State) (off : Nat) : Word :=
  match regAt? off with
  | some r => s.readReg r
  | none => 0#32

/-- An 8-bit read in the upper space, at index `i` = offset - 0x100: a byte of BUF, or 0 above it (R63, R65). -/
def readBufSpace (s : State) (i : Nat) : Byte :=
  if i < Config.bufCap then s.byteAt 0 i else 0#8

/-- An 8-bit write in the upper space: `BUF[i] <- b` and VALID <- 0, or nothing above BUF (R27, R63, R65). -/
def writeBufSpace (s : State) (i : Nat) (b : Byte) : State :=
  if i < Config.bufCap then (s.setByte i b).setValid false else s

end State

end Sys2Proof.Machine
end

