-- ==== Sys2Proof/Machine/Access.lean ====
section
/-! DEFINITION. Host accesses (spec R23, R60 to R65, R69): what a read and a write at a window offset do, the events
that reach the block, the translation of platform addresses (R61), and what a run is observed by (R259). -/

namespace Sys2Proof.Machine

/-- The size of the window in bytes (R22, R61). -/
def windowSize : Nat := 0x400

/-- The offset of BUF[0] in the window (R63); below it lies the register space (R62). -/
def bufBase : Nat := 0x100

/-- A read of `n` bytes at window offset `off` (R62, R63, R65); anything else is refused (R64, log 4). -/
def performRead (off n : Nat) (s : State) : Result :=
  if windowSize ≤ off then .refused .outsideWindow
  else if off < bufBase then
    if n = 4 ∧ off % 4 = 0 then .next (s.logRead (.word (s.readRegSpace off)))
    else .refused .unsupportedAccess
  else if n = 1 then .next ((s.logRead (.byte (s.readBufSpace (off - bufBase)))).drew 1)
  else .refused .unsupportedAccess

/-- A 32-bit write of `w` in the register space: CMD starts the operation and runs it to completion (R23), a reserved
offset ignores the write (R65). -/
def writeRegSpace (off : Nat) (w : Word) (s : State) : Result :=
  match regAt? off with
  | some .cmd => exec (decodeCmd w) s
  | some r => .next (s.writeReg w r)
  | none => .next s

/-- A write of the low 8·n bits of `v` at window offset `off` (R62, R63, R65); anything else is refused (R64, log 4). -/
def performWrite (off n v : Nat) (s : State) : Result :=
  if windowSize ≤ off then .refused .outsideWindow
  else if off < bufBase then
    if n = 4 ∧ off % 4 = 0 then writeRegSpace off (BitVec.ofNat 32 v) s
    else .refused .unsupportedAccess
  else if n = 1 then .next (s.writeBufSpace (off - bufBase) (BitVec.ofNat 8 v))
  else .refused .unsupportedAccess

/-- One host access (R71: it takes effect in the order the host issues it, whole). -/
def perform (a : Access) (s : State) : Result :=
  match a with
  | .read off n => performRead off n s
  | .write off n v => performWrite off n v s

/-- The reset input (R240): the block at its reset values, BUF unspecified. The host's pending accesses, the read log and
the draw counter are not the block's and stay (log 6). -/
def State.resetBlock (s : State) : State := { s with toBlock := Block.reset }

/-- One event. Two unserialised hosts have no meaning (R226, log 5). -/
def performEvent (e : Event) (s : State) : Result :=
  match e with
  | .access a => perform a s
  | .concurrent _ _ => .refused .concurrentHosts
  | .reset => .next s.resetBlock

/-- One step: the host's oldest pending event; an idle block stays as it is (R242, log 1). A state with ERR above 4 is
a model fault (93 U5, log 7). -/
def stepHost (s : State) : Result :=
  if 4 < s.err.toNat then .fault .errOutOfRange
  else
    match s.pending with
    | [] => .next s
    | e :: rest => performEvent e { s with pending := rest }

/-- A CMD write of `w` as an access (R23, R93). -/
def Access.cmdWrite (w : Nat) : Access := .write RegName.cmd.offset 4 w

/-- The window offset of a platform address under the window base BASE; none outside [BASE, BASE + 0x400), which the
block does not decode (R61, log 9). DESIGN CHOICE, unsafe: an access is decoded by the address of its first byte alone. One
that starts below BASE and reaches into the window (4 bytes at BASE - 2) is taken as not decoded, where the spec does not
say whether R64 makes it an unsupported access instead (log 9). -/
def windowOffset? (base platformAddr : Nat) : Option Nat :=
  if base ≤ platformAddr ∧ platformAddr < base + windowSize then some (platformAddr - base) else none

/-- An access at a platform address, as the window access the block decodes (R61). -/
def Access.inWindow? (base : Nat) : Access → Option Access
  | .read a n => (windowOffset? base a).map fun off => .read off n
  | .write a n v => (windowOffset? base a).map fun off => .write off n v

/-- The host issues an access at a platform address: it joins the accesses the block will perform if the block decodes
the address of its first byte, and leaves the block alone otherwise (R61, R71; DESIGN CHOICE, log 9). -/
def State.issue (base : Nat) (a : Access) (s : State) : State :=
  match a.inWindow? base with
  | some w => { s with pending := s.pending ++ [.access w] }
  | none => s

/-- What a run is observed by (R259). -/
structure Observation where
  regs  : List Word
  bytes : List Byte
  reads : List ReadValue
  deriving DecidableEq, Repr

/-- The observation of a final state: every host register, BUF[0..260) (an unwritten byte as a draw), the values
read (R259). -/
def State.observe (s : State) : Observation :=
  { regs := RegName.every.map s.readReg
    bytes := s.bytes 0 0 Config.bufCap
    reads := s.reads }

end Sys2Proof.Machine
end

