-- ==== Sys2Proof/Machine/Step.lean ====
section
/-! DEFINITION. The step of the machine. Its body is `stepHost` (Machine/Access.lean). -/

namespace Sys2Proof.Machine

/-- One step: the host's oldest pending event is performed to completion (spec R12, R23, R71). -/
def step (s : State) : Host.Outcome State Fault Refusal := stepHost s

/-- `s` with a CMD write of the word `w` (its `nbits` low bits, the bits above them 0) as the host's very next access: the
block fetches nothing (R24), its instructions are CMD writes, in the host's order. Nothing else changes. -/
def State.withFetchWord (s : State) (nbits w : Nat) : State :=
  { s with pending := .access (Access.cmdWrite (w % 2 ^ nbits)) :: s.pending }

end Sys2Proof.Machine
end

