-- ==== Sys2Proof/Machine/Assembler.lean ====
section
/-! DEFINITION. The assembler of spec R93 and R94: host programs as lines, and each line's bus transactions. -/

namespace Sys2Proof.Machine

/-- A line of a host program (R93), and the pseudo-instructions of R94. -/
inductive Line where
  /-- `WR <REG>, <value>` -/
  | wr (r : RegName) (v : Word)
  /-- `RD <REG>` -/
  | rd (r : RegName)
  /-- `WRB <i>, <byte>` -/
  | wrb (i : Nat) (b : Byte)
  /-- `RDB <i>` -/
  | rdb (i : Nat)
  /-- `<MNEMONIC>` -/
  | op (i : Instr)
  /-- `LOADBUF b0, …` -/
  | loadbuf (bs : List Byte)
  /-- `ENC a, fc, reg, val` -/
  | enc (a fc : Byte) (reg val : Half)
  /-- `BENC fc, reg, val` -/
  | benc (fc : Byte) (reg val : Half)
  /-- `RECV b0, …` -/
  | recv (bs : List Byte)
  deriving DecidableEq, Repr

/-- A 32-bit register write as a transaction: (offset, width, data) (R93). -/
def Access.wr (r : RegName) (v : Word) : Access := .write r.offset 4 v.toNat

/-- A 32-bit register read as a transaction (R93). -/
def Access.rd (r : RegName) : Access := .read r.offset 4

/-- An 8-bit write of BUF[i], at offset 0x100 + i (R93). -/
def Access.wrb (i : Nat) (b : Byte) : Access := .write (bufBase + i) 1 b.toNat

/-- An 8-bit read of BUF[i] (R93). -/
def Access.rdb (i : Nat) : Access := .read (bufBase + i) 1

/-- `WRB i, b0`, `WRB i+1, b1`, … -/
def storeLines : Nat → List Byte → List Access
  | _, [] => []
  | i, b :: bs => Access.wrb i b :: storeLines (i + 1) bs

/-- LOADBUF: the byte writes in order, then BLEN (R94, R75). -/
def loadbufAccesses (bs : List Byte) : List Access :=
  storeLines 0 bs ++ [Access.wr .blen (BitVec.ofNat 32 bs.length)]

/-- The operand writes of ENC and BENC, then ENCODE (R94). -/
def encAccesses (addrWord : Word) (fc : Byte) (reg val : Half) : List Access :=
  [Access.wr .addr addrWord, Access.wr .fc (fc.setWidth 32), Access.wr .reg (reg.setWidth 32),
   Access.wr .val (val.setWidth 32), Access.wr .cmd (encode .encode)]

/-- A line's bus transactions (R93, R94). -/
def Line.accesses : Line → List Access
  | .wr r v => [Access.wr r v]
  | .rd r => [Access.rd r]
  | .wrb i b => [Access.wrb i b]
  | .rdb i => [Access.rdb i]
  | .op i => [Access.wr .cmd (encode i)]
  | .loadbuf bs => loadbufAccesses bs
  | .enc a fc reg val => encAccesses (a.setWidth 32) fc reg val
  | .benc fc reg val => encAccesses 0x100#32 fc reg val
  | .recv bs => loadbufAccesses bs ++ [Access.wr .cmd (encode .parse)]

/-- A host program's accesses, in order (R71). -/
def assemble (ls : List Line) : List Access := ls.flatMap Line.accesses

/-- The host's program is given to the machine from outside: its accesses come after those already pending
(R259, log 1). -/
def State.load (s : State) (ls : List Line) : State :=
  { s with pending := s.pending ++ (assemble ls).map .access }

/-- The transmit half of R75: the host reads BUF[0..8) in index order, to pass it to the transport's `write`. -/
def transmitAccesses : List Access := (List.range Config.cmdFrameLen).map Access.rdb

end Sys2Proof.Machine
end

