-- ==== Sys2Proof/WellFormed.lean ====
section
/-! DEFINITION. Static checks: on operations (a CMD word has no operand, so every operation is well formed, spec R80,
R81), on host accesses (R62 to R65), on program lines (R93, R94) and on the parameters (R8). -/

namespace Sys2Proof

/-- Every operation is well formed: there is no operand in the CMD word to check (R80). -/
def Instr.wellFormed : Instr → Bool
  | .nop        => true
  | .crcCompute => true
  | .crcVerify  => true
  | .encode     => true
  | .framelen   => true
  | .parse      => true
  | .decMeas    => true
  | .decParam   => true
  | .unpack     => true
  | .reserved9  => true
  | .reservedA  => true
  | .reservedB  => true
  | .reservedC  => true
  | .reservedD  => true
  | .reservedE  => true
  | .reservedF  => true

namespace Machine

/-- A supported access by its offset and size: 32-bit at an aligned offset of 0x000..0x0FF (R62), 8-bit at
0x100..0x3FF (R63, R65). -/
def supportedAt (off n : Nat) : Bool :=
  (n == 4 && decide (off ≤ 0x0FC) && off % 4 == 0) ||
    (n == 1 && decide (0x100 ≤ off) && decide (off ≤ 0x3FF))

/-- A supported access (R62 to R65); any other is one R64 names, or lies outside the window. -/
def Access.supported : Access → Bool
  | .read off n => supportedAt off n
  | .write off n _ => supportedAt off n

/-- A well-formed access: supported, and the data of a write fits its size. -/
def Access.wellFormed : Access → Bool
  | .read off n => supportedAt off n
  | .write off n v => supportedAt off n && decide (v < 2 ^ (8 * n))

/-- A well-formed program line (R93, R94): BUF indexes and loaded lengths stay within BUF_CAP. -/
def Line.wellFormed : Line → Bool
  | .wr _ _ => true
  | .rd _ => true
  | .wrb i _ => decide (i < Config.bufCap)
  | .rdb i => decide (i < Config.bufCap)
  | .op i => i.wellFormed
  | .loadbuf bs => decide (bs.length ≤ Config.bufCap)
  | .enc _ _ _ _ => true
  | .benc _ _ _ => true
  | .recv bs => decide (bs.length ≤ Config.bufCap)

/-- A window base the platform may choose: aligned to 0x400 (R61). -/
def baseAligned (base : Nat) : Bool := base % windowSize == 0

end Machine

/-- The constraints of R8: BCAST_ADDR lies outside 1..247, the two function-code sets are disjoint. -/
def Config.Params.wellFormed (p : Config.Params) : Bool :=
  !(decide (1 ≤ p.bcastAddr.toNat) && decide (p.bcastAddr.toNat ≤ 247)) &&
    p.fcReadSet.all fun c => !p.fcEchoSet.contains c

end Sys2Proof
end

