-- ==== Sys2Proof/Safety.lean ====
section
/-! DEFINITION. What claims call a good state (the invariant `State.Inv`, spec R25, R27, R28, R36, R37, R43, R174), and the
duties of the host as decidable predicates (R243, R250, R251, R253, R254, R256). -/

namespace Sys2Proof.Machine

/-! ## Good states -/

/-- Every byte of BUF[0..n) has been written since reset. -/
def State.writtenTo (s : State) (n : Nat) : Bool :=
  (List.range n).all fun i => (Memory.get? s.buf i).isSome

/-- What a decoded output can hold (R174): +0.0, or a finite positive normal number from 0.01 to 2^32. -/
def isConverted (w : Word) : Bool :=
  w == 0#32 || (decide (0x3C23D70A ≤ w.toNat) && decide (w.toNat ≤ 0x4F800000))

/-- BUF[0..BLEN) is a response frame, and the one whose address and function code RSP holds (R27, R38, R87, R140). It
speaks of frames whose bytes have all been written: a byte nothing has written holds no value to speak of (R43). -/
structure State.HoldsResponse (s : State) : Prop where
  minimum : Config.minRespLen ≤ s.blen.toNat
  delimited : s.blen.toNat = frameTotal Config.params (s.byteAt 0 1) (s.byteAt 0 2)
  checked : s.crcOk 0 s.blen.toNat = true
  address : s.rAddr = s.byteAt 0 0
  code : s.rFc = s.byteAt 0 1

/-- The invariant of the machine. -/
structure State.Inv (s : State) : Prop where
  /-- ERR is one of the five codes (R25; 93 U5). -/
  err : s.err.toNat ≤ 4
  /-- BLEN is 0..260 (R36). -/
  blen : s.blen.toNat ≤ Config.bufCap
  /-- EXPLEN is its reset value or 5..260 (R37). -/
  expLen : s.expLen = 0#9 ∨ Config.minRespLen ≤ s.expLen.toNat ∧ s.expLen.toNat ≤ Config.bufCap
  /-- BUF keeps its canonical form (R43). -/
  buf : Memory.wf s.buf = true
  /-- CONN is set only by an accepted response (R28). -/
  conn : s.conn = true → s.err = Err.ok.code
  /-- VALID is set only together with CONN, and cleared by more (R27, R28). -/
  valid : s.valid = true → s.conn = true
  /-- VALID: BUF[0..BLEN) holds the accepted response (R27). -/
  frame : s.valid = true → s.writtenTo s.blen.toNat = true → s.HoldsResponse
  /-- The measurement outputs are converted values (R40, R174). -/
  meas : (isConverted s.mv && isConverted s.mi && isConverted s.mp && isConverted s.me) = true
  /-- The threshold outputs are converted values (R42, R174). -/
  thresholds : (isConverted s.phv && isConverted s.plv) = true

/-! ## What a step leaves alone -/

/-- The registers and flags of the block (R20), BUF apart. -/
inductive Part where
  | addr | bcast | fc | reg | val | blen | crc | expLen | rAddr | rFc
  | uAddr | uFc | uReg | uVal | err | vfy | valid | conn | decOk | ill
  | mv | mi | mp | me | alh | all | phv | plv | pAddr | pShunt
  deriving DecidableEq, Repr

/-- The contents of a register or flag, as a number. -/
def State.part (s : State) : Part → Nat
  | .addr => s.addr.toNat
  | .bcast => s.bcast.toNat
  | .fc => s.fc.toNat
  | .reg => s.reg.toNat
  | .val => s.val.toNat
  | .blen => s.blen.toNat
  | .crc => s.crc.toNat
  | .expLen => s.expLen.toNat
  | .rAddr => s.rAddr.toNat
  | .rFc => s.rFc.toNat
  | .uAddr => s.uAddr.toNat
  | .uFc => s.uFc.toNat
  | .uReg => s.uReg.toNat
  | .uVal => s.uVal.toNat
  | .err => s.err.toNat
  | .vfy => s.vfy.toNat
  | .valid => s.valid.toNat
  | .conn => s.conn.toNat
  | .decOk => s.decOk.toNat
  | .ill => s.ill.toNat
  | .mv => s.mv.toNat
  | .mi => s.mi.toNat
  | .mp => s.mp.toNat
  | .me => s.me.toNat
  | .alh => s.alh.toNat
  | .all => s.all.toNat
  | .phv => s.phv.toNat
  | .plv => s.plv.toNat
  | .pAddr => s.pAddr.toNat
  | .pShunt => s.pShunt.toNat

/-- From `s` to `t` no register or flag but the listed ones changes, and neither the host's pending accesses nor the
values its reads returned change. -/
def KeepsAllBut (changed : List Part) (s t : State) : Prop :=
  (∀ p, p ∉ changed → t.part p = s.part p) ∧ t.pending = s.pending ∧ t.reads = s.reads

/-- From `s` to `t` no byte of BUF changes; an unwritten byte stays unwritten. -/
def KeepsBuf (s t : State) : Prop := ∀ i, Memory.get? t.buf i = Memory.get? s.buf i

/-- BUF[i], BUF[i+1], … hold the bytes `d`. -/
def HoldsBytes (s : State) (i : Nat) (d : List Byte) : Prop :=
  ∀ j, (h : j < d.length) → Memory.get? s.buf (i + j) = some d[j]

/-- A write that starts an operation (R23). -/
def Access.isCmdWrite : Access → Bool
  | .read _ _ => false
  | .write off n _ => off == RegName.cmd.offset && n == 4

/-! ## Duties of the host -/

/-- R243 point 1 and R254: BCAST is set for a search, or ADDR holds a device address 1..247. -/
def State.addressSet (s : State) : Bool :=
  s.bcast || (decide (1 ≤ s.addr.toNat) && decide (s.addr.toNat ≤ 247))

/-- R243 point 2: BUF[0..BLEN) holds bytes the host or ENCODE wrote. -/
def State.bufReady (s : State) : Bool := s.writtenTo s.blen.toNat

/-- The states of an exchange, in block terms (R256). -/
inductive Phase where
  | idle
  | awaitingResponse
  | validated
  | failed
  deriving DecidableEq, Repr

/-- Where the host stands: the exchange's phase, and whether BUF holds a command frame not yet sent. -/
structure Exchange where
  phase  : Phase
  unsent : Bool
  deriving DecidableEq, Repr

/-- What a host does: an event at the block, or passing BUF[0..8) to the transport (R75). -/
inductive HostAct where
  | event (e : Event)
  | transmit
  deriving DecidableEq, Repr

/-- Where the host stands after an event that left the block in state `t`; none if the event breaks R251 point 1 (response
bytes loaded over a command frame not yet sent). DESIGN CHOICE, unsafe, where the spec is silent (log 15): the reset input
closes an exchange, so that the host may send again with no PARSE, and drops an unsent frame (R250, R256); Validated and
Failed last until the next ENCODE, transmit, PARSE or reset (R256: they "return to Idle with no block operation", at no
stated moment); every host write of a BUF byte counts as a response byte loaded (R251). -/
def Exchange.afterEvent (c : Exchange) (e : Event) (t : State) : Option Exchange :=
  match e with
  | .access (.write off n v) =>
    if off = RegName.cmd.offset ∧ n = 4 then
      match decodeCmd (BitVec.ofNat 32 v) with
      | .encode => some { phase := if c.phase = .awaitingResponse then .awaitingResponse else .idle, unsent := true }
      | .parse => some { c with phase := if t.errIsOk then .validated else .failed }
      | _ => some c
    else if bufBase ≤ off ∧ off < bufBase + Config.bufCap ∧ c.unsent = true then none
    else some c
  | .access (.read _ _) => some c
  | .concurrent _ _ => none
  | .reset => some { phase := .idle, unsent := false }

/-- Where the host stands after sending a command frame; none if one is outstanding (R250). DESIGN CHOICE (log 15): a send
opens the exchange whether or not ENCODE left a frame unsent, and from Validated and Failed as from Idle. -/
def Exchange.afterTransmit (c : Exchange) : Option Exchange :=
  if c.phase = .awaitingResponse then none else some { phase := .awaitingResponse, unsent := false }

/-- The host keeps R250 and R251 point 1 along its acts, from block state `s`, and every event has a meaning. -/
def dutiful (c : Exchange) (s : State) : List HostAct → Bool
  | [] => true
  | .transmit :: as =>
    match c.afterTransmit with
    | some c' => dutiful c' s as
    | none => false
  | .event e :: as =>
    match performEvent e s with
    | .next t =>
      match c.afterEvent e t with
      | some c' => dutiful c' t as
      | none => false
    | .fault _ => false
    | .refused _ => false

/-- The two groups of decoded outputs (R70, R253). -/
inductive Group where
  | meas
  | param
  deriving DecidableEq, Repr

/-- The registers a group is read through (R253). -/
def Group.regs : Group → List RegName
  | .meas => [.mv, .mi, .mp, .me, .malm]
  | .param => [.phv, .plv, .pAddr, .pShunt]

/-- The operation that replaces a group (R70). -/
def Group.decoder : Group → Instr
  | .meas => .decMeas
  | .param => .decParam

/-- The event replaces the group's registers: it starts the group's decoder (R70), or resets the block, which sets them to
0 (R240). -/
def Event.replaces (g : Group) : Event → Bool
  | .access (.write off n v) =>
    off == RegName.cmd.offset && n == 4 && decodeCmd (BitVec.ofNat 32 v) == g.decoder
  | .access (.read _ _) => false
  | .concurrent _ _ => false
  | .reset => true

/-- R253: no event between the reads of a copy replaces the group. R253 names the group's decoder alone. DESIGN CHOICE,
safe: a reset input between the reads breaks the copy too, because it replaces the group (log 15). -/
def consistentCopy (g : Group) (es : List Event) : Bool := es.all fun e => !e.replaces g

end Sys2Proof.Machine
end

