-- ==== Sys2Proof/Certificates/Slice0/Obligations.lean ====
section
/-! DEFINITION. The statements for the provers. Each docstring names the rules of spec/ it formalises. Byte reads carry the
number of the read (`byteAt k i`, `crcOk k t`), because two reads of a byte nothing has written may differ (R43, log 3). -/

open Sys2Proof Sys2Proof.Machine

/-! ## Encodings -/

/-- R80, R82, R83: bits [3:0] of the CMD word select exactly one operation, by its code; bits [31:4] are ignored. -/
def Obligations.CmdWordSelectsByLowFourBits : Prop :=
  ∀ (w : Word) (i : Instr), decodeCmd w = i ↔ w.toNat % 16 = (encode i).toNat

/-- R82: the code of every well-formed operation decodes to it. -/
def Obligations.EncodedOperationsDecode : Prop :=
  ∀ i : Instr, i.wellFormed = true →
    decodeCmd (encode i) = i ∧ decodeTableWord 32 (encode i).toNat = some i

/-- R82, R83 and vectors 2.10: words written out from the operation map, with ignored bits set. -/
def Obligations.TableWordsDecode : Prop :=
  decodeCmd 0x00000000#32 = .nop ∧ decodeCmd 0x00000010#32 = .nop ∧ decodeCmd 0x00000001#32 = .crcCompute ∧
  decodeCmd 0x00000003#32 = .encode ∧ decodeCmd 0x00000005#32 = .parse ∧ decodeCmd 0x00000006#32 = .decMeas ∧
  decodeCmd 0xFFFFFFF8#32 = .unpack ∧ decodeCmd 0x1234567F#32 = .reservedF ∧ decodeCmd 0x00000009#32 = .reserved9

/-! ## Steps -/

/-- R23, R24: a step at a pending CMD write runs the decoded operation, on the state with that access taken off the list;
`withFetchWord` makes a word the next such write. -/
def Obligations.StepRunsTheDecodedOperation : Prop :=
  (∀ (s : State) (v : Nat) (rest : List Event), s.err.toNat ≤ 4 →
      s.pending = .access (.write 0x000 4 v) :: rest →
      step s = exec (decodeCmd (BitVec.ofNat 32 v)) { s with pending := rest }) ∧
  ∀ (s : State) (w : Word), s.err.toNat ≤ 4 → step (s.withFetchWord 32 w.toNat) = exec (decodeCmd w) s

/-- R71, R72: a step that answers consumes exactly the oldest pending event and adds none; R242: an idle block stays. -/
def Obligations.EventsAreTakenInOrder : Prop :=
  ∀ s t : State, step s = .next t →
    (s.pending = [] → t = s) ∧ ∀ e rest, s.pending = e :: rest → t.pending = rest

/-- 93 U5 ("a state with ERR > 4 is a model fault") and R226 (accesses of two unserialised hosts have no meaning): where a
step stops for a reason outside the access itself. The event that holds two accesses as data is the model's choice
(log 5). -/
def Obligations.StepsThatStop : Prop :=
  (∀ s : State, 4 < s.err.toNat → step s = .fault .errOutOfRange) ∧
  ∀ (s : State) (a b : Access) (rest : List Event), s.err.toNat ≤ 4 →
    s.pending = .concurrent a b :: rest → step s = .refused .concurrentHosts

/-- R61: the block decodes the platform addresses BASE .. BASE + 0x3FF and no others, for reads and for writes. That the
address of an access's first byte decides, whatever its width, and that a decoded access joins the end of the list, are
the model's choices (logs 9 and 1). -/
def Obligations.IssueDecodesTheWindowOnly : Prop :=
  ∀ (base a n v : Nat) (s : State),
    (base ≤ a → a < base + 0x400 →
      s.issue base (.read a n) = { s with pending := s.pending ++ [.access (.read (a - base) n)] } ∧
      s.issue base (.write a n v) = { s with pending := s.pending ++ [.access (.write (a - base) n v)] }) ∧
    (a < base ∨ base + 0x400 ≤ a → s.issue base (.read a n) = s ∧ s.issue base (.write a n v) = s)

/-! ## The invariant -/

/-- R25, R27, R28, R36, R37, R43, R174: every step from a state that meets the invariant ends in one that does. -/
def Obligations.EveryStepKeepsTheInvariant : Prop :=
  ∀ s t : State, s.Inv → step s = .next t → t.Inv

/-- The reset state meets the invariant. -/
def Obligations.ResetMeetsTheInvariant : Prop := State.reset.Inv

/-! ## Reset -/

/-- R240, R241: after reset, and after the reset input in any state, every register reads 0 and no byte of BUF has a
defined value. That the reset input is an event between accesses is the model's choice (log 6), and so is that a byte
without a defined value is one the list does not hold (log 2). -/
def Obligations.ResetZeroesEveryRegister : Prop :=
  (∀ r, State.reset.readReg r = 0#32) ∧ (∀ i, Memory.get? State.reset.buf i = none) ∧
  ∀ s : State, ∃ t, performEvent .reset s = .next t ∧ (∀ r, t.readReg r = 0#32) ∧
    ∀ i, Memory.get? t.buf i = none

/-! ## Who writes what -/

/-- R25: STATUS [2:0] reads ERR; only PARSE writes it, and writes one of the codes 0 to 4; it is 0 after reset, with VALID
and CONN 0. -/
def Obligations.ErrIsWrittenOnlyByParse : Prop :=
  (∀ s : State, (s.readReg .status).extractLsb' 0 3 = s.err) ∧
  (Err.ok.code = 0#3 ∧ Err.timeout.code = 1#3 ∧ Err.checksumMismatch.code = 2#3 ∧ Err.addressMismatch.code = 3#3 ∧
    Err.malformedFrame.code = 4#3) ∧
  (∀ s t, exec .parse s = .next t → ∃ e : Err, t.err = e.code) ∧
  (∀ i s t, i ≠ .parse → exec i s = .next t → t.err = s.err) ∧
  (∀ a s t, a.isCmdWrite = false → perform a s = .next t → t.err = s.err) ∧
  State.reset.err = 0#3 ∧ State.reset.valid = false ∧ State.reset.conn = false

/-- R26: STATUS bit 3 reads VFY, the result of the last CRC_VERIFY or UNPACK; nothing else writes it. -/
def Obligations.VfyIsWrittenOnlyByVerifyAndUnpack : Prop :=
  (∀ s : State, (s.readReg .status).getLsbD 3 = s.vfy) ∧
  (∀ s, ∃ t, exec .crcVerify s = .next t ∧
    (t.vfy = true ↔ 2 ≤ s.blen.toNat ∧ s.crcOk 0 s.blen.toNat = true)) ∧
  (∀ s, ∃ t, exec .unpack s = .next t ∧ (t.vfy = true ↔ s.blen.toNat = 8 ∧ s.crcOk 0 8 = true)) ∧
  (∀ i s t, i ≠ .crcVerify → i ≠ .unpack → exec i s = .next t → t.vfy = s.vfy) ∧
  (∀ a s t, a.isCmdWrite = false → perform a s = .next t → t.vfy = s.vfy) ∧
  State.reset.vfy = false

/-- R27, R69: what writes VALID. PARSE writes (ERR = OK), ENCODE clears it, an accepted BLEN write and every write of a BUF
byte clear it whatever they write, a BLEN write above 260 leaves it, and nothing else changes it. -/
def Obligations.ValidIsClearedByEveryChangeOfTheFrame : Prop :=
  (∀ s : State, (s.readReg .status).getLsbD 4 = s.valid) ∧
  (∀ s t, exec .parse s = .next t → t.valid = (t.err == 0#3)) ∧
  (∀ s t, exec .encode s = .next t → t.valid = false) ∧
  (∀ i s t, i ≠ .parse → i ≠ .encode → exec i s = .next t → t.valid = s.valid) ∧
  (∀ s v t, perform (.write 0x01C 4 v) s = .next t → t.valid = if v % 512 ≤ 260 then false else s.valid) ∧
  (∀ s i v t, i < 260 → perform (.write (0x100 + i) 1 v) s = .next t → t.valid = false) ∧
  (∀ s off n v t, off ≠ 0x000 → off ≠ 0x01C → ¬ (0x100 ≤ off ∧ off < 0x204) →
    perform (.write off n v) s = .next t → t.valid = s.valid) ∧
  (∀ s off n t, perform (.read off n) s = .next t → t.valid = s.valid) ∧
  State.reset.valid = false

/-- R28: STATUS bit 5 reads CONN; PARSE writes (ERR = OK) and nothing else changes it. -/
def Obligations.ConnIsWrittenOnlyByParse : Prop :=
  (∀ s : State, (s.readReg .status).getLsbD 5 = s.conn) ∧
  (∀ s, ∃ t, exec .parse s = .next t ∧ (t.conn = true ↔ t.err = 0#3)) ∧
  (∀ i s t, i ≠ .parse → exec i s = .next t → t.conn = s.conn) ∧
  (∀ a s t, a.isCmdWrite = false → perform a s = .next t → t.conn = s.conn) ∧
  State.reset.conn = false

/-- R29: STATUS bit 6 reads DEC_OK: whether the last DEC_MEAS or DEC_PARAM met its precondition; nothing else writes it. -/
def Obligations.DecOkIsWrittenOnlyByDecoders : Prop :=
  (∀ s : State, (s.readReg .status).getLsbD 6 = s.decOk) ∧
  (∀ s, ∃ t, exec .decMeas s = .next t ∧
    (t.decOk = true ↔ s.valid = true ∧ s.blen.toNat = 21 ∧ s.byteAt 0 2 = 16#8)) ∧
  (∀ s, ∃ t, exec .decParam s = .next t ∧
    (t.decOk = true ↔ s.valid = true ∧ s.blen.toNat = 13 ∧ s.byteAt 0 2 = 8#8)) ∧
  (∀ i s t, i ≠ .decMeas → i ≠ .decParam → exec i s = .next t → t.decOk = s.decOk) ∧
  (∀ a s t, a.isCmdWrite = false → perform a s = .next t → t.decOk = s.decOk) ∧
  State.reset.decOk = false

/-- R30: STATUS bit 7 reads ILL; every CMD write sets it to whether its code is 9..15, and nothing else changes it. -/
def Obligations.IllTellsReservedCodes : Prop :=
  (∀ s : State, (s.readReg .status).getLsbD 7 = s.ill) ∧
  (∀ (s : State) (v : Nat), ∃ t, perform (.write 0x000 4 v) s = .next t ∧ (t.ill = true ↔ 9 ≤ v % 16)) ∧
  (∀ a s t, a.isCmdWrite = false → perform a s = .next t → t.ill = s.ill) ∧
  State.reset.ill = false

/-- R35: CRC holds the checksum of the last CRC_COMPUTE or ENCODE; no other operation or access writes it. R37: EXPLEN is
written by FRAMELEN alone. -/
def Obligations.CrcAndExpLenHaveOneSource : Prop :=
  (∀ i s t, i ≠ .crcCompute → i ≠ .encode → exec i s = .next t → t.crc = s.crc) ∧
  (∀ i s t, i ≠ .framelen → exec i s = .next t → t.expLen = s.expLen) ∧
  (∀ a s t, a.isCmdWrite = false → perform a s = .next t → t.crc = s.crc ∧ t.expLen = s.expLen)

/-- R43, R45: no operation but ENCODE writes BUF, and ENCODE leaves BUF[8..260) alone; no operation writes an operand
register. -/
def Obligations.OnlyEncodeWritesBufAndNoneWritesOperands : Prop :=
  (∀ i s t, i ≠ .encode → exec i s = .next t → KeepsBuf s t) ∧
  (∀ s t, exec .encode s = .next t → ∀ i, 8 ≤ i → Memory.get? t.buf i = Memory.get? s.buf i) ∧
  (∀ i s t, exec i s = .next t →
    t.addr = s.addr ∧ t.bcast = s.bcast ∧ t.fc = s.fc ∧ t.reg = s.reg ∧ t.val = s.val)

/-- R254: BCAST (and ADDR with it) stays as written until the host writes ADDR again, or the block is reset.
That the reset input is an event between accesses is the model's choice (log 6). -/
def Obligations.SearchModeStaysUntilAddrIsWritten : Prop :=
  ∀ (e : Event) (s t : State), e ≠ .reset → (∀ n v, e ≠ .access (.write 0x008 n v)) →
    performEvent e s = .next t → t.bcast = s.bcast ∧ t.addr = s.addr

/-- R70: each group of decoded outputs changes only in its own decoder's step (or at reset, R240); R253 rests on
it. -/
def Obligations.OnlyTheDecoderReplacesAGroup : Prop :=
  ∀ (g : Group) (e : Event) (s t : State), e.replaces g = false → performEvent e s = .next t →
    ∀ r ∈ g.regs, t.readReg r = s.readReg r

/-! ## Host accesses -/

/-- R62 to R65: a supported access answers in every state; any other is refused, by a name that says whether the offset
lies in the window. -/
def Obligations.ExactlySupportedAccessesAnswer : Prop :=
  ∀ (a : Access) (s : State),
    (a.supported = true → ∃ t, perform a s = .next t) ∧
    (a.supported = false → perform a s = .refused .unsupportedAccess ∨ perform a s = .refused .outsideWindow) ∧
    (∀ off n v, 0x400 ≤ off →
      perform (.read off n) s = .refused .outsideWindow ∧ perform (.write off n v) s = .refused .outsideWindow) ∧
    ∀ off n v, off < 0x400 → supportedAt off n = false →
      perform (.read off n) s = .refused .unsupportedAccess ∧ perform (.write off n v) s = .refused .unsupportedAccess

/-- R62, R69: a register read returns the register and a read changes nothing of the block. -/
def Obligations.ReadsReturnTheRegisterAndChangeNothing : Prop :=
  (∀ (r : RegName) (s : State), ∃ t, perform (.read r.offset 4) s = .next t ∧
    t.reads = s.reads ++ [.word (s.readReg r)]) ∧
  ∀ (off n : Nat) (s t : State), perform (.read off n) s = .next t →
    t.toBlock = s.toBlock ∧ t.pending = s.pending ∧ ∃ v, t.reads = s.reads ++ [v]

/-- R21, R22, R23: the register map. A 32-bit read at each offset returns the register's fields in their places, every other
bit 0; CMD reads as 0 in every state. -/
def Obligations.RegisterMapReads : Prop :=
  ∀ s : State,
    let gives (off : Nat) (w : Word) : Prop :=
      ∃ t, perform (.read off 4) s = .next t ∧ t.reads = s.reads ++ [.word w]
    gives 0x000 0#32 ∧
    gives 0x004 (0#24 ++ BitVec.ofBool s.ill ++ BitVec.ofBool s.decOk ++ BitVec.ofBool s.conn ++
      BitVec.ofBool s.valid ++ BitVec.ofBool s.vfy ++ s.err) ∧
    gives 0x008 (0#23 ++ BitVec.ofBool s.bcast ++ s.addr) ∧
    gives 0x00C (0#24 ++ s.fc) ∧
    gives 0x010 (0#16 ++ s.reg) ∧
    gives 0x014 (0#16 ++ s.val) ∧
    gives 0x018 (0#16 ++ s.crc) ∧
    gives 0x01C (0#23 ++ s.blen) ∧
    gives 0x020 (0#23 ++ s.expLen) ∧
    gives 0x024 (0#16 ++ s.rFc ++ s.rAddr) ∧
    gives 0x028 (0#16 ++ s.uFc ++ s.uAddr) ∧
    gives 0x02C (s.uVal ++ s.uReg) ∧
    gives 0x030 s.mv ∧ gives 0x034 s.mi ∧ gives 0x038 s.mp ∧ gives 0x03C s.me ∧
    gives 0x040 (0#30 ++ BitVec.ofBool s.all ++ BitVec.ofBool s.alh) ∧
    gives 0x044 s.phv ∧ gives 0x048 s.plv ∧
    gives 0x04C (0#24 ++ s.pAddr) ∧
    gives 0x050 (0#16 ++ s.pShunt)

/-- R69: two reads in a row return the same value, except of a BUF byte never written since reset. -/
def Obligations.ReadsAreIdempotent : Prop :=
  ∀ (off n : Nat) (s t u : State), perform (.read off n) s = .next t → perform (.read off n) t = .next u →
    (0x100 ≤ off → off < 0x204 → (Memory.get? s.buf (off - 0x100)).isSome = true) →
    ∃ v, t.reads = s.reads ++ [v] ∧ u.reads = s.reads ++ [v, v]

/-- R21, R31 to R34: a 32-bit write of ADDR, FC, REG or VAL completes, reads back its defined bits with the others 0, and
changes nothing else. -/
def Obligations.OperandWritesReadBack : Prop :=
  ∀ (s : State) (w : Word),
    (∃ t, perform (.write 0x008 4 w.toNat) s = .next t ∧ t.readReg .addr = w &&& 0x1FF#32 ∧
      t.addr = w.setWidth 8 ∧ t.bcast = w.getLsbD 8 ∧ KeepsBuf s t ∧ KeepsAllBut [.addr, .bcast] s t) ∧
    (∃ t, perform (.write 0x00C 4 w.toNat) s = .next t ∧ t.readReg .fc = w &&& 0xFF#32 ∧
      t.fc = w.setWidth 8 ∧ KeepsBuf s t ∧ KeepsAllBut [.fc] s t) ∧
    (∃ t, perform (.write 0x010 4 w.toNat) s = .next t ∧ t.readReg .reg = w &&& 0xFFFF#32 ∧
      t.reg = w.setWidth 16 ∧ KeepsBuf s t ∧ KeepsAllBut [.reg] s t) ∧
    (∃ t, perform (.write 0x014 4 w.toNat) s = .next t ∧ t.readReg .val = w &&& 0xFFFF#32 ∧
      t.val = w.setWidth 16 ∧ KeepsBuf s t ∧ KeepsAllBut [.val] s t)

/-- R36 (the host's side): with v = w[8:0], a write of BLEN sets BLEN and clears VALID if v ≤ 260 and is ignored entirely
otherwise. -/
def Obligations.BlenWriteIsAcceptedUpTo260 : Prop :=
  ∀ (s : State) (w : Word), ∃ t, perform (.write 0x01C 4 w.toNat) s = .next t ∧
    (w.toNat % 512 ≤ 260 → t.blen.toNat = w.toNat % 512 ∧ t.valid = false ∧ KeepsBuf s t ∧
      KeepsAllBut [.blen, .valid] s t) ∧
    (260 < w.toNat % 512 → t = s)

/-- R21: every read-only register ignores every write. -/
def Obligations.ReadOnlyRegistersIgnoreWrites : Prop :=
  ∀ (s : State) (r : RegName) (v : Nat),
    r ∉ [.cmd, .addr, .fc, .reg, .val, .blen] → perform (.write r.offset 4 v) s = .next s

/-- R65: reserved offsets read as 0 and ignore writes, in each area's own width. -/
def Obligations.ReservedOffsetsReadZeroAndIgnoreWrites : Prop :=
  ∀ (s : State) (off v : Nat),
    (0x054 ≤ off → off ≤ 0x0FF → off % 4 = 0 →
      perform (.write off 4 v) s = .next s ∧
      ∃ t, perform (.read off 4) s = .next t ∧ t.reads = s.reads ++ [.word 0#32]) ∧
    (0x204 ≤ off → off ≤ 0x3FF →
      perform (.write off 1 v) s = .next s ∧
      ∃ t, perform (.read off 1) s = .next t ∧ t.reads = s.reads ++ [.byte 0#8])

/-- R63: an 8-bit write at 0x100 + i sets BUF[i] and clears VALID, an 8-bit read returns BUF[i], at every index whatever
BLEN is. -/
def Obligations.BufWindowReadsAndWritesOneByte : Prop :=
  ∀ (s : State) (i : Nat) (b : Byte), i < 260 →
    (∃ t, perform (.write (0x100 + i) 1 b.toNat) s = .next t ∧ Memory.get? t.buf i = some b ∧
      (∀ j, j ≠ i → Memory.get? t.buf j = Memory.get? s.buf j) ∧ t.valid = false ∧ KeepsAllBut [.valid] s t) ∧
    (∃ t, perform (.read (0x100 + i) 1) s = .next t ∧ t.reads = s.reads ++ [.byte (s.byteAt 0 i)]) ∧
    (Memory.get? s.buf i = some b → s.byteAt 0 i = b)

/-- R94, R75: LOADBUF of up to 260 bytes, run to its end, leaves exactly those bytes in BUF[0..n), BLEN = n and VALID = 0.
That a program's accesses join a list of the state, one step each, is the model's choice (log 1). -/
def Obligations.LoadbufLoadsTheBytes : Prop :=
  ∀ (s : State) (d : List Byte), s.err.toNat ≤ 4 → s.pending = [] → d.length ≤ 260 →
    ∃ t : State, Host.Core.run Sys2Proof.core (d.length + 1) (s.load [.loadbuf d]) = .next t ∧
      HoldsBytes t 0 d ∧ t.blen.toNat = d.length ∧ t.valid = false ∧
      (∀ j, d.length ≤ j → Memory.get? t.buf j = Memory.get? s.buf j) ∧ KeepsAllBut [.blen, .valid] s t

/-- The canonical form of BUF (log 2): two well-formed memories that read alike at every index are equal data. -/
def Obligations.CanonicalMemoriesAreEqualData : Prop :=
  ∀ m m' : Memory, Memory.wf m = true → Memory.wf m' = true → (∀ i, Memory.get? m i = Memory.get? m' i) → m = m'

/-! ## Control -/

/-- R200: NOP clears ILL and changes no other state; bits [31:4] of its CMD word are ignored. -/
def Obligations.NopOnlyClearsIll : Prop :=
  encode .nop = 0x0#32 ∧ (∀ w : Word, w.extractLsb' 0 4 = 0x0#4 → decodeCmd w = .nop) ∧
  ∀ s : State, ∃ t, exec .nop s = .next t ∧ t.ill = false ∧ KeepsBuf s t ∧ KeepsAllBut [.ill] s t

/-- R201, R211: each reserved code completes, records ILL and changes no other state; the next defined code clears ILL. -/
def Obligations.ReservedCodesOnlySetIll : Prop :=
  ∀ (i : Instr) (s : State), i ∈ [.reserved9, .reservedA, .reservedB, .reservedC, .reservedD, .reservedE, .reservedF] →
    ∃ t, exec i s = .next t ∧ t.ill = true ∧ KeepsBuf s t ∧ KeepsAllBut [.ill] s t ∧
      ∀ j u, j.isReserved = false → exec j t = .next u → u.ill = false

/-! ## The CRC unit -/

/-- R110: the checksum byte by byte is the bit-serial one: each bit, least significant first, is compared with bit 0 of the
register as it is shifted out. -/
def Obligations.CrcIsTheBitSerialChecksum : Prop :=
  ∀ d : List Byte,
    crc16 d = (d.flatMap fun b => (List.range 8).map b.getLsbD).foldl
      (fun (r : Half) (x : Bool) => if r.getLsbD 0 != x then (r >>> 1) ^^^ 0xA001#16 else r >>> 1) 0xFFFF#16

/-- R111, which the spec itself infers from R110 ("[derived: from rule R110, …]"): appending the checksum low byte first
gives residue 0, for every byte list. -/
def Obligations.CrcResidueIsZero : Prop :=
  (∀ d : List Byte, crc16 (d ++ [(crc16 d).extractLsb' 0 8, (crc16 d).extractLsb' 8 8]) = 0x0000#16) ∧
  crc16 [] = 0xFFFF#16 ∧ crc16 [0xFF#8, 0xFF#8] = 0x0000#16

/-- R112: CRC_COMPUTE writes the checksum of BUF[0..BLEN), clears ILL, and changes nothing else; BLEN = 0 gives 0xFFFF. -/
def Obligations.CrcComputeChecksumsTheBuffer : Prop :=
  encode .crcCompute = 0x1#32 ∧
  ∀ s : State, ∃ t, exec .crcCompute s = .next t ∧
    t.crc = crc16 ((List.range s.blen.toNat).map fun i => s.byteAt 0 i) ∧ t.ill = false ∧
    (s.blen.toNat = 0 → t.crc = 0xFFFF#16) ∧
    (HoldsBytes s 0 [0x31#8, 0x32#8, 0x33#8, 0x34#8, 0x35#8, 0x36#8, 0x37#8, 0x38#8, 0x39#8] → s.blen.toNat = 9 →
      t.crc = 0x4B37#16) ∧ KeepsBuf s t ∧ KeepsAllBut [.crc, .ill] s t

/-- R113, R114: CRC_VERIFY compares the checksum of all but the last two bytes with those two read low byte first; on fewer
than two bytes VFY is 0. -/
def Obligations.CrcVerifyChecksTheTrailingCrc : Prop :=
  encode .crcVerify = 0x2#32 ∧
  ∀ s : State, ∃ t, exec .crcVerify s = .next t ∧
    (s.blen.toNat < 2 → t.vfy = false) ∧
    (2 ≤ s.blen.toNat → (t.vfy = true ↔
      crc16 ((List.range (s.blen.toNat - 2)).map fun i => s.byteAt 0 i) =
        s.byteAt 0 (s.blen.toNat - 1) ++ s.byteAt 0 (s.blen.toNat - 2))) ∧
    t.ill = false ∧ KeepsBuf s t ∧ KeepsAllBut [.vfy, .ill] s t

/-- R115, R44: the CRC unit keeps no state: equal bytes give equal checksums, whatever else the two states hold. -/
def Obligations.CrcDependsOnTheBytesAlone : Prop :=
  ∀ (s s' t t' : State) (d : List Byte), HoldsBytes s 0 d → HoldsBytes s' 0 d → s.blen.toNat = d.length →
    s'.blen.toNat = d.length → exec .crcCompute s = .next t → exec .crcCompute s' = .next t' →
    t.crc = crc16 d ∧ t'.crc = crc16 d

/-- R116: after CRC_VERIFY accepts a written frame, the host changing any one byte of it to a different value makes the next
CRC_VERIFY fail. -/
def Obligations.SingleByteCorruptionIsDetected : Prop :=
  ∀ (s t : State) (i : Nat) (b : Byte), s.blen.toNat ≤ 260 → s.writtenTo s.blen.toNat = true →
    exec .crcVerify s = .next t → t.vfy = true → i < s.blen.toNat → Memory.get? s.buf i ≠ some b →
    ∃ u v, perform (.write (0x100 + i) 1 b.toNat) t = .next u ∧ exec .crcVerify u = .next v ∧ v.vfy = false

/-! ## The frame codec -/

/-- R135, R84: ENCODE builds the 8-byte command frame (0xF8 in byte 0 when BCAST = 1), sets BLEN = 8 and CRC, clears VALID
and ILL, and changes nothing else. -/
def Obligations.EncodeBuildsTheCommandFrame : Prop :=
  encode .encode = 0x3#32 ∧
  ∀ s : State, ∃ t, exec .encode s = .next t ∧
    (let a : Byte := if s.bcast then 0xF8#8 else s.addr
     let f := [a, s.fc, s.reg.extractLsb' 8 8, s.reg.extractLsb' 0 8, s.val.extractLsb' 8 8, s.val.extractLsb' 0 8]
     HoldsBytes t 0 (f ++ [(crc16 f).extractLsb' 0 8, (crc16 f).extractLsb' 8 8]) ∧ t.crc = crc16 f) ∧
    (∀ i, 8 ≤ i → Memory.get? t.buf i = Memory.get? s.buf i) ∧
    t.blen.toNat = 8 ∧ t.valid = false ∧ t.ill = false ∧ KeepsAllBut [.blen, .crc, .valid, .ill] s t

/-- R140: the length of a response by its function code, always 5..260. -/
def Obligations.ResponseLengthByFunctionCode : Prop :=
  ∀ fc b2 : Byte,
    (fc = 0x03#8 ∨ fc = 0x04#8 → frameTotal Config.params fc b2 = 5 + b2.toNat) ∧
    (fc = 0x06#8 ∨ fc = 0x42#8 → frameTotal Config.params fc b2 = 8) ∧
    (fc ∉ [0x03#8, 0x04#8, 0x06#8, 0x42#8] → frameTotal Config.params fc b2 = 5) ∧
    5 ≤ frameTotal Config.params fc b2 ∧ frameTotal Config.params fc b2 ≤ 260

/-- R141: FRAMELEN writes 5 below five bytes and the length of the response otherwise, clears ILL, and changes nothing
else. -/
def Obligations.FramelenTellsTheResponseLength : Prop :=
  encode .framelen = 0x4#32 ∧
  ∀ s : State, ∃ t, exec .framelen s = .next t ∧
    (s.blen.toNat < 5 → t.expLen.toNat = 5) ∧
    (5 ≤ s.blen.toNat → t.expLen.toNat = frameTotal Config.params (s.byteAt 0 1) (s.byteAt 0 2)) ∧
    t.ill = false ∧ KeepsBuf s t ∧ KeepsAllBut [.expLen, .ill] s t

/-- R145, R210, R215: every outcome of PARSE, in the order of its checks, with everything it writes and leaves alone. -/
def Obligations.ParseOutcomes : Prop :=
  encode .parse = 0x5#32 ∧
  ∀ s : State, ∃ t, exec .parse s = .next t ∧
    (let n := s.blen.toNat
     let T := frameTotal Config.params (s.byteAt 0 1) (s.byteAt 0 2)
     (n = 0 → t.err = 1#3 ∧ t.blen = s.blen) ∧
     (1 ≤ n ∧ n ≤ 4 → t.err = 4#3 ∧ t.blen = s.blen) ∧
     (5 ≤ n ∧ n < T → t.err = 1#3 ∧ t.blen = s.blen) ∧
     (5 ≤ n ∧ T ≤ n → t.blen.toNat = T ∧
       (s.crcOk 1 T = false → t.err = 2#3) ∧
       (s.crcOk 1 T = true → s.bcast = false → s.byteAt 2 0 ≠ s.addr → t.err = 3#3) ∧
       (s.crcOk 1 T = true → (s.bcast = true ∨ s.byteAt 2 0 = s.addr) →
         t.err = 0#3 ∧ t.rAddr = s.byteAt 3 0 ∧ t.rFc = s.byteAt 3 1))) ∧
    (t.err ≠ 0#3 → t.rAddr = s.rAddr ∧ t.rFc = s.rFc) ∧
    t.valid = (t.err == 0#3) ∧ t.conn = (t.err == 0#3) ∧ t.ill = false ∧ KeepsBuf s t ∧
    KeepsAllBut [.err, .valid, .conn, .blen, .rAddr, .rFc, .ill] s t

/-- R87, R88, R145: a frame whose length is the one its header tells, followed by its checksum low byte first, is accepted
from the addressed device or in search mode, whatever surplus follows it; BLEN becomes the frame's length. -/
def Obligations.ParseAcceptsEveryGoodFrame : Prop :=
  ∀ (s : State) (a fc b2 : Byte) (p : List Byte),
    let d := a :: fc :: b2 :: p
    HoldsBytes s 0 (d ++ [lo8 (crc16 d), hi8 (crc16 d)]) →
    frameTotal Config.params fc b2 = d.length + 2 → d.length + 2 ≤ s.blen.toNat →
    (s.bcast = true ∨ s.addr = a) →
    ∃ t, exec .parse s = .next t ∧ t.err = 0#3 ∧ t.valid = true ∧ t.conn = true ∧ t.rAddr = a ∧ t.rFc = fc ∧
      t.blen.toNat = d.length + 2

/-- R147: PARSE examines BUF[0..T) only: two states that agree on the frame and the address settings, whatever bytes follow
it and however many, give the same outcome. -/
def Obligations.ParseExaminesOneFrameOnly : Prop :=
  ∀ (s s' : State) (a fc b2 : Byte) (p : List Byte),
    let d := a :: fc :: b2 :: p
    HoldsBytes s 0 d → HoldsBytes s' 0 d → frameTotal Config.params fc b2 = d.length →
    d.length ≤ s.blen.toNat → d.length ≤ s'.blen.toNat → s'.addr = s.addr → s'.bcast = s.bcast →
    ∃ t t', exec .parse s = .next t ∧ exec .parse s' = .next t' ∧ t'.err = t.err ∧ t'.valid = t.valid ∧
      t'.conn = t.conn ∧ t.blen.toNat = d.length ∧ t'.blen.toNat = d.length ∧
      (t.err = 0#3 → t.rAddr = a ∧ t.rFc = fc ∧ t'.rAddr = a ∧ t'.rFc = fc)

/-- R148: PARSE does not compare the response with the request: FC, REG and VAL do not bear on its outcome. -/
def Obligations.ParseDoesNotReadTheRequest : Prop :=
  ∀ (s t : State) (f : Byte) (r v : Half), exec .parse s = .next t →
    exec .parse { s with fc := f, reg := r, val := v } = .next { t with fc := f, reg := r, val := v }

/-- R217, R175 (the source's "prior cached snapshot preserved unchanged"): after a failed PARSE both decoders refuse and
every decoded output keeps its value from before. -/
def Obligations.FailedParsePreservesTheSnapshot : Prop :=
  ∀ s t : State, exec .parse s = .next t → t.err ≠ 0#3 →
    t.conn = false ∧
    (∃ u, exec .decMeas t = .next u ∧ u.decOk = false ∧ ∀ r ∈ Group.meas.regs, u.readReg r = s.readReg r) ∧
    (∃ u, exec .decParam t = .next u ∧ u.decOk = false ∧ ∀ r ∈ Group.param.regs, u.readReg r = s.readReg r)

/-- R255, R141: with the header written, FRAMELEN's answer is what PARSE needs: PARSE then reports TIMEOUT exactly when BLEN
is below EXPLEN. -/
def Obligations.FramelenForetellsParse : Prop :=
  ∀ (s t u : State) (b1 b2 : Byte), Memory.get? s.buf 1 = some b1 → Memory.get? s.buf 2 = some b2 →
    5 ≤ s.blen.toNat → exec .framelen s = .next t → exec .parse t = .next u →
    (u.err = 1#3 ↔ s.blen.toNat < t.expLen.toNat)

/-- R150: UNPACK writes the fields of a command-shaped frame and VFY = 1, or VFY = 0 with the fields unchanged. -/
def Obligations.UnpackReadsTheCommandFields : Prop :=
  encode .unpack = 0x8#32 ∧
  ∀ s : State, ∃ t, exec .unpack s = .next t ∧
    (s.blen.toNat = 8 ∧ s.crcOk 0 8 = true →
      t.uAddr = s.byteAt 1 0 ∧ t.uFc = s.byteAt 1 1 ∧ t.uReg = s.byteAt 1 2 ++ s.byteAt 1 3 ∧
      t.uVal = s.byteAt 1 4 ++ s.byteAt 1 5 ∧ t.vfy = true ∧
      KeepsAllBut [.uAddr, .uFc, .uReg, .uVal, .vfy, .ill] s t) ∧
    (¬ (s.blen.toNat = 8 ∧ s.crcOk 0 8 = true) → t.vfy = false ∧ KeepsAllBut [.vfy, .ill] s t) ∧
    t.ill = false ∧ KeepsBuf s t

/-- R151, which the spec itself infers from R135, R150 and R111 ("[derived: from rule R135, rule R150 and 40_crc.md rule
R111]"): ENCODE followed by UNPACK, with BUF and BLEN untouched between them, recovers every field for every operand
value. -/
def Obligations.EncodeThenUnpackRoundTrip : Prop :=
  ∀ s : State, ∃ t, exec .encode s = .next t ∧
    ∀ t' : State, KeepsBuf t t' → t'.blen = t.blen →
      ∃ u, exec .unpack t' = .next u ∧ u.vfy = true ∧ u.uAddr = (if s.bcast then 0xF8#8 else s.addr) ∧
        u.uFc = s.fc ∧ u.uReg = s.reg ∧ u.uVal = s.val

/-- A host that keeps the duties as the model renders them has the encoded frame still in BUF when it comes to send it. It
rests on R251 point 1 (send BUF[0..8) before loading response bytes) and R75, but the monitor `Exchange.afterEvent` is the
model's choice (log 15): every host write of a BUF byte counts as a response byte loaded, and what else it allows or keeps
is the model's too. -/
def Obligations.DutifulHostKeepsTheEncodedFrame : Prop :=
  ∀ (c c' : Exchange) (e : Event) (s t : State), c.unsent = true → performEvent e s = .next t →
    c.afterEvent e t = some c' → e ≠ .reset → (∀ off n v, e = .access (.write off n v) →
      off = 0x000 → decodeCmd (BitVec.ofNat 32 v) ≠ .encode) →
    KeepsBuf s t ∧ c'.unsent = true

/-! ## The register decoder -/

/-- R170: the converter's result is the binary32 number nearest to raw/div among all finite ones, on a tie the one with an
even fraction. Distances are scaled by div · 2^149, so that they are integers. -/
def Obligations.ConverterRoundsToNearestEven : Prop :=
  ∀ (raw div : Nat), raw < 2 ^ 32 → div ∈ [1, 10, 100] →
    let r := fx2f .single raw div
    let dist (x : Word) : Nat := ((scaledValue x : Int) * div - raw * 2 ^ 149).natAbs
    r.toNat < 0x7F800000 ∧
    ∀ w : Word, w.toNat < 0x7F800000 → dist r ≤ dist w ∧ (dist w = dist r → w ≠ r → r.getLsbD 0 = false)

/-- R174, which the spec itself infers from R170 ("[derived: from rule R170]"): every result is finite, non-negative and not
subnormal, +0.0 only for 0, between 0x3C23D70A and 0x4F800000 otherwise, with both bounds reached; 16-bit raw values are
recovered, 32-bit ones need not be. -/
def Obligations.ConverterRange : Prop :=
  (∀ (raw div : Nat), raw < 2 ^ 32 → div ∈ [1, 10, 100] →
    (fx2f .single raw div = 0#32 ↔ raw = 0) ∧
    (raw ≠ 0 → 0x3C23D70A ≤ (fx2f .single raw div).toNat ∧ (fx2f .single raw div).toNat ≤ 0x4F800000)) ∧
  fx2f .single 1 100 = 0x3C23D70A#32 ∧ fx2f .single (2 ^ 32 - 1) 1 = 0x4F800000#32 ∧
  (∀ (raw div : Nat), raw < 2 ^ 16 → div ∈ [1, 10, 100] →
    roundHalfEven (scaledValue (fx2f .single raw div) * div) (2 ^ 149) = raw) ∧
  fx2f .single 16777216 1 = fx2f .single 16777217 1

/-- R171: the two settings of FLOAT_ROUND agree for every raw below 2^24, and differ at the rule's example. -/
def Obligations.RoundingSettingsAgreeBelow2Pow24 : Prop :=
  (∀ (raw div : Nat), raw < 2 ^ 24 → div ∈ [1, 10, 100] → fx2f .double raw div = fx2f .single raw div) ∧
  fx2f .single 16777217 10 = 0x49CCCCCE#32 ∧ fx2f .double 16777217 10 = 0x49CCCCCD#32

/-- R172, R173: the pair assembler in both orders, without overflow, with HI_FIRST decided; the alarm comparator. -/
def Obligations.PairsAndAlarms : Prop :=
  (∀ f g : Half, pair .hiFirst f g = f.toNat * 65536 + g.toNat ∧ pair .loFirst f g = g.toNat * 65536 + f.toNat ∧
    pair .hiFirst f g < 2 ^ 32 ∧ pair .loFirst f g < 2 ^ 32) ∧
  Config.params.pairOrder = .hiFirst ∧ pair .hiFirst 0#16 1500#16 = 1500 ∧
  ∀ w : Half, alarm w = true ↔ w ≠ 0#16

/-- R176, R175, R90: DEC_MEAS on a validated 21-byte read response of byte count 16 writes its six outputs from the payload
words and DEC_OK = 1; otherwise DEC_OK = 0 and no output changes. -/
def Obligations.DecMeasDecodesTheMeasurementPayload : Prop :=
  encode .decMeas = 0x6#32 ∧
  ∀ s : State, ∃ t, exec .decMeas s = .next t ∧
    (let w (k : Nat) : Half := s.byteAt 1 (3 + 2 * k) ++ s.byteAt 1 (4 + 2 * k)
     (s.valid = true ∧ s.blen.toNat = 21 ∧ s.byteAt 0 2 = 16#8 →
       t.mv = fx2f .single (w 0).toNat 100 ∧ t.mi = fx2f .single (w 1).toNat 100 ∧
       t.mp = fx2f .single ((w 2).toNat * 65536 + (w 3).toNat) 10 ∧
       t.me = fx2f .single ((w 4).toNat * 65536 + (w 5).toNat) 1 ∧
       (t.alh = true ↔ w 6 ≠ 0#16) ∧ (t.all = true ↔ w 7 ≠ 0#16) ∧ t.decOk = true ∧
       KeepsAllBut [.mv, .mi, .mp, .me, .alh, .all, .decOk, .ill] s t) ∧
     (¬ (s.valid = true ∧ s.blen.toNat = 21 ∧ s.byteAt 0 2 = 16#8) →
       t.decOk = false ∧ KeepsAllBut [.decOk, .ill] s t)) ∧
    t.ill = false ∧ KeepsBuf s t

/-- R180 to R182, R175, R91: DEC_PARAM on a validated 13-byte read response of byte count 8 writes its four outputs (the low
byte of the address word, the shunt word raw) and DEC_OK = 1; otherwise DEC_OK = 0 and no output changes. -/
def Obligations.DecParamDecodesTheParameterPayload : Prop :=
  encode .decParam = 0x7#32 ∧
  ∀ s : State, ∃ t, exec .decParam s = .next t ∧
    (let w (k : Nat) : Half := s.byteAt 1 (3 + 2 * k) ++ s.byteAt 1 (4 + 2 * k)
     (s.valid = true ∧ s.blen.toNat = 13 ∧ s.byteAt 0 2 = 8#8 →
       t.phv = fx2f .single (w 0).toNat 1 ∧ t.plv = fx2f .single (w 1).toNat 1 ∧
       t.pAddr = (w 2).extractLsb' 0 8 ∧ t.pShunt = w 3 ∧ t.decOk = true ∧
       KeepsAllBut [.phv, .plv, .pAddr, .pShunt, .decOk, .ill] s t) ∧
     (¬ (s.valid = true ∧ s.blen.toNat = 13 ∧ s.byteAt 0 2 = 8#8) →
       t.decOk = false ∧ KeepsAllBut [.decOk, .ill] s t)) ∧
    t.ill = false ∧ KeepsBuf s t

/-- R175: in a state that meets the invariant and whose frame is written, a decoder that accepts a frame has a read response
before it: its function code is 0x03 or 0x04. -/
def Obligations.DecodersAcceptReadResponsesOnly : Prop :=
  ∀ (i : Instr) (s t : State), i = .decMeas ∨ i = .decParam → s.Inv → s.writtenTo s.blen.toNat = true →
    exec i s = .next t → t.decOk = true → s.byteAt 0 1 = 0x03#8 ∨ s.byteAt 0 1 = 0x04#8

/-- R252: after an accepted PARSE, any host write of a BUF byte and any accepted write of BLEN clear VALID, and both
decoders refuse. -/
def Obligations.DecodeNeedsAFreshFrame : Prop :=
  ∀ (s t u : State) (a : Access), exec .parse s = .next t → t.err = 0#3 →
    ((∃ i v, i < 260 ∧ a = .write (0x100 + i) 1 v) ∨ ∃ v, v % 512 ≤ 260 ∧ a = .write 0x01C 4 v) →
    perform a t = .next u →
    u.valid = false ∧
    (∃ v, exec .decMeas u = .next v ∧ v.decOk = false) ∧ ∃ v, exec .decParam u = .next v ∧ v.decOk = false

/-- R145, R176, R90 (the source's `updateValues()` exchange): from a received measurement frame of any eight words, with any
surplus behind it, PARSE and DEC_MEAS leave exactly the converted words in the six outputs, with CONN and DEC_OK set. -/
def Obligations.MeasurementExchange : Prop :=
  ∀ (s : State) (a fc : Byte) (w0 w1 w2 w3 w4 w5 w6 w7 : Half),
    let d := [a, fc, 16#8, hi8 w0, lo8 w0, hi8 w1, lo8 w1, hi8 w2, lo8 w2, hi8 w3, lo8 w3,
      hi8 w4, lo8 w4, hi8 w5, lo8 w5, hi8 w6, lo8 w6, hi8 w7, lo8 w7]
    (fc = 0x03#8 ∨ fc = 0x04#8) → (s.bcast = true ∨ s.addr = a) →
    HoldsBytes s 0 (d ++ [lo8 (crc16 d), hi8 (crc16 d)]) → 21 ≤ s.blen.toNat →
    ∃ t u, exec .parse s = .next t ∧ exec .decMeas t = .next u ∧ u.conn = true ∧ u.decOk = true ∧ u.rAddr = a ∧
      u.mv = fx2f .single w0.toNat 100 ∧ u.mi = fx2f .single w1.toNat 100 ∧
      u.mp = fx2f .single (w2.toNat * 65536 + w3.toNat) 10 ∧ u.me = fx2f .single (w4.toNat * 65536 + w5.toNat) 1 ∧
      (u.alh = true ↔ w6 ≠ 0#16) ∧ (u.all = true ↔ w7 ≠ 0#16)
end

