-- ==== Sys2Proof/Laws/Memory.lean ====
section
/-! SUPPORT. BUF as a list of written bytes: read after write, writes leave other bytes alone, and every operation keeps
the canonical form. -/

namespace Sys2Proof.Machine.Memory

@[simp] theorem get?_nil (i : Nat) : get? [] i = none := rfl

theorem get?_cons (a : Nat) (x : Byte) (m : Memory) (i : Nat) :
    get? ((a, x) :: m) i = if a = i then some x else get? m i := rfl

@[simp] theorem get?_set_self (m : Memory) (i : Nat) (b : Byte) : get? (set m i b) i = some b := by
  induction m with
  | nil => simp [set, get?]
  | cons c m ih =>
    obtain ⟨a, x⟩ := c
    unfold set
    split_ifs with h1 h2
    · simp [get?_cons]
    · simp [get?_cons]
    · simp [get?_cons, ih, Ne.symm h2]

theorem get?_set_ne (m : Memory) {i j : Nat} (b : Byte) (h : j ≠ i) : get? (set m i b) j = get? m j := by
  induction m with
  | nil => simp [set, get?, Ne.symm h]
  | cons c m ih =>
    obtain ⟨a, x⟩ := c
    unfold set
    split_ifs with h1 h2
    · simp [get?_cons, Ne.symm h]
    · subst h2; simp [get?_cons, Ne.symm h]
    · simp [get?_cons, ih]

theorem get?_set (m : Memory) (i j : Nat) (b : Byte) :
    get? (set m i b) j = if j = i then some b else get? m j := by
  split_ifs with h
  · subst h; simp
  · exact get?_set_ne m b h

theorem wfFrom_cons (lo a : Nat) (x : Byte) (m : Memory) :
    wfFrom lo ((a, x) :: m) = true ↔ lo ≤ a ∧ a < Config.bufCap ∧ wfFrom (a + 1) m = true := by
  simp [wfFrom, and_assoc]

theorem wfFrom_weaken {lo lo' : Nat} {m : Memory} (h : wfFrom lo m = true) (hle : lo' ≤ lo) :
    wfFrom lo' m = true := by
  cases m with
  | nil => rfl
  | cons c m =>
    rw [wfFrom_cons] at h ⊢
    exact ⟨hle.trans h.1, h.2⟩

theorem wfFrom_set {m : Memory} {lo i : Nat} (b : Byte) (h : wfFrom lo m = true) (hlo : lo ≤ i)
    (hi : i < Config.bufCap) : wfFrom lo (set m i b) = true := by
  induction m generalizing lo with
  | nil => exact (wfFrom_cons lo i b []).2 ⟨hlo, hi, rfl⟩
  | cons c m ih =>
    obtain ⟨a, x⟩ := c
    obtain ⟨h1, h2, h3⟩ := (wfFrom_cons lo a x m).1 h
    unfold set
    split_ifs with hlt heq
    · exact (wfFrom_cons _ _ _ _).2 ⟨hlo, hi, (wfFrom_cons _ _ _ _).2 ⟨hlt, h2, h3⟩⟩
    · subst heq
      exact (wfFrom_cons _ _ _ _).2 ⟨h1, h2, h3⟩
    · exact (wfFrom_cons _ _ _ _).2 ⟨h1, h2, ih h3 (by omega)⟩

/-- A write inside BUF keeps the canonical form. -/
theorem wf_set {m : Memory} {i : Nat} (b : Byte) (h : wf m = true) (hi : i < Config.bufCap) :
    wf (set m i b) = true :=
  wfFrom_set b h (Nat.zero_le i) hi

theorem wfFrom_bounds {m : Memory} {lo i : Nat} {b : Byte} (h : wfFrom lo m = true) (hg : get? m i = some b) :
    lo ≤ i ∧ i < Config.bufCap := by
  induction m generalizing lo with
  | nil => cases hg
  | cons c m ih =>
    obtain ⟨a, x⟩ := c
    obtain ⟨h1, h2, h3⟩ := (wfFrom_cons lo a x m).1 h
    rw [get?_cons] at hg
    split_ifs at hg with ha
    · omega
    · have := ih h3 hg; omega

/-- In the canonical form only indexes below BUF_CAP are listed. -/
theorem lt_of_get?_eq_some {m : Memory} {i : Nat} {b : Byte} (h : wf m = true) (hg : get? m i = some b) :
    i < Config.bufCap :=
  (wfFrom_bounds h hg).2

theorem get?_eq_none_of_lt {m : Memory} {lo i : Nat} (h : wfFrom lo m = true) (hi : i < lo) : get? m i = none := by
  cases hg : get? m i with
  | none => rfl
  | some b => have := (wfFrom_bounds h hg).1; omega

@[simp] theorem wf_nil : wf [] = true := rfl

end Sys2Proof.Machine.Memory
end

