-- ==== Sys2Proof/Laws/State.lean ====
section
/-! SUPPORT. One lemma per field per update of the state, true by definition, so that no later proof unfolds a record
update. -/

namespace Sys2Proof.Machine.State

/-! ## setByte -/

@[simp] theorem setByte_addr (s : State) (i : Nat) (b : Byte) : (s.setByte i b).addr = s.addr := rfl
@[simp] theorem setByte_bcast (s : State) (i : Nat) (b : Byte) : (s.setByte i b).bcast = s.bcast := rfl
@[simp] theorem setByte_fc (s : State) (i : Nat) (b : Byte) : (s.setByte i b).fc = s.fc := rfl
@[simp] theorem setByte_reg (s : State) (i : Nat) (b : Byte) : (s.setByte i b).reg = s.reg := rfl
@[simp] theorem setByte_val (s : State) (i : Nat) (b : Byte) : (s.setByte i b).val = s.val := rfl
@[simp] theorem setByte_buf (s : State) (i : Nat) (b : Byte) : (s.setByte i b).buf = Memory.set s.buf i b := rfl
@[simp] theorem setByte_blen (s : State) (i : Nat) (b : Byte) : (s.setByte i b).blen = s.blen := rfl
@[simp] theorem setByte_crc (s : State) (i : Nat) (b : Byte) : (s.setByte i b).crc = s.crc := rfl
@[simp] theorem setByte_expLen (s : State) (i : Nat) (b : Byte) : (s.setByte i b).expLen = s.expLen := rfl
@[simp] theorem setByte_rAddr (s : State) (i : Nat) (b : Byte) : (s.setByte i b).rAddr = s.rAddr := rfl
@[simp] theorem setByte_rFc (s : State) (i : Nat) (b : Byte) : (s.setByte i b).rFc = s.rFc := rfl
@[simp] theorem setByte_uAddr (s : State) (i : Nat) (b : Byte) : (s.setByte i b).uAddr = s.uAddr := rfl
@[simp] theorem setByte_uFc (s : State) (i : Nat) (b : Byte) : (s.setByte i b).uFc = s.uFc := rfl
@[simp] theorem setByte_uReg (s : State) (i : Nat) (b : Byte) : (s.setByte i b).uReg = s.uReg := rfl
@[simp] theorem setByte_uVal (s : State) (i : Nat) (b : Byte) : (s.setByte i b).uVal = s.uVal := rfl
@[simp] theorem setByte_err (s : State) (i : Nat) (b : Byte) : (s.setByte i b).err = s.err := rfl
@[simp] theorem setByte_vfy (s : State) (i : Nat) (b : Byte) : (s.setByte i b).vfy = s.vfy := rfl
@[simp] theorem setByte_valid (s : State) (i : Nat) (b : Byte) : (s.setByte i b).valid = s.valid := rfl
@[simp] theorem setByte_conn (s : State) (i : Nat) (b : Byte) : (s.setByte i b).conn = s.conn := rfl
@[simp] theorem setByte_decOk (s : State) (i : Nat) (b : Byte) : (s.setByte i b).decOk = s.decOk := rfl
@[simp] theorem setByte_ill (s : State) (i : Nat) (b : Byte) : (s.setByte i b).ill = s.ill := rfl
@[simp] theorem setByte_mv (s : State) (i : Nat) (b : Byte) : (s.setByte i b).mv = s.mv := rfl
@[simp] theorem setByte_mi (s : State) (i : Nat) (b : Byte) : (s.setByte i b).mi = s.mi := rfl
@[simp] theorem setByte_mp (s : State) (i : Nat) (b : Byte) : (s.setByte i b).mp = s.mp := rfl
@[simp] theorem setByte_me (s : State) (i : Nat) (b : Byte) : (s.setByte i b).me = s.me := rfl
@[simp] theorem setByte_alh (s : State) (i : Nat) (b : Byte) : (s.setByte i b).alh = s.alh := rfl
@[simp] theorem setByte_all (s : State) (i : Nat) (b : Byte) : (s.setByte i b).all = s.all := rfl
@[simp] theorem setByte_phv (s : State) (i : Nat) (b : Byte) : (s.setByte i b).phv = s.phv := rfl
@[simp] theorem setByte_plv (s : State) (i : Nat) (b : Byte) : (s.setByte i b).plv = s.plv := rfl
@[simp] theorem setByte_pAddr (s : State) (i : Nat) (b : Byte) : (s.setByte i b).pAddr = s.pAddr := rfl
@[simp] theorem setByte_pShunt (s : State) (i : Nat) (b : Byte) : (s.setByte i b).pShunt = s.pShunt := rfl
@[simp] theorem setByte_pending (s : State) (i : Nat) (b : Byte) : (s.setByte i b).pending = s.pending := rfl
@[simp] theorem setByte_reads (s : State) (i : Nat) (b : Byte) : (s.setByte i b).reads = s.reads := rfl
@[simp] theorem setByte_draws (s : State) (i : Nat) (b : Byte) : (s.setByte i b).draws = s.draws := rfl

/-! ## drew -/

@[simp] theorem drew_addr (s : State) (n : Nat) : (s.drew n).addr = s.addr := rfl
@[simp] theorem drew_bcast (s : State) (n : Nat) : (s.drew n).bcast = s.bcast := rfl
@[simp] theorem drew_fc (s : State) (n : Nat) : (s.drew n).fc = s.fc := rfl
@[simp] theorem drew_reg (s : State) (n : Nat) : (s.drew n).reg = s.reg := rfl
@[simp] theorem drew_val (s : State) (n : Nat) : (s.drew n).val = s.val := rfl
@[simp] theorem drew_buf (s : State) (n : Nat) : (s.drew n).buf = s.buf := rfl
@[simp] theorem drew_blen (s : State) (n : Nat) : (s.drew n).blen = s.blen := rfl
@[simp] theorem drew_crc (s : State) (n : Nat) : (s.drew n).crc = s.crc := rfl
@[simp] theorem drew_expLen (s : State) (n : Nat) : (s.drew n).expLen = s.expLen := rfl
@[simp] theorem drew_rAddr (s : State) (n : Nat) : (s.drew n).rAddr = s.rAddr := rfl
@[simp] theorem drew_rFc (s : State) (n : Nat) : (s.drew n).rFc = s.rFc := rfl
@[simp] theorem drew_uAddr (s : State) (n : Nat) : (s.drew n).uAddr = s.uAddr := rfl
@[simp] theorem drew_uFc (s : State) (n : Nat) : (s.drew n).uFc = s.uFc := rfl
@[simp] theorem drew_uReg (s : State) (n : Nat) : (s.drew n).uReg = s.uReg := rfl
@[simp] theorem drew_uVal (s : State) (n : Nat) : (s.drew n).uVal = s.uVal := rfl
@[simp] theorem drew_err (s : State) (n : Nat) : (s.drew n).err = s.err := rfl
@[simp] theorem drew_vfy (s : State) (n : Nat) : (s.drew n).vfy = s.vfy := rfl
@[simp] theorem drew_valid (s : State) (n : Nat) : (s.drew n).valid = s.valid := rfl
@[simp] theorem drew_conn (s : State) (n : Nat) : (s.drew n).conn = s.conn := rfl
@[simp] theorem drew_decOk (s : State) (n : Nat) : (s.drew n).decOk = s.decOk := rfl
@[simp] theorem drew_ill (s : State) (n : Nat) : (s.drew n).ill = s.ill := rfl
@[simp] theorem drew_mv (s : State) (n : Nat) : (s.drew n).mv = s.mv := rfl
@[simp] theorem drew_mi (s : State) (n : Nat) : (s.drew n).mi = s.mi := rfl
@[simp] theorem drew_mp (s : State) (n : Nat) : (s.drew n).mp = s.mp := rfl
@[simp] theorem drew_me (s : State) (n : Nat) : (s.drew n).me = s.me := rfl
@[simp] theorem drew_alh (s : State) (n : Nat) : (s.drew n).alh = s.alh := rfl
@[simp] theorem drew_all (s : State) (n : Nat) : (s.drew n).all = s.all := rfl
@[simp] theorem drew_phv (s : State) (n : Nat) : (s.drew n).phv = s.phv := rfl
@[simp] theorem drew_plv (s : State) (n : Nat) : (s.drew n).plv = s.plv := rfl
@[simp] theorem drew_pAddr (s : State) (n : Nat) : (s.drew n).pAddr = s.pAddr := rfl
@[simp] theorem drew_pShunt (s : State) (n : Nat) : (s.drew n).pShunt = s.pShunt := rfl
@[simp] theorem drew_pending (s : State) (n : Nat) : (s.drew n).pending = s.pending := rfl
@[simp] theorem drew_reads (s : State) (n : Nat) : (s.drew n).reads = s.reads := rfl
@[simp] theorem drew_draws (s : State) (n : Nat) : (s.drew n).draws = s.draws + n := rfl

/-! ## setBlen -/

@[simp] theorem setBlen_addr (s : State) (n : Nat) : (s.setBlen n).addr = s.addr := rfl
@[simp] theorem setBlen_bcast (s : State) (n : Nat) : (s.setBlen n).bcast = s.bcast := rfl
@[simp] theorem setBlen_fc (s : State) (n : Nat) : (s.setBlen n).fc = s.fc := rfl
@[simp] theorem setBlen_reg (s : State) (n : Nat) : (s.setBlen n).reg = s.reg := rfl
@[simp] theorem setBlen_val (s : State) (n : Nat) : (s.setBlen n).val = s.val := rfl
@[simp] theorem setBlen_buf (s : State) (n : Nat) : (s.setBlen n).buf = s.buf := rfl
@[simp] theorem setBlen_blen (s : State) (n : Nat) : (s.setBlen n).blen = BitVec.ofNat 9 n := rfl
@[simp] theorem setBlen_crc (s : State) (n : Nat) : (s.setBlen n).crc = s.crc := rfl
@[simp] theorem setBlen_expLen (s : State) (n : Nat) : (s.setBlen n).expLen = s.expLen := rfl
@[simp] theorem setBlen_rAddr (s : State) (n : Nat) : (s.setBlen n).rAddr = s.rAddr := rfl
@[simp] theorem setBlen_rFc (s : State) (n : Nat) : (s.setBlen n).rFc = s.rFc := rfl
@[simp] theorem setBlen_uAddr (s : State) (n : Nat) : (s.setBlen n).uAddr = s.uAddr := rfl
@[simp] theorem setBlen_uFc (s : State) (n : Nat) : (s.setBlen n).uFc = s.uFc := rfl
@[simp] theorem setBlen_uReg (s : State) (n : Nat) : (s.setBlen n).uReg = s.uReg := rfl
@[simp] theorem setBlen_uVal (s : State) (n : Nat) : (s.setBlen n).uVal = s.uVal := rfl
@[simp] theorem setBlen_err (s : State) (n : Nat) : (s.setBlen n).err = s.err := rfl
@[simp] theorem setBlen_vfy (s : State) (n : Nat) : (s.setBlen n).vfy = s.vfy := rfl
@[simp] theorem setBlen_valid (s : State) (n : Nat) : (s.setBlen n).valid = s.valid := rfl
@[simp] theorem setBlen_conn (s : State) (n : Nat) : (s.setBlen n).conn = s.conn := rfl
@[simp] theorem setBlen_decOk (s : State) (n : Nat) : (s.setBlen n).decOk = s.decOk := rfl
@[simp] theorem setBlen_ill (s : State) (n : Nat) : (s.setBlen n).ill = s.ill := rfl
@[simp] theorem setBlen_mv (s : State) (n : Nat) : (s.setBlen n).mv = s.mv := rfl
@[simp] theorem setBlen_mi (s : State) (n : Nat) : (s.setBlen n).mi = s.mi := rfl
@[simp] theorem setBlen_mp (s : State) (n : Nat) : (s.setBlen n).mp = s.mp := rfl
@[simp] theorem setBlen_me (s : State) (n : Nat) : (s.setBlen n).me = s.me := rfl
@[simp] theorem setBlen_alh (s : State) (n : Nat) : (s.setBlen n).alh = s.alh := rfl
@[simp] theorem setBlen_all (s : State) (n : Nat) : (s.setBlen n).all = s.all := rfl
@[simp] theorem setBlen_phv (s : State) (n : Nat) : (s.setBlen n).phv = s.phv := rfl
@[simp] theorem setBlen_plv (s : State) (n : Nat) : (s.setBlen n).plv = s.plv := rfl
@[simp] theorem setBlen_pAddr (s : State) (n : Nat) : (s.setBlen n).pAddr = s.pAddr := rfl
@[simp] theorem setBlen_pShunt (s : State) (n : Nat) : (s.setBlen n).pShunt = s.pShunt := rfl
@[simp] theorem setBlen_pending (s : State) (n : Nat) : (s.setBlen n).pending = s.pending := rfl
@[simp] theorem setBlen_reads (s : State) (n : Nat) : (s.setBlen n).reads = s.reads := rfl
@[simp] theorem setBlen_draws (s : State) (n : Nat) : (s.setBlen n).draws = s.draws := rfl

/-! ## setCrc -/

@[simp] theorem setCrc_addr (s : State) (c : Half) : (s.setCrc c).addr = s.addr := rfl
@[simp] theorem setCrc_bcast (s : State) (c : Half) : (s.setCrc c).bcast = s.bcast := rfl
@[simp] theorem setCrc_fc (s : State) (c : Half) : (s.setCrc c).fc = s.fc := rfl
@[simp] theorem setCrc_reg (s : State) (c : Half) : (s.setCrc c).reg = s.reg := rfl
@[simp] theorem setCrc_val (s : State) (c : Half) : (s.setCrc c).val = s.val := rfl
@[simp] theorem setCrc_buf (s : State) (c : Half) : (s.setCrc c).buf = s.buf := rfl
@[simp] theorem setCrc_blen (s : State) (c : Half) : (s.setCrc c).blen = s.blen := rfl
@[simp] theorem setCrc_crc (s : State) (c : Half) : (s.setCrc c).crc = c := rfl
@[simp] theorem setCrc_expLen (s : State) (c : Half) : (s.setCrc c).expLen = s.expLen := rfl
@[simp] theorem setCrc_rAddr (s : State) (c : Half) : (s.setCrc c).rAddr = s.rAddr := rfl
@[simp] theorem setCrc_rFc (s : State) (c : Half) : (s.setCrc c).rFc = s.rFc := rfl
@[simp] theorem setCrc_uAddr (s : State) (c : Half) : (s.setCrc c).uAddr = s.uAddr := rfl
@[simp] theorem setCrc_uFc (s : State) (c : Half) : (s.setCrc c).uFc = s.uFc := rfl
@[simp] theorem setCrc_uReg (s : State) (c : Half) : (s.setCrc c).uReg = s.uReg := rfl
@[simp] theorem setCrc_uVal (s : State) (c : Half) : (s.setCrc c).uVal = s.uVal := rfl
@[simp] theorem setCrc_err (s : State) (c : Half) : (s.setCrc c).err = s.err := rfl
@[simp] theorem setCrc_vfy (s : State) (c : Half) : (s.setCrc c).vfy = s.vfy := rfl
@[simp] theorem setCrc_valid (s : State) (c : Half) : (s.setCrc c).valid = s.valid := rfl
@[simp] theorem setCrc_conn (s : State) (c : Half) : (s.setCrc c).conn = s.conn := rfl
@[simp] theorem setCrc_decOk (s : State) (c : Half) : (s.setCrc c).decOk = s.decOk := rfl
@[simp] theorem setCrc_ill (s : State) (c : Half) : (s.setCrc c).ill = s.ill := rfl
@[simp] theorem setCrc_mv (s : State) (c : Half) : (s.setCrc c).mv = s.mv := rfl
@[simp] theorem setCrc_mi (s : State) (c : Half) : (s.setCrc c).mi = s.mi := rfl
@[simp] theorem setCrc_mp (s : State) (c : Half) : (s.setCrc c).mp = s.mp := rfl
@[simp] theorem setCrc_me (s : State) (c : Half) : (s.setCrc c).me = s.me := rfl
@[simp] theorem setCrc_alh (s : State) (c : Half) : (s.setCrc c).alh = s.alh := rfl
@[simp] theorem setCrc_all (s : State) (c : Half) : (s.setCrc c).all = s.all := rfl
@[simp] theorem setCrc_phv (s : State) (c : Half) : (s.setCrc c).phv = s.phv := rfl
@[simp] theorem setCrc_plv (s : State) (c : Half) : (s.setCrc c).plv = s.plv := rfl
@[simp] theorem setCrc_pAddr (s : State) (c : Half) : (s.setCrc c).pAddr = s.pAddr := rfl
@[simp] theorem setCrc_pShunt (s : State) (c : Half) : (s.setCrc c).pShunt = s.pShunt := rfl
@[simp] theorem setCrc_pending (s : State) (c : Half) : (s.setCrc c).pending = s.pending := rfl
@[simp] theorem setCrc_reads (s : State) (c : Half) : (s.setCrc c).reads = s.reads := rfl
@[simp] theorem setCrc_draws (s : State) (c : Half) : (s.setCrc c).draws = s.draws := rfl

/-! ## setExpLen -/

@[simp] theorem setExpLen_addr (s : State) (n : Nat) : (s.setExpLen n).addr = s.addr := rfl
@[simp] theorem setExpLen_bcast (s : State) (n : Nat) : (s.setExpLen n).bcast = s.bcast := rfl
@[simp] theorem setExpLen_fc (s : State) (n : Nat) : (s.setExpLen n).fc = s.fc := rfl
@[simp] theorem setExpLen_reg (s : State) (n : Nat) : (s.setExpLen n).reg = s.reg := rfl
@[simp] theorem setExpLen_val (s : State) (n : Nat) : (s.setExpLen n).val = s.val := rfl
@[simp] theorem setExpLen_buf (s : State) (n : Nat) : (s.setExpLen n).buf = s.buf := rfl
@[simp] theorem setExpLen_blen (s : State) (n : Nat) : (s.setExpLen n).blen = s.blen := rfl
@[simp] theorem setExpLen_crc (s : State) (n : Nat) : (s.setExpLen n).crc = s.crc := rfl
@[simp] theorem setExpLen_expLen (s : State) (n : Nat) : (s.setExpLen n).expLen = BitVec.ofNat 9 n := rfl
@[simp] theorem setExpLen_rAddr (s : State) (n : Nat) : (s.setExpLen n).rAddr = s.rAddr := rfl
@[simp] theorem setExpLen_rFc (s : State) (n : Nat) : (s.setExpLen n).rFc = s.rFc := rfl
@[simp] theorem setExpLen_uAddr (s : State) (n : Nat) : (s.setExpLen n).uAddr = s.uAddr := rfl
@[simp] theorem setExpLen_uFc (s : State) (n : Nat) : (s.setExpLen n).uFc = s.uFc := rfl
@[simp] theorem setExpLen_uReg (s : State) (n : Nat) : (s.setExpLen n).uReg = s.uReg := rfl
@[simp] theorem setExpLen_uVal (s : State) (n : Nat) : (s.setExpLen n).uVal = s.uVal := rfl
@[simp] theorem setExpLen_err (s : State) (n : Nat) : (s.setExpLen n).err = s.err := rfl
@[simp] theorem setExpLen_vfy (s : State) (n : Nat) : (s.setExpLen n).vfy = s.vfy := rfl
@[simp] theorem setExpLen_valid (s : State) (n : Nat) : (s.setExpLen n).valid = s.valid := rfl
@[simp] theorem setExpLen_conn (s : State) (n : Nat) : (s.setExpLen n).conn = s.conn := rfl
@[simp] theorem setExpLen_decOk (s : State) (n : Nat) : (s.setExpLen n).decOk = s.decOk := rfl
@[simp] theorem setExpLen_ill (s : State) (n : Nat) : (s.setExpLen n).ill = s.ill := rfl
@[simp] theorem setExpLen_mv (s : State) (n : Nat) : (s.setExpLen n).mv = s.mv := rfl
@[simp] theorem setExpLen_mi (s : State) (n : Nat) : (s.setExpLen n).mi = s.mi := rfl
@[simp] theorem setExpLen_mp (s : State) (n : Nat) : (s.setExpLen n).mp = s.mp := rfl
@[simp] theorem setExpLen_me (s : State) (n : Nat) : (s.setExpLen n).me = s.me := rfl
@[simp] theorem setExpLen_alh (s : State) (n : Nat) : (s.setExpLen n).alh = s.alh := rfl
@[simp] theorem setExpLen_all (s : State) (n : Nat) : (s.setExpLen n).all = s.all := rfl
@[simp] theorem setExpLen_phv (s : State) (n : Nat) : (s.setExpLen n).phv = s.phv := rfl
@[simp] theorem setExpLen_plv (s : State) (n : Nat) : (s.setExpLen n).plv = s.plv := rfl
@[simp] theorem setExpLen_pAddr (s : State) (n : Nat) : (s.setExpLen n).pAddr = s.pAddr := rfl
@[simp] theorem setExpLen_pShunt (s : State) (n : Nat) : (s.setExpLen n).pShunt = s.pShunt := rfl
@[simp] theorem setExpLen_pending (s : State) (n : Nat) : (s.setExpLen n).pending = s.pending := rfl
@[simp] theorem setExpLen_reads (s : State) (n : Nat) : (s.setExpLen n).reads = s.reads := rfl
@[simp] theorem setExpLen_draws (s : State) (n : Nat) : (s.setExpLen n).draws = s.draws := rfl

/-! ## setResponse -/

@[simp] theorem setResponse_addr (s : State) (a f : Byte) : (s.setResponse a f).addr = s.addr := rfl
@[simp] theorem setResponse_bcast (s : State) (a f : Byte) : (s.setResponse a f).bcast = s.bcast := rfl
@[simp] theorem setResponse_fc (s : State) (a f : Byte) : (s.setResponse a f).fc = s.fc := rfl
@[simp] theorem setResponse_reg (s : State) (a f : Byte) : (s.setResponse a f).reg = s.reg := rfl
@[simp] theorem setResponse_val (s : State) (a f : Byte) : (s.setResponse a f).val = s.val := rfl
@[simp] theorem setResponse_buf (s : State) (a f : Byte) : (s.setResponse a f).buf = s.buf := rfl
@[simp] theorem setResponse_blen (s : State) (a f : Byte) : (s.setResponse a f).blen = s.blen := rfl
@[simp] theorem setResponse_crc (s : State) (a f : Byte) : (s.setResponse a f).crc = s.crc := rfl
@[simp] theorem setResponse_expLen (s : State) (a f : Byte) : (s.setResponse a f).expLen = s.expLen := rfl
@[simp] theorem setResponse_rAddr (s : State) (a f : Byte) : (s.setResponse a f).rAddr = a := rfl
@[simp] theorem setResponse_rFc (s : State) (a f : Byte) : (s.setResponse a f).rFc = f := rfl
@[simp] theorem setResponse_uAddr (s : State) (a f : Byte) : (s.setResponse a f).uAddr = s.uAddr := rfl
@[simp] theorem setResponse_uFc (s : State) (a f : Byte) : (s.setResponse a f).uFc = s.uFc := rfl
@[simp] theorem setResponse_uReg (s : State) (a f : Byte) : (s.setResponse a f).uReg = s.uReg := rfl
@[simp] theorem setResponse_uVal (s : State) (a f : Byte) : (s.setResponse a f).uVal = s.uVal := rfl
@[simp] theorem setResponse_err (s : State) (a f : Byte) : (s.setResponse a f).err = s.err := rfl
@[simp] theorem setResponse_vfy (s : State) (a f : Byte) : (s.setResponse a f).vfy = s.vfy := rfl
@[simp] theorem setResponse_valid (s : State) (a f : Byte) : (s.setResponse a f).valid = s.valid := rfl
@[simp] theorem setResponse_conn (s : State) (a f : Byte) : (s.setResponse a f).conn = s.conn := rfl
@[simp] theorem setResponse_decOk (s : State) (a f : Byte) : (s.setResponse a f).decOk = s.decOk := rfl
@[simp] theorem setResponse_ill (s : State) (a f : Byte) : (s.setResponse a f).ill = s.ill := rfl
@[simp] theorem setResponse_mv (s : State) (a f : Byte) : (s.setResponse a f).mv = s.mv := rfl
@[simp] theorem setResponse_mi (s : State) (a f : Byte) : (s.setResponse a f).mi = s.mi := rfl
@[simp] theorem setResponse_mp (s : State) (a f : Byte) : (s.setResponse a f).mp = s.mp := rfl
@[simp] theorem setResponse_me (s : State) (a f : Byte) : (s.setResponse a f).me = s.me := rfl
@[simp] theorem setResponse_alh (s : State) (a f : Byte) : (s.setResponse a f).alh = s.alh := rfl
@[simp] theorem setResponse_all (s : State) (a f : Byte) : (s.setResponse a f).all = s.all := rfl
@[simp] theorem setResponse_phv (s : State) (a f : Byte) : (s.setResponse a f).phv = s.phv := rfl
@[simp] theorem setResponse_plv (s : State) (a f : Byte) : (s.setResponse a f).plv = s.plv := rfl
@[simp] theorem setResponse_pAddr (s : State) (a f : Byte) : (s.setResponse a f).pAddr = s.pAddr := rfl
@[simp] theorem setResponse_pShunt (s : State) (a f : Byte) : (s.setResponse a f).pShunt = s.pShunt := rfl
@[simp] theorem setResponse_pending (s : State) (a f : Byte) : (s.setResponse a f).pending = s.pending := rfl
@[simp] theorem setResponse_reads (s : State) (a f : Byte) : (s.setResponse a f).reads = s.reads := rfl
@[simp] theorem setResponse_draws (s : State) (a f : Byte) : (s.setResponse a f).draws = s.draws := rfl

/-! ## setUnpacked -/

@[simp] theorem setUnpacked_addr (s : State) (a f : Byte) (r v : Half) : (s.setUnpacked a f r v).addr = s.addr := rfl
@[simp] theorem setUnpacked_bcast (s : State) (a f : Byte) (r v : Half) : (s.setUnpacked a f r v).bcast = s.bcast := rfl
@[simp] theorem setUnpacked_fc (s : State) (a f : Byte) (r v : Half) : (s.setUnpacked a f r v).fc = s.fc := rfl
@[simp] theorem setUnpacked_reg (s : State) (a f : Byte) (r v : Half) : (s.setUnpacked a f r v).reg = s.reg := rfl
@[simp] theorem setUnpacked_val (s : State) (a f : Byte) (r v : Half) : (s.setUnpacked a f r v).val = s.val := rfl
@[simp] theorem setUnpacked_buf (s : State) (a f : Byte) (r v : Half) : (s.setUnpacked a f r v).buf = s.buf := rfl
@[simp] theorem setUnpacked_blen (s : State) (a f : Byte) (r v : Half) : (s.setUnpacked a f r v).blen = s.blen := rfl
@[simp] theorem setUnpacked_crc (s : State) (a f : Byte) (r v : Half) : (s.setUnpacked a f r v).crc = s.crc := rfl
@[simp] theorem setUnpacked_expLen (s : State) (a f : Byte) (r v : Half) : (s.setUnpacked a f r v).expLen = s.expLen := rfl
@[simp] theorem setUnpacked_rAddr (s : State) (a f : Byte) (r v : Half) : (s.setUnpacked a f r v).rAddr = s.rAddr := rfl
@[simp] theorem setUnpacked_rFc (s : State) (a f : Byte) (r v : Half) : (s.setUnpacked a f r v).rFc = s.rFc := rfl
@[simp] theorem setUnpacked_uAddr (s : State) (a f : Byte) (r v : Half) : (s.setUnpacked a f r v).uAddr = a := rfl
@[simp] theorem setUnpacked_uFc (s : State) (a f : Byte) (r v : Half) : (s.setUnpacked a f r v).uFc = f := rfl
@[simp] theorem setUnpacked_uReg (s : State) (a f : Byte) (r v : Half) : (s.setUnpacked a f r v).uReg = r := rfl
@[simp] theorem setUnpacked_uVal (s : State) (a f : Byte) (r v : Half) : (s.setUnpacked a f r v).uVal = v := rfl
@[simp] theorem setUnpacked_err (s : State) (a f : Byte) (r v : Half) : (s.setUnpacked a f r v).err = s.err := rfl
@[simp] theorem setUnpacked_vfy (s : State) (a f : Byte) (r v : Half) : (s.setUnpacked a f r v).vfy = s.vfy := rfl
@[simp] theorem setUnpacked_valid (s : State) (a f : Byte) (r v : Half) : (s.setUnpacked a f r v).valid = s.valid := rfl
@[simp] theorem setUnpacked_conn (s : State) (a f : Byte) (r v : Half) : (s.setUnpacked a f r v).conn = s.conn := rfl
@[simp] theorem setUnpacked_decOk (s : State) (a f : Byte) (r v : Half) : (s.setUnpacked a f r v).decOk = s.decOk := rfl
@[simp] theorem setUnpacked_ill (s : State) (a f : Byte) (r v : Half) : (s.setUnpacked a f r v).ill = s.ill := rfl
@[simp] theorem setUnpacked_mv (s : State) (a f : Byte) (r v : Half) : (s.setUnpacked a f r v).mv = s.mv := rfl
@[simp] theorem setUnpacked_mi (s : State) (a f : Byte) (r v : Half) : (s.setUnpacked a f r v).mi = s.mi := rfl
@[simp] theorem setUnpacked_mp (s : State) (a f : Byte) (r v : Half) : (s.setUnpacked a f r v).mp = s.mp := rfl
@[simp] theorem setUnpacked_me (s : State) (a f : Byte) (r v : Half) : (s.setUnpacked a f r v).me = s.me := rfl
@[simp] theorem setUnpacked_alh (s : State) (a f : Byte) (r v : Half) : (s.setUnpacked a f r v).alh = s.alh := rfl
@[simp] theorem setUnpacked_all (s : State) (a f : Byte) (r v : Half) : (s.setUnpacked a f r v).all = s.all := rfl
@[simp] theorem setUnpacked_phv (s : State) (a f : Byte) (r v : Half) : (s.setUnpacked a f r v).phv = s.phv := rfl
@[simp] theorem setUnpacked_plv (s : State) (a f : Byte) (r v : Half) : (s.setUnpacked a f r v).plv = s.plv := rfl
@[simp] theorem setUnpacked_pAddr (s : State) (a f : Byte) (r v : Half) : (s.setUnpacked a f r v).pAddr = s.pAddr := rfl
@[simp] theorem setUnpacked_pShunt (s : State) (a f : Byte) (r v : Half) : (s.setUnpacked a f r v).pShunt = s.pShunt := rfl
@[simp] theorem setUnpacked_pending (s : State) (a f : Byte) (r v : Half) : (s.setUnpacked a f r v).pending = s.pending := rfl
@[simp] theorem setUnpacked_reads (s : State) (a f : Byte) (r v : Half) : (s.setUnpacked a f r v).reads = s.reads := rfl
@[simp] theorem setUnpacked_draws (s : State) (a f : Byte) (r v : Half) : (s.setUnpacked a f r v).draws = s.draws := rfl

/-! ## setMeas -/

@[simp] theorem setMeas_addr (s : State) (v i p e : Word) (hi lo : Bool) : (s.setMeas v i p e hi lo).addr = s.addr := rfl
@[simp] theorem setMeas_bcast (s : State) (v i p e : Word) (hi lo : Bool) : (s.setMeas v i p e hi lo).bcast = s.bcast := rfl
@[simp] theorem setMeas_fc (s : State) (v i p e : Word) (hi lo : Bool) : (s.setMeas v i p e hi lo).fc = s.fc := rfl
@[simp] theorem setMeas_reg (s : State) (v i p e : Word) (hi lo : Bool) : (s.setMeas v i p e hi lo).reg = s.reg := rfl
@[simp] theorem setMeas_val (s : State) (v i p e : Word) (hi lo : Bool) : (s.setMeas v i p e hi lo).val = s.val := rfl
@[simp] theorem setMeas_buf (s : State) (v i p e : Word) (hi lo : Bool) : (s.setMeas v i p e hi lo).buf = s.buf := rfl
@[simp] theorem setMeas_blen (s : State) (v i p e : Word) (hi lo : Bool) : (s.setMeas v i p e hi lo).blen = s.blen := rfl
@[simp] theorem setMeas_crc (s : State) (v i p e : Word) (hi lo : Bool) : (s.setMeas v i p e hi lo).crc = s.crc := rfl
@[simp] theorem setMeas_expLen (s : State) (v i p e : Word) (hi lo : Bool) : (s.setMeas v i p e hi lo).expLen = s.expLen := rfl
@[simp] theorem setMeas_rAddr (s : State) (v i p e : Word) (hi lo : Bool) : (s.setMeas v i p e hi lo).rAddr = s.rAddr := rfl
@[simp] theorem setMeas_rFc (s : State) (v i p e : Word) (hi lo : Bool) : (s.setMeas v i p e hi lo).rFc = s.rFc := rfl
@[simp] theorem setMeas_uAddr (s : State) (v i p e : Word) (hi lo : Bool) : (s.setMeas v i p e hi lo).uAddr = s.uAddr := rfl
@[simp] theorem setMeas_uFc (s : State) (v i p e : Word) (hi lo : Bool) : (s.setMeas v i p e hi lo).uFc = s.uFc := rfl
@[simp] theorem setMeas_uReg (s : State) (v i p e : Word) (hi lo : Bool) : (s.setMeas v i p e hi lo).uReg = s.uReg := rfl
@[simp] theorem setMeas_uVal (s : State) (v i p e : Word) (hi lo : Bool) : (s.setMeas v i p e hi lo).uVal = s.uVal := rfl
@[simp] theorem setMeas_err (s : State) (v i p e : Word) (hi lo : Bool) : (s.setMeas v i p e hi lo).err = s.err := rfl
@[simp] theorem setMeas_vfy (s : State) (v i p e : Word) (hi lo : Bool) : (s.setMeas v i p e hi lo).vfy = s.vfy := rfl
@[simp] theorem setMeas_valid (s : State) (v i p e : Word) (hi lo : Bool) : (s.setMeas v i p e hi lo).valid = s.valid := rfl
@[simp] theorem setMeas_conn (s : State) (v i p e : Word) (hi lo : Bool) : (s.setMeas v i p e hi lo).conn = s.conn := rfl
@[simp] theorem setMeas_decOk (s : State) (v i p e : Word) (hi lo : Bool) : (s.setMeas v i p e hi lo).decOk = s.decOk := rfl
@[simp] theorem setMeas_ill (s : State) (v i p e : Word) (hi lo : Bool) : (s.setMeas v i p e hi lo).ill = s.ill := rfl
@[simp] theorem setMeas_mv (s : State) (v i p e : Word) (hi lo : Bool) : (s.setMeas v i p e hi lo).mv = v := rfl
@[simp] theorem setMeas_mi (s : State) (v i p e : Word) (hi lo : Bool) : (s.setMeas v i p e hi lo).mi = i := rfl
@[simp] theorem setMeas_mp (s : State) (v i p e : Word) (hi lo : Bool) : (s.setMeas v i p e hi lo).mp = p := rfl
@[simp] theorem setMeas_me (s : State) (v i p e : Word) (hi lo : Bool) : (s.setMeas v i p e hi lo).me = e := rfl
@[simp] theorem setMeas_alh (s : State) (v i p e : Word) (hi lo : Bool) : (s.setMeas v i p e hi lo).alh = hi := rfl
@[simp] theorem setMeas_all (s : State) (v i p e : Word) (hi lo : Bool) : (s.setMeas v i p e hi lo).all = lo := rfl
@[simp] theorem setMeas_phv (s : State) (v i p e : Word) (hi lo : Bool) : (s.setMeas v i p e hi lo).phv = s.phv := rfl
@[simp] theorem setMeas_plv (s : State) (v i p e : Word) (hi lo : Bool) : (s.setMeas v i p e hi lo).plv = s.plv := rfl
@[simp] theorem setMeas_pAddr (s : State) (v i p e : Word) (hi lo : Bool) : (s.setMeas v i p e hi lo).pAddr = s.pAddr := rfl
@[simp] theorem setMeas_pShunt (s : State) (v i p e : Word) (hi lo : Bool) : (s.setMeas v i p e hi lo).pShunt = s.pShunt := rfl
@[simp] theorem setMeas_pending (s : State) (v i p e : Word) (hi lo : Bool) : (s.setMeas v i p e hi lo).pending = s.pending := rfl
@[simp] theorem setMeas_reads (s : State) (v i p e : Word) (hi lo : Bool) : (s.setMeas v i p e hi lo).reads = s.reads := rfl
@[simp] theorem setMeas_draws (s : State) (v i p e : Word) (hi lo : Bool) : (s.setMeas v i p e hi lo).draws = s.draws := rfl

/-! ## setParam -/

@[simp] theorem setParam_addr (s : State) (hv lv : Word) (a : Byte) (sh : Half) : (s.setParam hv lv a sh).addr = s.addr := rfl
@[simp] theorem setParam_bcast (s : State) (hv lv : Word) (a : Byte) (sh : Half) : (s.setParam hv lv a sh).bcast = s.bcast := rfl
@[simp] theorem setParam_fc (s : State) (hv lv : Word) (a : Byte) (sh : Half) : (s.setParam hv lv a sh).fc = s.fc := rfl
@[simp] theorem setParam_reg (s : State) (hv lv : Word) (a : Byte) (sh : Half) : (s.setParam hv lv a sh).reg = s.reg := rfl
@[simp] theorem setParam_val (s : State) (hv lv : Word) (a : Byte) (sh : Half) : (s.setParam hv lv a sh).val = s.val := rfl
@[simp] theorem setParam_buf (s : State) (hv lv : Word) (a : Byte) (sh : Half) : (s.setParam hv lv a sh).buf = s.buf := rfl
@[simp] theorem setParam_blen (s : State) (hv lv : Word) (a : Byte) (sh : Half) : (s.setParam hv lv a sh).blen = s.blen := rfl
@[simp] theorem setParam_crc (s : State) (hv lv : Word) (a : Byte) (sh : Half) : (s.setParam hv lv a sh).crc = s.crc := rfl
@[simp] theorem setParam_expLen (s : State) (hv lv : Word) (a : Byte) (sh : Half) : (s.setParam hv lv a sh).expLen = s.expLen := rfl
@[simp] theorem setParam_rAddr (s : State) (hv lv : Word) (a : Byte) (sh : Half) : (s.setParam hv lv a sh).rAddr = s.rAddr := rfl
@[simp] theorem setParam_rFc (s : State) (hv lv : Word) (a : Byte) (sh : Half) : (s.setParam hv lv a sh).rFc = s.rFc := rfl
@[simp] theorem setParam_uAddr (s : State) (hv lv : Word) (a : Byte) (sh : Half) : (s.setParam hv lv a sh).uAddr = s.uAddr := rfl
@[simp] theorem setParam_uFc (s : State) (hv lv : Word) (a : Byte) (sh : Half) : (s.setParam hv lv a sh).uFc = s.uFc := rfl
@[simp] theorem setParam_uReg (s : State) (hv lv : Word) (a : Byte) (sh : Half) : (s.setParam hv lv a sh).uReg = s.uReg := rfl
@[simp] theorem setParam_uVal (s : State) (hv lv : Word) (a : Byte) (sh : Half) : (s.setParam hv lv a sh).uVal = s.uVal := rfl
@[simp] theorem setParam_err (s : State) (hv lv : Word) (a : Byte) (sh : Half) : (s.setParam hv lv a sh).err = s.err := rfl
@[simp] theorem setParam_vfy (s : State) (hv lv : Word) (a : Byte) (sh : Half) : (s.setParam hv lv a sh).vfy = s.vfy := rfl
@[simp] theorem setParam_valid (s : State) (hv lv : Word) (a : Byte) (sh : Half) : (s.setParam hv lv a sh).valid = s.valid := rfl
@[simp] theorem setParam_conn (s : State) (hv lv : Word) (a : Byte) (sh : Half) : (s.setParam hv lv a sh).conn = s.conn := rfl
@[simp] theorem setParam_decOk (s : State) (hv lv : Word) (a : Byte) (sh : Half) : (s.setParam hv lv a sh).decOk = s.decOk := rfl
@[simp] theorem setParam_ill (s : State) (hv lv : Word) (a : Byte) (sh : Half) : (s.setParam hv lv a sh).ill = s.ill := rfl
@[simp] theorem setParam_mv (s : State) (hv lv : Word) (a : Byte) (sh : Half) : (s.setParam hv lv a sh).mv = s.mv := rfl
@[simp] theorem setParam_mi (s : State) (hv lv : Word) (a : Byte) (sh : Half) : (s.setParam hv lv a sh).mi = s.mi := rfl
@[simp] theorem setParam_mp (s : State) (hv lv : Word) (a : Byte) (sh : Half) : (s.setParam hv lv a sh).mp = s.mp := rfl
@[simp] theorem setParam_me (s : State) (hv lv : Word) (a : Byte) (sh : Half) : (s.setParam hv lv a sh).me = s.me := rfl
@[simp] theorem setParam_alh (s : State) (hv lv : Word) (a : Byte) (sh : Half) : (s.setParam hv lv a sh).alh = s.alh := rfl
@[simp] theorem setParam_all (s : State) (hv lv : Word) (a : Byte) (sh : Half) : (s.setParam hv lv a sh).all = s.all := rfl
@[simp] theorem setParam_phv (s : State) (hv lv : Word) (a : Byte) (sh : Half) : (s.setParam hv lv a sh).phv = hv := rfl
@[simp] theorem setParam_plv (s : State) (hv lv : Word) (a : Byte) (sh : Half) : (s.setParam hv lv a sh).plv = lv := rfl
@[simp] theorem setParam_pAddr (s : State) (hv lv : Word) (a : Byte) (sh : Half) : (s.setParam hv lv a sh).pAddr = a := rfl
@[simp] theorem setParam_pShunt (s : State) (hv lv : Word) (a : Byte) (sh : Half) : (s.setParam hv lv a sh).pShunt = sh := rfl
@[simp] theorem setParam_pending (s : State) (hv lv : Word) (a : Byte) (sh : Half) : (s.setParam hv lv a sh).pending = s.pending := rfl
@[simp] theorem setParam_reads (s : State) (hv lv : Word) (a : Byte) (sh : Half) : (s.setParam hv lv a sh).reads = s.reads := rfl
@[simp] theorem setParam_draws (s : State) (hv lv : Word) (a : Byte) (sh : Half) : (s.setParam hv lv a sh).draws = s.draws := rfl

/-! ## logRead -/

@[simp] theorem logRead_addr (s : State) (v : ReadValue) : (s.logRead v).addr = s.addr := rfl
@[simp] theorem logRead_bcast (s : State) (v : ReadValue) : (s.logRead v).bcast = s.bcast := rfl
@[simp] theorem logRead_fc (s : State) (v : ReadValue) : (s.logRead v).fc = s.fc := rfl
@[simp] theorem logRead_reg (s : State) (v : ReadValue) : (s.logRead v).reg = s.reg := rfl
@[simp] theorem logRead_val (s : State) (v : ReadValue) : (s.logRead v).val = s.val := rfl
@[simp] theorem logRead_buf (s : State) (v : ReadValue) : (s.logRead v).buf = s.buf := rfl
@[simp] theorem logRead_blen (s : State) (v : ReadValue) : (s.logRead v).blen = s.blen := rfl
@[simp] theorem logRead_crc (s : State) (v : ReadValue) : (s.logRead v).crc = s.crc := rfl
@[simp] theorem logRead_expLen (s : State) (v : ReadValue) : (s.logRead v).expLen = s.expLen := rfl
@[simp] theorem logRead_rAddr (s : State) (v : ReadValue) : (s.logRead v).rAddr = s.rAddr := rfl
@[simp] theorem logRead_rFc (s : State) (v : ReadValue) : (s.logRead v).rFc = s.rFc := rfl
@[simp] theorem logRead_uAddr (s : State) (v : ReadValue) : (s.logRead v).uAddr = s.uAddr := rfl
@[simp] theorem logRead_uFc (s : State) (v : ReadValue) : (s.logRead v).uFc = s.uFc := rfl
@[simp] theorem logRead_uReg (s : State) (v : ReadValue) : (s.logRead v).uReg = s.uReg := rfl
@[simp] theorem logRead_uVal (s : State) (v : ReadValue) : (s.logRead v).uVal = s.uVal := rfl
@[simp] theorem logRead_err (s : State) (v : ReadValue) : (s.logRead v).err = s.err := rfl
@[simp] theorem logRead_vfy (s : State) (v : ReadValue) : (s.logRead v).vfy = s.vfy := rfl
@[simp] theorem logRead_valid (s : State) (v : ReadValue) : (s.logRead v).valid = s.valid := rfl
@[simp] theorem logRead_conn (s : State) (v : ReadValue) : (s.logRead v).conn = s.conn := rfl
@[simp] theorem logRead_decOk (s : State) (v : ReadValue) : (s.logRead v).decOk = s.decOk := rfl
@[simp] theorem logRead_ill (s : State) (v : ReadValue) : (s.logRead v).ill = s.ill := rfl
@[simp] theorem logRead_mv (s : State) (v : ReadValue) : (s.logRead v).mv = s.mv := rfl
@[simp] theorem logRead_mi (s : State) (v : ReadValue) : (s.logRead v).mi = s.mi := rfl
@[simp] theorem logRead_mp (s : State) (v : ReadValue) : (s.logRead v).mp = s.mp := rfl
@[simp] theorem logRead_me (s : State) (v : ReadValue) : (s.logRead v).me = s.me := rfl
@[simp] theorem logRead_alh (s : State) (v : ReadValue) : (s.logRead v).alh = s.alh := rfl
@[simp] theorem logRead_all (s : State) (v : ReadValue) : (s.logRead v).all = s.all := rfl
@[simp] theorem logRead_phv (s : State) (v : ReadValue) : (s.logRead v).phv = s.phv := rfl
@[simp] theorem logRead_plv (s : State) (v : ReadValue) : (s.logRead v).plv = s.plv := rfl
@[simp] theorem logRead_pAddr (s : State) (v : ReadValue) : (s.logRead v).pAddr = s.pAddr := rfl
@[simp] theorem logRead_pShunt (s : State) (v : ReadValue) : (s.logRead v).pShunt = s.pShunt := rfl
@[simp] theorem logRead_pending (s : State) (v : ReadValue) : (s.logRead v).pending = s.pending := rfl
@[simp] theorem logRead_reads (s : State) (v : ReadValue) : (s.logRead v).reads = s.reads ++ [v] := rfl
@[simp] theorem logRead_draws (s : State) (v : ReadValue) : (s.logRead v).draws = s.draws := rfl

/-! ## raise -/

@[simp] theorem raise_addr (s : State) (e : Err) : (s.raise e).addr = s.addr := rfl
@[simp] theorem raise_bcast (s : State) (e : Err) : (s.raise e).bcast = s.bcast := rfl
@[simp] theorem raise_fc (s : State) (e : Err) : (s.raise e).fc = s.fc := rfl
@[simp] theorem raise_reg (s : State) (e : Err) : (s.raise e).reg = s.reg := rfl
@[simp] theorem raise_val (s : State) (e : Err) : (s.raise e).val = s.val := rfl
@[simp] theorem raise_buf (s : State) (e : Err) : (s.raise e).buf = s.buf := rfl
@[simp] theorem raise_blen (s : State) (e : Err) : (s.raise e).blen = s.blen := rfl
@[simp] theorem raise_crc (s : State) (e : Err) : (s.raise e).crc = s.crc := rfl
@[simp] theorem raise_expLen (s : State) (e : Err) : (s.raise e).expLen = s.expLen := rfl
@[simp] theorem raise_rAddr (s : State) (e : Err) : (s.raise e).rAddr = s.rAddr := rfl
@[simp] theorem raise_rFc (s : State) (e : Err) : (s.raise e).rFc = s.rFc := rfl
@[simp] theorem raise_uAddr (s : State) (e : Err) : (s.raise e).uAddr = s.uAddr := rfl
@[simp] theorem raise_uFc (s : State) (e : Err) : (s.raise e).uFc = s.uFc := rfl
@[simp] theorem raise_uReg (s : State) (e : Err) : (s.raise e).uReg = s.uReg := rfl
@[simp] theorem raise_uVal (s : State) (e : Err) : (s.raise e).uVal = s.uVal := rfl
@[simp] theorem raise_err (s : State) (e : Err) : (s.raise e).err = e.code := rfl
@[simp] theorem raise_vfy (s : State) (e : Err) : (s.raise e).vfy = s.vfy := rfl
@[simp] theorem raise_valid (s : State) (e : Err) : (s.raise e).valid = s.valid := rfl
@[simp] theorem raise_conn (s : State) (e : Err) : (s.raise e).conn = s.conn := rfl
@[simp] theorem raise_decOk (s : State) (e : Err) : (s.raise e).decOk = s.decOk := rfl
@[simp] theorem raise_ill (s : State) (e : Err) : (s.raise e).ill = s.ill := rfl
@[simp] theorem raise_mv (s : State) (e : Err) : (s.raise e).mv = s.mv := rfl
@[simp] theorem raise_mi (s : State) (e : Err) : (s.raise e).mi = s.mi := rfl
@[simp] theorem raise_mp (s : State) (e : Err) : (s.raise e).mp = s.mp := rfl
@[simp] theorem raise_me (s : State) (e : Err) : (s.raise e).me = s.me := rfl
@[simp] theorem raise_alh (s : State) (e : Err) : (s.raise e).alh = s.alh := rfl
@[simp] theorem raise_all (s : State) (e : Err) : (s.raise e).all = s.all := rfl
@[simp] theorem raise_phv (s : State) (e : Err) : (s.raise e).phv = s.phv := rfl
@[simp] theorem raise_plv (s : State) (e : Err) : (s.raise e).plv = s.plv := rfl
@[simp] theorem raise_pAddr (s : State) (e : Err) : (s.raise e).pAddr = s.pAddr := rfl
@[simp] theorem raise_pShunt (s : State) (e : Err) : (s.raise e).pShunt = s.pShunt := rfl
@[simp] theorem raise_pending (s : State) (e : Err) : (s.raise e).pending = s.pending := rfl
@[simp] theorem raise_reads (s : State) (e : Err) : (s.raise e).reads = s.reads := rfl
@[simp] theorem raise_draws (s : State) (e : Err) : (s.raise e).draws = s.draws := rfl

/-! ## setVfy -/

@[simp] theorem setVfy_addr (s : State) (b : Bool) : (s.setVfy b).addr = s.addr := rfl
@[simp] theorem setVfy_bcast (s : State) (b : Bool) : (s.setVfy b).bcast = s.bcast := rfl
@[simp] theorem setVfy_fc (s : State) (b : Bool) : (s.setVfy b).fc = s.fc := rfl
@[simp] theorem setVfy_reg (s : State) (b : Bool) : (s.setVfy b).reg = s.reg := rfl
@[simp] theorem setVfy_val (s : State) (b : Bool) : (s.setVfy b).val = s.val := rfl
@[simp] theorem setVfy_buf (s : State) (b : Bool) : (s.setVfy b).buf = s.buf := rfl
@[simp] theorem setVfy_blen (s : State) (b : Bool) : (s.setVfy b).blen = s.blen := rfl
@[simp] theorem setVfy_crc (s : State) (b : Bool) : (s.setVfy b).crc = s.crc := rfl
@[simp] theorem setVfy_expLen (s : State) (b : Bool) : (s.setVfy b).expLen = s.expLen := rfl
@[simp] theorem setVfy_rAddr (s : State) (b : Bool) : (s.setVfy b).rAddr = s.rAddr := rfl
@[simp] theorem setVfy_rFc (s : State) (b : Bool) : (s.setVfy b).rFc = s.rFc := rfl
@[simp] theorem setVfy_uAddr (s : State) (b : Bool) : (s.setVfy b).uAddr = s.uAddr := rfl
@[simp] theorem setVfy_uFc (s : State) (b : Bool) : (s.setVfy b).uFc = s.uFc := rfl
@[simp] theorem setVfy_uReg (s : State) (b : Bool) : (s.setVfy b).uReg = s.uReg := rfl
@[simp] theorem setVfy_uVal (s : State) (b : Bool) : (s.setVfy b).uVal = s.uVal := rfl
@[simp] theorem setVfy_err (s : State) (b : Bool) : (s.setVfy b).err = s.err := rfl
@[simp] theorem setVfy_vfy (s : State) (b : Bool) : (s.setVfy b).vfy = b := rfl
@[simp] theorem setVfy_valid (s : State) (b : Bool) : (s.setVfy b).valid = s.valid := rfl
@[simp] theorem setVfy_conn (s : State) (b : Bool) : (s.setVfy b).conn = s.conn := rfl
@[simp] theorem setVfy_decOk (s : State) (b : Bool) : (s.setVfy b).decOk = s.decOk := rfl
@[simp] theorem setVfy_ill (s : State) (b : Bool) : (s.setVfy b).ill = s.ill := rfl
@[simp] theorem setVfy_mv (s : State) (b : Bool) : (s.setVfy b).mv = s.mv := rfl
@[simp] theorem setVfy_mi (s : State) (b : Bool) : (s.setVfy b).mi = s.mi := rfl
@[simp] theorem setVfy_mp (s : State) (b : Bool) : (s.setVfy b).mp = s.mp := rfl
@[simp] theorem setVfy_me (s : State) (b : Bool) : (s.setVfy b).me = s.me := rfl
@[simp] theorem setVfy_alh (s : State) (b : Bool) : (s.setVfy b).alh = s.alh := rfl
@[simp] theorem setVfy_all (s : State) (b : Bool) : (s.setVfy b).all = s.all := rfl
@[simp] theorem setVfy_phv (s : State) (b : Bool) : (s.setVfy b).phv = s.phv := rfl
@[simp] theorem setVfy_plv (s : State) (b : Bool) : (s.setVfy b).plv = s.plv := rfl
@[simp] theorem setVfy_pAddr (s : State) (b : Bool) : (s.setVfy b).pAddr = s.pAddr := rfl
@[simp] theorem setVfy_pShunt (s : State) (b : Bool) : (s.setVfy b).pShunt = s.pShunt := rfl
@[simp] theorem setVfy_pending (s : State) (b : Bool) : (s.setVfy b).pending = s.pending := rfl
@[simp] theorem setVfy_reads (s : State) (b : Bool) : (s.setVfy b).reads = s.reads := rfl
@[simp] theorem setVfy_draws (s : State) (b : Bool) : (s.setVfy b).draws = s.draws := rfl

/-! ## setValid -/

@[simp] theorem setValid_addr (s : State) (b : Bool) : (s.setValid b).addr = s.addr := rfl
@[simp] theorem setValid_bcast (s : State) (b : Bool) : (s.setValid b).bcast = s.bcast := rfl
@[simp] theorem setValid_fc (s : State) (b : Bool) : (s.setValid b).fc = s.fc := rfl
@[simp] theorem setValid_reg (s : State) (b : Bool) : (s.setValid b).reg = s.reg := rfl
@[simp] theorem setValid_val (s : State) (b : Bool) : (s.setValid b).val = s.val := rfl
@[simp] theorem setValid_buf (s : State) (b : Bool) : (s.setValid b).buf = s.buf := rfl
@[simp] theorem setValid_blen (s : State) (b : Bool) : (s.setValid b).blen = s.blen := rfl
@[simp] theorem setValid_crc (s : State) (b : Bool) : (s.setValid b).crc = s.crc := rfl
@[simp] theorem setValid_expLen (s : State) (b : Bool) : (s.setValid b).expLen = s.expLen := rfl
@[simp] theorem setValid_rAddr (s : State) (b : Bool) : (s.setValid b).rAddr = s.rAddr := rfl
@[simp] theorem setValid_rFc (s : State) (b : Bool) : (s.setValid b).rFc = s.rFc := rfl
@[simp] theorem setValid_uAddr (s : State) (b : Bool) : (s.setValid b).uAddr = s.uAddr := rfl
@[simp] theorem setValid_uFc (s : State) (b : Bool) : (s.setValid b).uFc = s.uFc := rfl
@[simp] theorem setValid_uReg (s : State) (b : Bool) : (s.setValid b).uReg = s.uReg := rfl
@[simp] theorem setValid_uVal (s : State) (b : Bool) : (s.setValid b).uVal = s.uVal := rfl
@[simp] theorem setValid_err (s : State) (b : Bool) : (s.setValid b).err = s.err := rfl
@[simp] theorem setValid_vfy (s : State) (b : Bool) : (s.setValid b).vfy = s.vfy := rfl
@[simp] theorem setValid_valid (s : State) (b : Bool) : (s.setValid b).valid = b := rfl
@[simp] theorem setValid_conn (s : State) (b : Bool) : (s.setValid b).conn = s.conn := rfl
@[simp] theorem setValid_decOk (s : State) (b : Bool) : (s.setValid b).decOk = s.decOk := rfl
@[simp] theorem setValid_ill (s : State) (b : Bool) : (s.setValid b).ill = s.ill := rfl
@[simp] theorem setValid_mv (s : State) (b : Bool) : (s.setValid b).mv = s.mv := rfl
@[simp] theorem setValid_mi (s : State) (b : Bool) : (s.setValid b).mi = s.mi := rfl
@[simp] theorem setValid_mp (s : State) (b : Bool) : (s.setValid b).mp = s.mp := rfl
@[simp] theorem setValid_me (s : State) (b : Bool) : (s.setValid b).me = s.me := rfl
@[simp] theorem setValid_alh (s : State) (b : Bool) : (s.setValid b).alh = s.alh := rfl
@[simp] theorem setValid_all (s : State) (b : Bool) : (s.setValid b).all = s.all := rfl
@[simp] theorem setValid_phv (s : State) (b : Bool) : (s.setValid b).phv = s.phv := rfl
@[simp] theorem setValid_plv (s : State) (b : Bool) : (s.setValid b).plv = s.plv := rfl
@[simp] theorem setValid_pAddr (s : State) (b : Bool) : (s.setValid b).pAddr = s.pAddr := rfl
@[simp] theorem setValid_pShunt (s : State) (b : Bool) : (s.setValid b).pShunt = s.pShunt := rfl
@[simp] theorem setValid_pending (s : State) (b : Bool) : (s.setValid b).pending = s.pending := rfl
@[simp] theorem setValid_reads (s : State) (b : Bool) : (s.setValid b).reads = s.reads := rfl
@[simp] theorem setValid_draws (s : State) (b : Bool) : (s.setValid b).draws = s.draws := rfl

/-! ## setConn -/

@[simp] theorem setConn_addr (s : State) (b : Bool) : (s.setConn b).addr = s.addr := rfl
@[simp] theorem setConn_bcast (s : State) (b : Bool) : (s.setConn b).bcast = s.bcast := rfl
@[simp] theorem setConn_fc (s : State) (b : Bool) : (s.setConn b).fc = s.fc := rfl
@[simp] theorem setConn_reg (s : State) (b : Bool) : (s.setConn b).reg = s.reg := rfl
@[simp] theorem setConn_val (s : State) (b : Bool) : (s.setConn b).val = s.val := rfl
@[simp] theorem setConn_buf (s : State) (b : Bool) : (s.setConn b).buf = s.buf := rfl
@[simp] theorem setConn_blen (s : State) (b : Bool) : (s.setConn b).blen = s.blen := rfl
@[simp] theorem setConn_crc (s : State) (b : Bool) : (s.setConn b).crc = s.crc := rfl
@[simp] theorem setConn_expLen (s : State) (b : Bool) : (s.setConn b).expLen = s.expLen := rfl
@[simp] theorem setConn_rAddr (s : State) (b : Bool) : (s.setConn b).rAddr = s.rAddr := rfl
@[simp] theorem setConn_rFc (s : State) (b : Bool) : (s.setConn b).rFc = s.rFc := rfl
@[simp] theorem setConn_uAddr (s : State) (b : Bool) : (s.setConn b).uAddr = s.uAddr := rfl
@[simp] theorem setConn_uFc (s : State) (b : Bool) : (s.setConn b).uFc = s.uFc := rfl
@[simp] theorem setConn_uReg (s : State) (b : Bool) : (s.setConn b).uReg = s.uReg := rfl
@[simp] theorem setConn_uVal (s : State) (b : Bool) : (s.setConn b).uVal = s.uVal := rfl
@[simp] theorem setConn_err (s : State) (b : Bool) : (s.setConn b).err = s.err := rfl
@[simp] theorem setConn_vfy (s : State) (b : Bool) : (s.setConn b).vfy = s.vfy := rfl
@[simp] theorem setConn_valid (s : State) (b : Bool) : (s.setConn b).valid = s.valid := rfl
@[simp] theorem setConn_conn (s : State) (b : Bool) : (s.setConn b).conn = b := rfl
@[simp] theorem setConn_decOk (s : State) (b : Bool) : (s.setConn b).decOk = s.decOk := rfl
@[simp] theorem setConn_ill (s : State) (b : Bool) : (s.setConn b).ill = s.ill := rfl
@[simp] theorem setConn_mv (s : State) (b : Bool) : (s.setConn b).mv = s.mv := rfl
@[simp] theorem setConn_mi (s : State) (b : Bool) : (s.setConn b).mi = s.mi := rfl
@[simp] theorem setConn_mp (s : State) (b : Bool) : (s.setConn b).mp = s.mp := rfl
@[simp] theorem setConn_me (s : State) (b : Bool) : (s.setConn b).me = s.me := rfl
@[simp] theorem setConn_alh (s : State) (b : Bool) : (s.setConn b).alh = s.alh := rfl
@[simp] theorem setConn_all (s : State) (b : Bool) : (s.setConn b).all = s.all := rfl
@[simp] theorem setConn_phv (s : State) (b : Bool) : (s.setConn b).phv = s.phv := rfl
@[simp] theorem setConn_plv (s : State) (b : Bool) : (s.setConn b).plv = s.plv := rfl
@[simp] theorem setConn_pAddr (s : State) (b : Bool) : (s.setConn b).pAddr = s.pAddr := rfl
@[simp] theorem setConn_pShunt (s : State) (b : Bool) : (s.setConn b).pShunt = s.pShunt := rfl
@[simp] theorem setConn_pending (s : State) (b : Bool) : (s.setConn b).pending = s.pending := rfl
@[simp] theorem setConn_reads (s : State) (b : Bool) : (s.setConn b).reads = s.reads := rfl
@[simp] theorem setConn_draws (s : State) (b : Bool) : (s.setConn b).draws = s.draws := rfl

/-! ## setDecOk -/

@[simp] theorem setDecOk_addr (s : State) (b : Bool) : (s.setDecOk b).addr = s.addr := rfl
@[simp] theorem setDecOk_bcast (s : State) (b : Bool) : (s.setDecOk b).bcast = s.bcast := rfl
@[simp] theorem setDecOk_fc (s : State) (b : Bool) : (s.setDecOk b).fc = s.fc := rfl
@[simp] theorem setDecOk_reg (s : State) (b : Bool) : (s.setDecOk b).reg = s.reg := rfl
@[simp] theorem setDecOk_val (s : State) (b : Bool) : (s.setDecOk b).val = s.val := rfl
@[simp] theorem setDecOk_buf (s : State) (b : Bool) : (s.setDecOk b).buf = s.buf := rfl
@[simp] theorem setDecOk_blen (s : State) (b : Bool) : (s.setDecOk b).blen = s.blen := rfl
@[simp] theorem setDecOk_crc (s : State) (b : Bool) : (s.setDecOk b).crc = s.crc := rfl
@[simp] theorem setDecOk_expLen (s : State) (b : Bool) : (s.setDecOk b).expLen = s.expLen := rfl
@[simp] theorem setDecOk_rAddr (s : State) (b : Bool) : (s.setDecOk b).rAddr = s.rAddr := rfl
@[simp] theorem setDecOk_rFc (s : State) (b : Bool) : (s.setDecOk b).rFc = s.rFc := rfl
@[simp] theorem setDecOk_uAddr (s : State) (b : Bool) : (s.setDecOk b).uAddr = s.uAddr := rfl
@[simp] theorem setDecOk_uFc (s : State) (b : Bool) : (s.setDecOk b).uFc = s.uFc := rfl
@[simp] theorem setDecOk_uReg (s : State) (b : Bool) : (s.setDecOk b).uReg = s.uReg := rfl
@[simp] theorem setDecOk_uVal (s : State) (b : Bool) : (s.setDecOk b).uVal = s.uVal := rfl
@[simp] theorem setDecOk_err (s : State) (b : Bool) : (s.setDecOk b).err = s.err := rfl
@[simp] theorem setDecOk_vfy (s : State) (b : Bool) : (s.setDecOk b).vfy = s.vfy := rfl
@[simp] theorem setDecOk_valid (s : State) (b : Bool) : (s.setDecOk b).valid = s.valid := rfl
@[simp] theorem setDecOk_conn (s : State) (b : Bool) : (s.setDecOk b).conn = s.conn := rfl
@[simp] theorem setDecOk_decOk (s : State) (b : Bool) : (s.setDecOk b).decOk = b := rfl
@[simp] theorem setDecOk_ill (s : State) (b : Bool) : (s.setDecOk b).ill = s.ill := rfl
@[simp] theorem setDecOk_mv (s : State) (b : Bool) : (s.setDecOk b).mv = s.mv := rfl
@[simp] theorem setDecOk_mi (s : State) (b : Bool) : (s.setDecOk b).mi = s.mi := rfl
@[simp] theorem setDecOk_mp (s : State) (b : Bool) : (s.setDecOk b).mp = s.mp := rfl
@[simp] theorem setDecOk_me (s : State) (b : Bool) : (s.setDecOk b).me = s.me := rfl
@[simp] theorem setDecOk_alh (s : State) (b : Bool) : (s.setDecOk b).alh = s.alh := rfl
@[simp] theorem setDecOk_all (s : State) (b : Bool) : (s.setDecOk b).all = s.all := rfl
@[simp] theorem setDecOk_phv (s : State) (b : Bool) : (s.setDecOk b).phv = s.phv := rfl
@[simp] theorem setDecOk_plv (s : State) (b : Bool) : (s.setDecOk b).plv = s.plv := rfl
@[simp] theorem setDecOk_pAddr (s : State) (b : Bool) : (s.setDecOk b).pAddr = s.pAddr := rfl
@[simp] theorem setDecOk_pShunt (s : State) (b : Bool) : (s.setDecOk b).pShunt = s.pShunt := rfl
@[simp] theorem setDecOk_pending (s : State) (b : Bool) : (s.setDecOk b).pending = s.pending := rfl
@[simp] theorem setDecOk_reads (s : State) (b : Bool) : (s.setDecOk b).reads = s.reads := rfl
@[simp] theorem setDecOk_draws (s : State) (b : Bool) : (s.setDecOk b).draws = s.draws := rfl

/-! ## setIll -/

@[simp] theorem setIll_addr (s : State) (b : Bool) : (s.setIll b).addr = s.addr := rfl
@[simp] theorem setIll_bcast (s : State) (b : Bool) : (s.setIll b).bcast = s.bcast := rfl
@[simp] theorem setIll_fc (s : State) (b : Bool) : (s.setIll b).fc = s.fc := rfl
@[simp] theorem setIll_reg (s : State) (b : Bool) : (s.setIll b).reg = s.reg := rfl
@[simp] theorem setIll_val (s : State) (b : Bool) : (s.setIll b).val = s.val := rfl
@[simp] theorem setIll_buf (s : State) (b : Bool) : (s.setIll b).buf = s.buf := rfl
@[simp] theorem setIll_blen (s : State) (b : Bool) : (s.setIll b).blen = s.blen := rfl
@[simp] theorem setIll_crc (s : State) (b : Bool) : (s.setIll b).crc = s.crc := rfl
@[simp] theorem setIll_expLen (s : State) (b : Bool) : (s.setIll b).expLen = s.expLen := rfl
@[simp] theorem setIll_rAddr (s : State) (b : Bool) : (s.setIll b).rAddr = s.rAddr := rfl
@[simp] theorem setIll_rFc (s : State) (b : Bool) : (s.setIll b).rFc = s.rFc := rfl
@[simp] theorem setIll_uAddr (s : State) (b : Bool) : (s.setIll b).uAddr = s.uAddr := rfl
@[simp] theorem setIll_uFc (s : State) (b : Bool) : (s.setIll b).uFc = s.uFc := rfl
@[simp] theorem setIll_uReg (s : State) (b : Bool) : (s.setIll b).uReg = s.uReg := rfl
@[simp] theorem setIll_uVal (s : State) (b : Bool) : (s.setIll b).uVal = s.uVal := rfl
@[simp] theorem setIll_err (s : State) (b : Bool) : (s.setIll b).err = s.err := rfl
@[simp] theorem setIll_vfy (s : State) (b : Bool) : (s.setIll b).vfy = s.vfy := rfl
@[simp] theorem setIll_valid (s : State) (b : Bool) : (s.setIll b).valid = s.valid := rfl
@[simp] theorem setIll_conn (s : State) (b : Bool) : (s.setIll b).conn = s.conn := rfl
@[simp] theorem setIll_decOk (s : State) (b : Bool) : (s.setIll b).decOk = s.decOk := rfl
@[simp] theorem setIll_ill (s : State) (b : Bool) : (s.setIll b).ill = b := rfl
@[simp] theorem setIll_mv (s : State) (b : Bool) : (s.setIll b).mv = s.mv := rfl
@[simp] theorem setIll_mi (s : State) (b : Bool) : (s.setIll b).mi = s.mi := rfl
@[simp] theorem setIll_mp (s : State) (b : Bool) : (s.setIll b).mp = s.mp := rfl
@[simp] theorem setIll_me (s : State) (b : Bool) : (s.setIll b).me = s.me := rfl
@[simp] theorem setIll_alh (s : State) (b : Bool) : (s.setIll b).alh = s.alh := rfl
@[simp] theorem setIll_all (s : State) (b : Bool) : (s.setIll b).all = s.all := rfl
@[simp] theorem setIll_phv (s : State) (b : Bool) : (s.setIll b).phv = s.phv := rfl
@[simp] theorem setIll_plv (s : State) (b : Bool) : (s.setIll b).plv = s.plv := rfl
@[simp] theorem setIll_pAddr (s : State) (b : Bool) : (s.setIll b).pAddr = s.pAddr := rfl
@[simp] theorem setIll_pShunt (s : State) (b : Bool) : (s.setIll b).pShunt = s.pShunt := rfl
@[simp] theorem setIll_pending (s : State) (b : Bool) : (s.setIll b).pending = s.pending := rfl
@[simp] theorem setIll_reads (s : State) (b : Bool) : (s.setIll b).reads = s.reads := rfl
@[simp] theorem setIll_draws (s : State) (b : Bool) : (s.setIll b).draws = s.draws := rfl

/-! ## closeParse -/

@[simp] theorem closeParse_addr (s : State) : s.closeParse.addr = s.addr := rfl
@[simp] theorem closeParse_bcast (s : State) : s.closeParse.bcast = s.bcast := rfl
@[simp] theorem closeParse_fc (s : State) : s.closeParse.fc = s.fc := rfl
@[simp] theorem closeParse_reg (s : State) : s.closeParse.reg = s.reg := rfl
@[simp] theorem closeParse_val (s : State) : s.closeParse.val = s.val := rfl
@[simp] theorem closeParse_buf (s : State) : s.closeParse.buf = s.buf := rfl
@[simp] theorem closeParse_blen (s : State) : s.closeParse.blen = s.blen := rfl
@[simp] theorem closeParse_crc (s : State) : s.closeParse.crc = s.crc := rfl
@[simp] theorem closeParse_expLen (s : State) : s.closeParse.expLen = s.expLen := rfl
@[simp] theorem closeParse_rAddr (s : State) : s.closeParse.rAddr = s.rAddr := rfl
@[simp] theorem closeParse_rFc (s : State) : s.closeParse.rFc = s.rFc := rfl
@[simp] theorem closeParse_uAddr (s : State) : s.closeParse.uAddr = s.uAddr := rfl
@[simp] theorem closeParse_uFc (s : State) : s.closeParse.uFc = s.uFc := rfl
@[simp] theorem closeParse_uReg (s : State) : s.closeParse.uReg = s.uReg := rfl
@[simp] theorem closeParse_uVal (s : State) : s.closeParse.uVal = s.uVal := rfl
@[simp] theorem closeParse_err (s : State) : s.closeParse.err = s.err := rfl
@[simp] theorem closeParse_vfy (s : State) : s.closeParse.vfy = s.vfy := rfl
@[simp] theorem closeParse_valid (s : State) : s.closeParse.valid = s.errIsOk := rfl
@[simp] theorem closeParse_conn (s : State) : s.closeParse.conn = s.errIsOk := rfl
@[simp] theorem closeParse_decOk (s : State) : s.closeParse.decOk = s.decOk := rfl
@[simp] theorem closeParse_ill (s : State) : s.closeParse.ill = false := rfl
@[simp] theorem closeParse_mv (s : State) : s.closeParse.mv = s.mv := rfl
@[simp] theorem closeParse_mi (s : State) : s.closeParse.mi = s.mi := rfl
@[simp] theorem closeParse_mp (s : State) : s.closeParse.mp = s.mp := rfl
@[simp] theorem closeParse_me (s : State) : s.closeParse.me = s.me := rfl
@[simp] theorem closeParse_alh (s : State) : s.closeParse.alh = s.alh := rfl
@[simp] theorem closeParse_all (s : State) : s.closeParse.all = s.all := rfl
@[simp] theorem closeParse_phv (s : State) : s.closeParse.phv = s.phv := rfl
@[simp] theorem closeParse_plv (s : State) : s.closeParse.plv = s.plv := rfl
@[simp] theorem closeParse_pAddr (s : State) : s.closeParse.pAddr = s.pAddr := rfl
@[simp] theorem closeParse_pShunt (s : State) : s.closeParse.pShunt = s.pShunt := rfl
@[simp] theorem closeParse_pending (s : State) : s.closeParse.pending = s.pending := rfl
@[simp] theorem closeParse_reads (s : State) : s.closeParse.reads = s.reads := rfl
@[simp] theorem closeParse_draws (s : State) : s.closeParse.draws = s.draws := rfl

/-! ## recordIllegal -/

@[simp] theorem recordIllegal_addr (s : State) : s.recordIllegal.addr = s.addr := rfl
@[simp] theorem recordIllegal_bcast (s : State) : s.recordIllegal.bcast = s.bcast := rfl
@[simp] theorem recordIllegal_fc (s : State) : s.recordIllegal.fc = s.fc := rfl
@[simp] theorem recordIllegal_reg (s : State) : s.recordIllegal.reg = s.reg := rfl
@[simp] theorem recordIllegal_val (s : State) : s.recordIllegal.val = s.val := rfl
@[simp] theorem recordIllegal_buf (s : State) : s.recordIllegal.buf = s.buf := rfl
@[simp] theorem recordIllegal_blen (s : State) : s.recordIllegal.blen = s.blen := rfl
@[simp] theorem recordIllegal_crc (s : State) : s.recordIllegal.crc = s.crc := rfl
@[simp] theorem recordIllegal_expLen (s : State) : s.recordIllegal.expLen = s.expLen := rfl
@[simp] theorem recordIllegal_rAddr (s : State) : s.recordIllegal.rAddr = s.rAddr := rfl
@[simp] theorem recordIllegal_rFc (s : State) : s.recordIllegal.rFc = s.rFc := rfl
@[simp] theorem recordIllegal_uAddr (s : State) : s.recordIllegal.uAddr = s.uAddr := rfl
@[simp] theorem recordIllegal_uFc (s : State) : s.recordIllegal.uFc = s.uFc := rfl
@[simp] theorem recordIllegal_uReg (s : State) : s.recordIllegal.uReg = s.uReg := rfl
@[simp] theorem recordIllegal_uVal (s : State) : s.recordIllegal.uVal = s.uVal := rfl
@[simp] theorem recordIllegal_err (s : State) : s.recordIllegal.err = s.err := rfl
@[simp] theorem recordIllegal_vfy (s : State) : s.recordIllegal.vfy = s.vfy := rfl
@[simp] theorem recordIllegal_valid (s : State) : s.recordIllegal.valid = s.valid := rfl
@[simp] theorem recordIllegal_conn (s : State) : s.recordIllegal.conn = s.conn := rfl
@[simp] theorem recordIllegal_decOk (s : State) : s.recordIllegal.decOk = s.decOk := rfl
@[simp] theorem recordIllegal_ill (s : State) : s.recordIllegal.ill = true := rfl
@[simp] theorem recordIllegal_mv (s : State) : s.recordIllegal.mv = s.mv := rfl
@[simp] theorem recordIllegal_mi (s : State) : s.recordIllegal.mi = s.mi := rfl
@[simp] theorem recordIllegal_mp (s : State) : s.recordIllegal.mp = s.mp := rfl
@[simp] theorem recordIllegal_me (s : State) : s.recordIllegal.me = s.me := rfl
@[simp] theorem recordIllegal_alh (s : State) : s.recordIllegal.alh = s.alh := rfl
@[simp] theorem recordIllegal_all (s : State) : s.recordIllegal.all = s.all := rfl
@[simp] theorem recordIllegal_phv (s : State) : s.recordIllegal.phv = s.phv := rfl
@[simp] theorem recordIllegal_plv (s : State) : s.recordIllegal.plv = s.plv := rfl
@[simp] theorem recordIllegal_pAddr (s : State) : s.recordIllegal.pAddr = s.pAddr := rfl
@[simp] theorem recordIllegal_pShunt (s : State) : s.recordIllegal.pShunt = s.pShunt := rfl
@[simp] theorem recordIllegal_pending (s : State) : s.recordIllegal.pending = s.pending := rfl
@[simp] theorem recordIllegal_reads (s : State) : s.recordIllegal.reads = s.reads := rfl
@[simp] theorem recordIllegal_draws (s : State) : s.recordIllegal.draws = s.draws := rfl

/-! ## writeAddr -/

@[simp] theorem writeAddr_addr (s : State) (w : Word) : (s.writeAddr w).addr = w.extractLsb' 0 8 := rfl
@[simp] theorem writeAddr_bcast (s : State) (w : Word) : (s.writeAddr w).bcast = w.getLsbD 8 := rfl
@[simp] theorem writeAddr_fc (s : State) (w : Word) : (s.writeAddr w).fc = s.fc := rfl
@[simp] theorem writeAddr_reg (s : State) (w : Word) : (s.writeAddr w).reg = s.reg := rfl
@[simp] theorem writeAddr_val (s : State) (w : Word) : (s.writeAddr w).val = s.val := rfl
@[simp] theorem writeAddr_buf (s : State) (w : Word) : (s.writeAddr w).buf = s.buf := rfl
@[simp] theorem writeAddr_blen (s : State) (w : Word) : (s.writeAddr w).blen = s.blen := rfl
@[simp] theorem writeAddr_crc (s : State) (w : Word) : (s.writeAddr w).crc = s.crc := rfl
@[simp] theorem writeAddr_expLen (s : State) (w : Word) : (s.writeAddr w).expLen = s.expLen := rfl
@[simp] theorem writeAddr_rAddr (s : State) (w : Word) : (s.writeAddr w).rAddr = s.rAddr := rfl
@[simp] theorem writeAddr_rFc (s : State) (w : Word) : (s.writeAddr w).rFc = s.rFc := rfl
@[simp] theorem writeAddr_uAddr (s : State) (w : Word) : (s.writeAddr w).uAddr = s.uAddr := rfl
@[simp] theorem writeAddr_uFc (s : State) (w : Word) : (s.writeAddr w).uFc = s.uFc := rfl
@[simp] theorem writeAddr_uReg (s : State) (w : Word) : (s.writeAddr w).uReg = s.uReg := rfl
@[simp] theorem writeAddr_uVal (s : State) (w : Word) : (s.writeAddr w).uVal = s.uVal := rfl
@[simp] theorem writeAddr_err (s : State) (w : Word) : (s.writeAddr w).err = s.err := rfl
@[simp] theorem writeAddr_vfy (s : State) (w : Word) : (s.writeAddr w).vfy = s.vfy := rfl
@[simp] theorem writeAddr_valid (s : State) (w : Word) : (s.writeAddr w).valid = s.valid := rfl
@[simp] theorem writeAddr_conn (s : State) (w : Word) : (s.writeAddr w).conn = s.conn := rfl
@[simp] theorem writeAddr_decOk (s : State) (w : Word) : (s.writeAddr w).decOk = s.decOk := rfl
@[simp] theorem writeAddr_ill (s : State) (w : Word) : (s.writeAddr w).ill = s.ill := rfl
@[simp] theorem writeAddr_mv (s : State) (w : Word) : (s.writeAddr w).mv = s.mv := rfl
@[simp] theorem writeAddr_mi (s : State) (w : Word) : (s.writeAddr w).mi = s.mi := rfl
@[simp] theorem writeAddr_mp (s : State) (w : Word) : (s.writeAddr w).mp = s.mp := rfl
@[simp] theorem writeAddr_me (s : State) (w : Word) : (s.writeAddr w).me = s.me := rfl
@[simp] theorem writeAddr_alh (s : State) (w : Word) : (s.writeAddr w).alh = s.alh := rfl
@[simp] theorem writeAddr_all (s : State) (w : Word) : (s.writeAddr w).all = s.all := rfl
@[simp] theorem writeAddr_phv (s : State) (w : Word) : (s.writeAddr w).phv = s.phv := rfl
@[simp] theorem writeAddr_plv (s : State) (w : Word) : (s.writeAddr w).plv = s.plv := rfl
@[simp] theorem writeAddr_pAddr (s : State) (w : Word) : (s.writeAddr w).pAddr = s.pAddr := rfl
@[simp] theorem writeAddr_pShunt (s : State) (w : Word) : (s.writeAddr w).pShunt = s.pShunt := rfl
@[simp] theorem writeAddr_pending (s : State) (w : Word) : (s.writeAddr w).pending = s.pending := rfl
@[simp] theorem writeAddr_reads (s : State) (w : Word) : (s.writeAddr w).reads = s.reads := rfl
@[simp] theorem writeAddr_draws (s : State) (w : Word) : (s.writeAddr w).draws = s.draws := rfl

/-! ## writeFc -/

@[simp] theorem writeFc_addr (s : State) (w : Word) : (s.writeFc w).addr = s.addr := rfl
@[simp] theorem writeFc_bcast (s : State) (w : Word) : (s.writeFc w).bcast = s.bcast := rfl
@[simp] theorem writeFc_fc (s : State) (w : Word) : (s.writeFc w).fc = w.extractLsb' 0 8 := rfl
@[simp] theorem writeFc_reg (s : State) (w : Word) : (s.writeFc w).reg = s.reg := rfl
@[simp] theorem writeFc_val (s : State) (w : Word) : (s.writeFc w).val = s.val := rfl
@[simp] theorem writeFc_buf (s : State) (w : Word) : (s.writeFc w).buf = s.buf := rfl
@[simp] theorem writeFc_blen (s : State) (w : Word) : (s.writeFc w).blen = s.blen := rfl
@[simp] theorem writeFc_crc (s : State) (w : Word) : (s.writeFc w).crc = s.crc := rfl
@[simp] theorem writeFc_expLen (s : State) (w : Word) : (s.writeFc w).expLen = s.expLen := rfl
@[simp] theorem writeFc_rAddr (s : State) (w : Word) : (s.writeFc w).rAddr = s.rAddr := rfl
@[simp] theorem writeFc_rFc (s : State) (w : Word) : (s.writeFc w).rFc = s.rFc := rfl
@[simp] theorem writeFc_uAddr (s : State) (w : Word) : (s.writeFc w).uAddr = s.uAddr := rfl
@[simp] theorem writeFc_uFc (s : State) (w : Word) : (s.writeFc w).uFc = s.uFc := rfl
@[simp] theorem writeFc_uReg (s : State) (w : Word) : (s.writeFc w).uReg = s.uReg := rfl
@[simp] theorem writeFc_uVal (s : State) (w : Word) : (s.writeFc w).uVal = s.uVal := rfl
@[simp] theorem writeFc_err (s : State) (w : Word) : (s.writeFc w).err = s.err := rfl
@[simp] theorem writeFc_vfy (s : State) (w : Word) : (s.writeFc w).vfy = s.vfy := rfl
@[simp] theorem writeFc_valid (s : State) (w : Word) : (s.writeFc w).valid = s.valid := rfl
@[simp] theorem writeFc_conn (s : State) (w : Word) : (s.writeFc w).conn = s.conn := rfl
@[simp] theorem writeFc_decOk (s : State) (w : Word) : (s.writeFc w).decOk = s.decOk := rfl
@[simp] theorem writeFc_ill (s : State) (w : Word) : (s.writeFc w).ill = s.ill := rfl
@[simp] theorem writeFc_mv (s : State) (w : Word) : (s.writeFc w).mv = s.mv := rfl
@[simp] theorem writeFc_mi (s : State) (w : Word) : (s.writeFc w).mi = s.mi := rfl
@[simp] theorem writeFc_mp (s : State) (w : Word) : (s.writeFc w).mp = s.mp := rfl
@[simp] theorem writeFc_me (s : State) (w : Word) : (s.writeFc w).me = s.me := rfl
@[simp] theorem writeFc_alh (s : State) (w : Word) : (s.writeFc w).alh = s.alh := rfl
@[simp] theorem writeFc_all (s : State) (w : Word) : (s.writeFc w).all = s.all := rfl
@[simp] theorem writeFc_phv (s : State) (w : Word) : (s.writeFc w).phv = s.phv := rfl
@[simp] theorem writeFc_plv (s : State) (w : Word) : (s.writeFc w).plv = s.plv := rfl
@[simp] theorem writeFc_pAddr (s : State) (w : Word) : (s.writeFc w).pAddr = s.pAddr := rfl
@[simp] theorem writeFc_pShunt (s : State) (w : Word) : (s.writeFc w).pShunt = s.pShunt := rfl
@[simp] theorem writeFc_pending (s : State) (w : Word) : (s.writeFc w).pending = s.pending := rfl
@[simp] theorem writeFc_reads (s : State) (w : Word) : (s.writeFc w).reads = s.reads := rfl
@[simp] theorem writeFc_draws (s : State) (w : Word) : (s.writeFc w).draws = s.draws := rfl

/-! ## writeRegField -/

@[simp] theorem writeRegField_addr (s : State) (w : Word) : (s.writeRegField w).addr = s.addr := rfl
@[simp] theorem writeRegField_bcast (s : State) (w : Word) : (s.writeRegField w).bcast = s.bcast := rfl
@[simp] theorem writeRegField_fc (s : State) (w : Word) : (s.writeRegField w).fc = s.fc := rfl
@[simp] theorem writeRegField_reg (s : State) (w : Word) : (s.writeRegField w).reg = w.extractLsb' 0 16 := rfl
@[simp] theorem writeRegField_val (s : State) (w : Word) : (s.writeRegField w).val = s.val := rfl
@[simp] theorem writeRegField_buf (s : State) (w : Word) : (s.writeRegField w).buf = s.buf := rfl
@[simp] theorem writeRegField_blen (s : State) (w : Word) : (s.writeRegField w).blen = s.blen := rfl
@[simp] theorem writeRegField_crc (s : State) (w : Word) : (s.writeRegField w).crc = s.crc := rfl
@[simp] theorem writeRegField_expLen (s : State) (w : Word) : (s.writeRegField w).expLen = s.expLen := rfl
@[simp] theorem writeRegField_rAddr (s : State) (w : Word) : (s.writeRegField w).rAddr = s.rAddr := rfl
@[simp] theorem writeRegField_rFc (s : State) (w : Word) : (s.writeRegField w).rFc = s.rFc := rfl
@[simp] theorem writeRegField_uAddr (s : State) (w : Word) : (s.writeRegField w).uAddr = s.uAddr := rfl
@[simp] theorem writeRegField_uFc (s : State) (w : Word) : (s.writeRegField w).uFc = s.uFc := rfl
@[simp] theorem writeRegField_uReg (s : State) (w : Word) : (s.writeRegField w).uReg = s.uReg := rfl
@[simp] theorem writeRegField_uVal (s : State) (w : Word) : (s.writeRegField w).uVal = s.uVal := rfl
@[simp] theorem writeRegField_err (s : State) (w : Word) : (s.writeRegField w).err = s.err := rfl
@[simp] theorem writeRegField_vfy (s : State) (w : Word) : (s.writeRegField w).vfy = s.vfy := rfl
@[simp] theorem writeRegField_valid (s : State) (w : Word) : (s.writeRegField w).valid = s.valid := rfl
@[simp] theorem writeRegField_conn (s : State) (w : Word) : (s.writeRegField w).conn = s.conn := rfl
@[simp] theorem writeRegField_decOk (s : State) (w : Word) : (s.writeRegField w).decOk = s.decOk := rfl
@[simp] theorem writeRegField_ill (s : State) (w : Word) : (s.writeRegField w).ill = s.ill := rfl
@[simp] theorem writeRegField_mv (s : State) (w : Word) : (s.writeRegField w).mv = s.mv := rfl
@[simp] theorem writeRegField_mi (s : State) (w : Word) : (s.writeRegField w).mi = s.mi := rfl
@[simp] theorem writeRegField_mp (s : State) (w : Word) : (s.writeRegField w).mp = s.mp := rfl
@[simp] theorem writeRegField_me (s : State) (w : Word) : (s.writeRegField w).me = s.me := rfl
@[simp] theorem writeRegField_alh (s : State) (w : Word) : (s.writeRegField w).alh = s.alh := rfl
@[simp] theorem writeRegField_all (s : State) (w : Word) : (s.writeRegField w).all = s.all := rfl
@[simp] theorem writeRegField_phv (s : State) (w : Word) : (s.writeRegField w).phv = s.phv := rfl
@[simp] theorem writeRegField_plv (s : State) (w : Word) : (s.writeRegField w).plv = s.plv := rfl
@[simp] theorem writeRegField_pAddr (s : State) (w : Word) : (s.writeRegField w).pAddr = s.pAddr := rfl
@[simp] theorem writeRegField_pShunt (s : State) (w : Word) : (s.writeRegField w).pShunt = s.pShunt := rfl
@[simp] theorem writeRegField_pending (s : State) (w : Word) : (s.writeRegField w).pending = s.pending := rfl
@[simp] theorem writeRegField_reads (s : State) (w : Word) : (s.writeRegField w).reads = s.reads := rfl
@[simp] theorem writeRegField_draws (s : State) (w : Word) : (s.writeRegField w).draws = s.draws := rfl

/-! ## writeVal -/

@[simp] theorem writeVal_addr (s : State) (w : Word) : (s.writeVal w).addr = s.addr := rfl
@[simp] theorem writeVal_bcast (s : State) (w : Word) : (s.writeVal w).bcast = s.bcast := rfl
@[simp] theorem writeVal_fc (s : State) (w : Word) : (s.writeVal w).fc = s.fc := rfl
@[simp] theorem writeVal_reg (s : State) (w : Word) : (s.writeVal w).reg = s.reg := rfl
@[simp] theorem writeVal_val (s : State) (w : Word) : (s.writeVal w).val = w.extractLsb' 0 16 := rfl
@[simp] theorem writeVal_buf (s : State) (w : Word) : (s.writeVal w).buf = s.buf := rfl
@[simp] theorem writeVal_blen (s : State) (w : Word) : (s.writeVal w).blen = s.blen := rfl
@[simp] theorem writeVal_crc (s : State) (w : Word) : (s.writeVal w).crc = s.crc := rfl
@[simp] theorem writeVal_expLen (s : State) (w : Word) : (s.writeVal w).expLen = s.expLen := rfl
@[simp] theorem writeVal_rAddr (s : State) (w : Word) : (s.writeVal w).rAddr = s.rAddr := rfl
@[simp] theorem writeVal_rFc (s : State) (w : Word) : (s.writeVal w).rFc = s.rFc := rfl
@[simp] theorem writeVal_uAddr (s : State) (w : Word) : (s.writeVal w).uAddr = s.uAddr := rfl
@[simp] theorem writeVal_uFc (s : State) (w : Word) : (s.writeVal w).uFc = s.uFc := rfl
@[simp] theorem writeVal_uReg (s : State) (w : Word) : (s.writeVal w).uReg = s.uReg := rfl
@[simp] theorem writeVal_uVal (s : State) (w : Word) : (s.writeVal w).uVal = s.uVal := rfl
@[simp] theorem writeVal_err (s : State) (w : Word) : (s.writeVal w).err = s.err := rfl
@[simp] theorem writeVal_vfy (s : State) (w : Word) : (s.writeVal w).vfy = s.vfy := rfl
@[simp] theorem writeVal_valid (s : State) (w : Word) : (s.writeVal w).valid = s.valid := rfl
@[simp] theorem writeVal_conn (s : State) (w : Word) : (s.writeVal w).conn = s.conn := rfl
@[simp] theorem writeVal_decOk (s : State) (w : Word) : (s.writeVal w).decOk = s.decOk := rfl
@[simp] theorem writeVal_ill (s : State) (w : Word) : (s.writeVal w).ill = s.ill := rfl
@[simp] theorem writeVal_mv (s : State) (w : Word) : (s.writeVal w).mv = s.mv := rfl
@[simp] theorem writeVal_mi (s : State) (w : Word) : (s.writeVal w).mi = s.mi := rfl
@[simp] theorem writeVal_mp (s : State) (w : Word) : (s.writeVal w).mp = s.mp := rfl
@[simp] theorem writeVal_me (s : State) (w : Word) : (s.writeVal w).me = s.me := rfl
@[simp] theorem writeVal_alh (s : State) (w : Word) : (s.writeVal w).alh = s.alh := rfl
@[simp] theorem writeVal_all (s : State) (w : Word) : (s.writeVal w).all = s.all := rfl
@[simp] theorem writeVal_phv (s : State) (w : Word) : (s.writeVal w).phv = s.phv := rfl
@[simp] theorem writeVal_plv (s : State) (w : Word) : (s.writeVal w).plv = s.plv := rfl
@[simp] theorem writeVal_pAddr (s : State) (w : Word) : (s.writeVal w).pAddr = s.pAddr := rfl
@[simp] theorem writeVal_pShunt (s : State) (w : Word) : (s.writeVal w).pShunt = s.pShunt := rfl
@[simp] theorem writeVal_pending (s : State) (w : Word) : (s.writeVal w).pending = s.pending := rfl
@[simp] theorem writeVal_reads (s : State) (w : Word) : (s.writeVal w).reads = s.reads := rfl
@[simp] theorem writeVal_draws (s : State) (w : Word) : (s.writeVal w).draws = s.draws := rfl

end Sys2Proof.Machine.State
end

