-- ==== Sys2Proof/Laws/Ops.lean ====
section
/-! SUPPORT. What the shared operations over BUF and the flags do: reads of written bytes, the frame and the effect of
`storeBytes`, ERR and the flags PARSE derives from it. -/

namespace Sys2Proof.Machine.State

/-- A byte something has written reads as that byte, whichever draw reads it. -/
theorem byteAt_of_written {s : State} {i : Nat} {b : Byte} (h : Memory.get? s.buf i = some b) (k : Nat) :
    s.byteAt k i = b := by
  simp [byteAt, h]

/-- Reads of written bytes do not depend on the draw. -/
theorem byteAt_draw {s : State} {i : Nat} (h : (Memory.get? s.buf i).isSome = true) (k k' : Nat) :
    s.byteAt k i = s.byteAt k' i := by
  obtain ⟨b, hb⟩ := Option.isSome_iff_exists.1 h
  rw [byteAt_of_written hb, byteAt_of_written hb]

/-- A read of a byte depends on the byte and the draw counter alone. -/
theorem byteAt_congr {s t : State} {i : Nat} (k : Nat) (hb : Memory.get? t.buf i = Memory.get? s.buf i)
    (hd : t.draws = s.draws) : t.byteAt k i = s.byteAt k i := by
  simp [byteAt, hb, hd]

@[simp] theorem byteAt_setByte_self (s : State) (k i : Nat) (b : Byte) : (s.setByte i b).byteAt k i = b :=
  byteAt_of_written (Memory.get?_set_self s.buf i b) k

theorem byteAt_setByte_ne (s : State) (k : Nat) {i j : Nat} (b : Byte) (h : j ≠ i) :
    (s.setByte i b).byteAt k j = s.byteAt k j :=
  byteAt_congr k (Memory.get?_set_ne s.buf b h) rfl

@[simp] theorem bytes_length (s : State) (k a b : Nat) : (s.bytes k a b).length = b - a := by
  simp [bytes]

theorem bytes_getElem (s : State) (k a b j : Nat) (h : j < (s.bytes k a b).length) :
    (s.bytes k a b)[j] = s.byteAt k (a + j) := by
  simp [bytes]

theorem bytes_congr {s t : State} {k k' a b : Nat} (h : ∀ i, a ≤ i → i < b → t.byteAt k' i = s.byteAt k i) :
    t.bytes k' a b = s.bytes k a b := by
  apply List.ext_getElem
  · simp
  · intro j h1 _
    rw [bytes_getElem, bytes_getElem]
    rw [bytes_length] at h1
    exact h _ (by omega) (by omega)

/-- A non-empty range, one byte at a time. -/
theorem bytes_succ (s : State) (k a b : Nat) (h : a < b) :
    s.bytes k a b = s.byteAt k a :: s.bytes k (a + 1) b := by
  have hb : b - a = (b - (a + 1)) + 1 := by omega
  simp only [bytes, hb, List.range_succ_eq_map, List.map_cons, List.map_map, Nat.add_zero]
  congr 1
  apply List.map_congr_left
  intro j _
  simp only [Function.comp_apply]
  congr 1
  omega

@[simp] theorem bytes_empty (s : State) (k a : Nat) : s.bytes k a a = [] := by
  simp [bytes]

/-- `storeBytes` changes BUF and nothing else. -/
theorem storeBytes_frame (s : State) (i : Nat) (bs : List Byte) :
    ∃ m, s.storeBytes i bs = { s with buf := m } := by
  induction bs generalizing s i with
  | nil => exact ⟨s.buf, rfl⟩
  | cons b bs ih =>
    obtain ⟨m, hm⟩ := ih (s.setByte i b) (i + 1)
    exact ⟨m, by rw [storeBytes, hm]; rfl⟩

/-- What `storeBytes` stores, and that every other byte stays. -/
theorem storeBytes_get? (s : State) (i : Nat) (bs : List Byte) (j : Nat) :
    Memory.get? (s.storeBytes i bs).buf j =
      if i ≤ j ∧ j < i + bs.length then bs[j - i]? else Memory.get? s.buf j := by
  induction bs generalizing s i with
  | nil => simp [storeBytes]
  | cons b bs ih =>
    rw [storeBytes, ih, setByte_buf, Memory.get?_set, List.length_cons]
    by_cases h1 : j = i
    · subst h1; simp
    · by_cases h2 : i + 1 ≤ j ∧ j < i + 1 + bs.length
      · rw [if_pos h2, if_pos (by omega)]
        obtain ⟨d, hd⟩ : ∃ d, j - i = d + 1 := ⟨j - i - 1, by omega⟩
        rw [hd, List.getElem?_cons_succ]
        congr 1; omega
      · rw [if_neg h2, if_neg h1, if_neg (by omega)]

/-- Stores inside BUF keep the canonical form. -/
theorem storeBytes_wf (s : State) (i : Nat) (bs : List Byte) (h : Memory.wf s.buf = true)
    (hi : i + bs.length ≤ Config.bufCap) : Memory.wf (s.storeBytes i bs).buf = true := by
  induction bs generalizing s i with
  | nil => exact h
  | cons b bs ih =>
    rw [List.length_cons] at hi
    exact ih (s.setByte i b) (i + 1) (Memory.wf_set b h (by omega)) (by omega)

/-- A byte stored by `storeBytes` reads back, whichever draw reads it. -/
theorem byteAt_storeBytes (s : State) (k i j : Nat) (bs : List Byte) {b : Byte} (hi : i ≤ j)
    (hb : bs[j - i]? = some b) : (s.storeBytes i bs).byteAt k j = b := by
  apply byteAt_of_written
  obtain ⟨hl, _⟩ := List.getElem?_eq_some_iff.1 hb
  rw [storeBytes_get?, if_pos ⟨hi, by omega⟩, hb]

@[simp] theorem storeBytes_addr (s : State) (i : Nat) (bs : List Byte) : (s.storeBytes i bs).addr = s.addr := by
  obtain ⟨m, hm⟩ := s.storeBytes_frame i bs; rw [hm]
@[simp] theorem storeBytes_bcast (s : State) (i : Nat) (bs : List Byte) : (s.storeBytes i bs).bcast = s.bcast := by
  obtain ⟨m, hm⟩ := s.storeBytes_frame i bs; rw [hm]
@[simp] theorem storeBytes_fc (s : State) (i : Nat) (bs : List Byte) : (s.storeBytes i bs).fc = s.fc := by
  obtain ⟨m, hm⟩ := s.storeBytes_frame i bs; rw [hm]
@[simp] theorem storeBytes_reg (s : State) (i : Nat) (bs : List Byte) : (s.storeBytes i bs).reg = s.reg := by
  obtain ⟨m, hm⟩ := s.storeBytes_frame i bs; rw [hm]
@[simp] theorem storeBytes_val (s : State) (i : Nat) (bs : List Byte) : (s.storeBytes i bs).val = s.val := by
  obtain ⟨m, hm⟩ := s.storeBytes_frame i bs; rw [hm]
@[simp] theorem storeBytes_blen (s : State) (i : Nat) (bs : List Byte) : (s.storeBytes i bs).blen = s.blen := by
  obtain ⟨m, hm⟩ := s.storeBytes_frame i bs; rw [hm]
@[simp] theorem storeBytes_crc (s : State) (i : Nat) (bs : List Byte) : (s.storeBytes i bs).crc = s.crc := by
  obtain ⟨m, hm⟩ := s.storeBytes_frame i bs; rw [hm]
@[simp] theorem storeBytes_expLen (s : State) (i : Nat) (bs : List Byte) : (s.storeBytes i bs).expLen = s.expLen := by
  obtain ⟨m, hm⟩ := s.storeBytes_frame i bs; rw [hm]
@[simp] theorem storeBytes_rAddr (s : State) (i : Nat) (bs : List Byte) : (s.storeBytes i bs).rAddr = s.rAddr := by
  obtain ⟨m, hm⟩ := s.storeBytes_frame i bs; rw [hm]
@[simp] theorem storeBytes_rFc (s : State) (i : Nat) (bs : List Byte) : (s.storeBytes i bs).rFc = s.rFc := by
  obtain ⟨m, hm⟩ := s.storeBytes_frame i bs; rw [hm]
@[simp] theorem storeBytes_uAddr (s : State) (i : Nat) (bs : List Byte) : (s.storeBytes i bs).uAddr = s.uAddr := by
  obtain ⟨m, hm⟩ := s.storeBytes_frame i bs; rw [hm]
@[simp] theorem storeBytes_uFc (s : State) (i : Nat) (bs : List Byte) : (s.storeBytes i bs).uFc = s.uFc := by
  obtain ⟨m, hm⟩ := s.storeBytes_frame i bs; rw [hm]
@[simp] theorem storeBytes_uReg (s : State) (i : Nat) (bs : List Byte) : (s.storeBytes i bs).uReg = s.uReg := by
  obtain ⟨m, hm⟩ := s.storeBytes_frame i bs; rw [hm]
@[simp] theorem storeBytes_uVal (s : State) (i : Nat) (bs : List Byte) : (s.storeBytes i bs).uVal = s.uVal := by
  obtain ⟨m, hm⟩ := s.storeBytes_frame i bs; rw [hm]
@[simp] theorem storeBytes_err (s : State) (i : Nat) (bs : List Byte) : (s.storeBytes i bs).err = s.err := by
  obtain ⟨m, hm⟩ := s.storeBytes_frame i bs; rw [hm]
@[simp] theorem storeBytes_vfy (s : State) (i : Nat) (bs : List Byte) : (s.storeBytes i bs).vfy = s.vfy := by
  obtain ⟨m, hm⟩ := s.storeBytes_frame i bs; rw [hm]
@[simp] theorem storeBytes_valid (s : State) (i : Nat) (bs : List Byte) : (s.storeBytes i bs).valid = s.valid := by
  obtain ⟨m, hm⟩ := s.storeBytes_frame i bs; rw [hm]
@[simp] theorem storeBytes_conn (s : State) (i : Nat) (bs : List Byte) : (s.storeBytes i bs).conn = s.conn := by
  obtain ⟨m, hm⟩ := s.storeBytes_frame i bs; rw [hm]
@[simp] theorem storeBytes_decOk (s : State) (i : Nat) (bs : List Byte) : (s.storeBytes i bs).decOk = s.decOk := by
  obtain ⟨m, hm⟩ := s.storeBytes_frame i bs; rw [hm]
@[simp] theorem storeBytes_ill (s : State) (i : Nat) (bs : List Byte) : (s.storeBytes i bs).ill = s.ill := by
  obtain ⟨m, hm⟩ := s.storeBytes_frame i bs; rw [hm]
@[simp] theorem storeBytes_mv (s : State) (i : Nat) (bs : List Byte) : (s.storeBytes i bs).mv = s.mv := by
  obtain ⟨m, hm⟩ := s.storeBytes_frame i bs; rw [hm]
@[simp] theorem storeBytes_mi (s : State) (i : Nat) (bs : List Byte) : (s.storeBytes i bs).mi = s.mi := by
  obtain ⟨m, hm⟩ := s.storeBytes_frame i bs; rw [hm]
@[simp] theorem storeBytes_mp (s : State) (i : Nat) (bs : List Byte) : (s.storeBytes i bs).mp = s.mp := by
  obtain ⟨m, hm⟩ := s.storeBytes_frame i bs; rw [hm]
@[simp] theorem storeBytes_me (s : State) (i : Nat) (bs : List Byte) : (s.storeBytes i bs).me = s.me := by
  obtain ⟨m, hm⟩ := s.storeBytes_frame i bs; rw [hm]
@[simp] theorem storeBytes_alh (s : State) (i : Nat) (bs : List Byte) : (s.storeBytes i bs).alh = s.alh := by
  obtain ⟨m, hm⟩ := s.storeBytes_frame i bs; rw [hm]
@[simp] theorem storeBytes_all (s : State) (i : Nat) (bs : List Byte) : (s.storeBytes i bs).all = s.all := by
  obtain ⟨m, hm⟩ := s.storeBytes_frame i bs; rw [hm]
@[simp] theorem storeBytes_phv (s : State) (i : Nat) (bs : List Byte) : (s.storeBytes i bs).phv = s.phv := by
  obtain ⟨m, hm⟩ := s.storeBytes_frame i bs; rw [hm]
@[simp] theorem storeBytes_plv (s : State) (i : Nat) (bs : List Byte) : (s.storeBytes i bs).plv = s.plv := by
  obtain ⟨m, hm⟩ := s.storeBytes_frame i bs; rw [hm]
@[simp] theorem storeBytes_pAddr (s : State) (i : Nat) (bs : List Byte) : (s.storeBytes i bs).pAddr = s.pAddr := by
  obtain ⟨m, hm⟩ := s.storeBytes_frame i bs; rw [hm]
@[simp] theorem storeBytes_pShunt (s : State) (i : Nat) (bs : List Byte) : (s.storeBytes i bs).pShunt = s.pShunt := by
  obtain ⟨m, hm⟩ := s.storeBytes_frame i bs; rw [hm]
@[simp] theorem storeBytes_pending (s : State) (i : Nat) (bs : List Byte) : (s.storeBytes i bs).pending = s.pending := by
  obtain ⟨m, hm⟩ := s.storeBytes_frame i bs; rw [hm]
@[simp] theorem storeBytes_reads (s : State) (i : Nat) (bs : List Byte) : (s.storeBytes i bs).reads = s.reads := by
  obtain ⟨m, hm⟩ := s.storeBytes_frame i bs; rw [hm]
@[simp] theorem storeBytes_draws (s : State) (i : Nat) (bs : List Byte) : (s.storeBytes i bs).draws = s.draws := by
  obtain ⟨m, hm⟩ := s.storeBytes_frame i bs; rw [hm]

/-- A byte `storeBytes` does not store reads as before. -/
theorem byteAt_storeBytes_other (s : State) (k i j : Nat) (bs : List Byte) (h : ¬ (i ≤ j ∧ j < i + bs.length)) :
    (s.storeBytes i bs).byteAt k j = s.byteAt k j :=
  byteAt_congr k (by rw [storeBytes_get?, if_neg h]) (by simp)

@[simp] theorem errIsOk_raise (s : State) (e : Err) : (s.raise e).errIsOk = (e == .ok) := by
  cases e <;> rfl

@[simp] theorem errIsOk_setResponse (s : State) (a f : Byte) : (s.setResponse a f).errIsOk = s.errIsOk := rfl

@[simp] theorem errIsOk_setBlen (s : State) (n : Nat) : (s.setBlen n).errIsOk = s.errIsOk := rfl

theorem errIsOk_iff (s : State) : s.errIsOk = true ↔ s.err = Err.ok.code := by
  simp [errIsOk]

theorem setBlen_toNat (s : State) {n : Nat} (h : n < 512) : (s.setBlen n).blen.toNat = n := by
  simp only [setBlen_blen, BitVec.toNat_ofNat]
  omega

end Sys2Proof.Machine.State
end

