-- ==== Sys2Proof/Laws/Registers.lean ====
section
/-! SUPPORT. The register map: every register is found at its offset and nowhere else, and what a host write can do. -/

namespace Sys2Proof.Machine

/-- The bits of a field placed in a register word. -/
theorem getLsbD_fieldAt (n : Nat) {m : Nat} (v : BitVec m) (i : Nat) :
    (fieldAt n v).getLsbD i = (decide (i < 32) && decide (n ≤ i) && v.getLsbD (i - n)) := by
  unfold fieldAt
  rw [BitVec.getLsbD_shiftLeft, BitVec.getLsbD_setWidth]
  by_cases h : i < 32
  · by_cases h' : n ≤ i
    · simp [h, h', show ¬ i < n by omega, show i - n < 32 by omega]
    · simp [h', show i < n by omega]
  · simp [h]

@[simp] theorem regAt?_offset (r : RegName) : regAt? r.offset = some r := by
  cases r <;> decide

theorem offset_of_regAt? {off : Nat} {r : RegName} (h : regAt? off = some r) : r.offset = off := by
  simpa using List.find?_some h

theorem regAt?_eq_some_iff {off : Nat} {r : RegName} : regAt? off = some r ↔ r.offset = off :=
  ⟨offset_of_regAt?, fun h => h ▸ regAt?_offset r⟩

theorem offset_aligned (r : RegName) : r.offset % 4 = 0 := by cases r <;> rfl

theorem offset_le (r : RegName) : r.offset ≤ 0x050 := by cases r <;> decide

namespace State

/-- A host write of BLEN is accepted, or ignored entirely (R36). -/
theorem writeBlen_cases (s : State) (w : Word) :
    ((w.extractLsb' 0 9).toNat ≤ Config.bufCap ∧
        s.writeBlen w = (s.setBlen (w.extractLsb' 0 9).toNat).setValid false) ∨
      (Config.bufCap < (w.extractLsb' 0 9).toNat ∧ s.writeBlen w = s) := by
  unfold writeBlen
  by_cases h : (w.extractLsb' 0 9).toNat ≤ Config.bufCap
  · exact .inl ⟨h, if_pos h⟩
  · exact .inr ⟨by omega, if_neg h⟩

/-- What a host write of a register other than CMD can do: five registers take it, the others ignore it (R21). -/
theorem writeReg_cases (s : State) (w : Word) (r : RegName) :
    (r = .addr ∧ s.writeReg w r = s.writeAddr w) ∨ (r = .fc ∧ s.writeReg w r = s.writeFc w) ∨
      (r = .reg ∧ s.writeReg w r = s.writeRegField w) ∨ (r = .val ∧ s.writeReg w r = s.writeVal w) ∨
      (r = .blen ∧ s.writeReg w r = s.writeBlen w) ∨ s.writeReg w r = s := by
  cases r <;> simp [writeReg]

/-- An 8-bit write in the upper space stores a byte of BUF and clears VALID, or is ignored (R63, R65). -/
theorem writeBufSpace_cases (s : State) (i : Nat) (b : Byte) :
    (i < Config.bufCap ∧ s.writeBufSpace i b = (s.setByte i b).setValid false) ∨
      (Config.bufCap ≤ i ∧ s.writeBufSpace i b = s) := by
  unfold writeBufSpace
  by_cases h : i < Config.bufCap
  · exact .inl ⟨h, if_pos h⟩
  · exact .inr ⟨by omega, if_neg h⟩

/-- A host write of a register other than CMD changes the operand registers, BLEN and VALID at most (R21, R36). -/
theorem writeReg_frame (s : State) (w : Word) (r : RegName) :
    ∃ a b f g v n d,
      s.writeReg w r = { s with addr := a, bcast := b, fc := f, reg := g, val := v, blen := n, valid := d } := by
  cases r <;> try exact ⟨_, _, _, _, _, _, _, rfl⟩
  obtain ⟨_, h⟩ | ⟨_, h⟩ := s.writeBlen_cases w <;> exact ⟨_, _, _, _, _, _, _, h⟩

/-- An 8-bit write in the upper space changes BUF and VALID at most (R63, R65). -/
theorem writeBufSpace_frame (s : State) (i : Nat) (b : Byte) :
    ∃ m d, s.writeBufSpace i b = { s with buf := m, valid := d } := by
  obtain ⟨_, h⟩ | ⟨_, h⟩ := s.writeBufSpace_cases i b <;> exact ⟨_, _, h⟩

end State

end Sys2Proof.Machine
end

