-- ==== Sys2Proof/Laws/Access.lean ====
section
/-! SUPPORT. Inversion: everything a host access, an event and a step can do when they answer a next state. -/

namespace Sys2Proof.Machine

/-- A read that answers is a register read or a read of the BUF space; it adds its value to the read log. -/
theorem performRead_cases {off n : Nat} {s t : State} (h : performRead off n s = .next t) :
    (off < bufBase ∧ n = 4 ∧ off % 4 = 0 ∧ t = s.logRead (.word (s.readRegSpace off))) ∨
      ∃ i, off = bufBase + i ∧ off < windowSize ∧ n = 1 ∧ t = (s.logRead (.byte (s.readBufSpace i))).drew 1 := by
  unfold performRead at h
  split_ifs at h with h1 h2 h3 h3
  · injection h with h; exact .inl ⟨h2, h3.1, h3.2, h.symm⟩
  · injection h with h; exact .inr ⟨off - bufBase, by omega, by omega, h3, h.symm⟩

/-- A 32-bit read at a register's offset answers with the register (R62). -/
theorem performRead_offset (r : RegName) (s : State) :
    performRead r.offset 4 s = .next (s.logRead (.word (s.readReg r))) := by
  have h := offset_le r
  unfold performRead State.readRegSpace
  rw [if_neg (by unfold windowSize; omega), if_pos (by unfold bufBase; omega), if_pos ⟨rfl, offset_aligned r⟩,
    regAt?_offset]

/-- A register-space write that answers started an operation, wrote a register, or hit a reserved offset. -/
theorem writeRegSpace_cases {off : Nat} {w : Word} {s t : State} (h : writeRegSpace off w s = .next t) :
    (off = RegName.cmd.offset ∧ exec (decodeCmd w) s = .next t) ∨
      (∃ r, r ≠ .cmd ∧ off = r.offset ∧ t = s.writeReg w r) ∨ (regAt? off = none ∧ t = s) := by
  cases hr : regAt? off with
  | none =>
    rw [writeRegSpace, hr] at h
    injection h with h
    exact .inr (.inr ⟨rfl, h.symm⟩)
  | some r =>
    have hoff := (offset_of_regAt? hr).symm
    rw [writeRegSpace, hr] at h
    by_cases hc : r = .cmd
    · subst hc; exact .inl ⟨hoff, h⟩
    · refine .inr (.inl ⟨r, hc, hoff, ?_⟩)
      cases r <;> first | exact absurd rfl hc | (injection h with h; exact h.symm)

/-- A write that answers: an operation, a register, a reserved register offset, or the BUF space. -/
theorem performWrite_cases {off n v : Nat} {s t : State} (h : performWrite off n v s = .next t) :
    (off = RegName.cmd.offset ∧ n = 4 ∧ exec (decodeCmd (BitVec.ofNat 32 v)) s = .next t) ∨
      (∃ r, r ≠ .cmd ∧ off = r.offset ∧ n = 4 ∧ t = s.writeReg (BitVec.ofNat 32 v) r) ∨
      (regAt? off = none ∧ n = 4 ∧ t = s) ∨
      ∃ i, off = bufBase + i ∧ off < windowSize ∧ n = 1 ∧ t = s.writeBufSpace i (BitVec.ofNat 8 v) := by
  unfold performWrite at h
  split_ifs at h with h1 h2 h3 h3
  · obtain ⟨h4, h5⟩ | ⟨r, h4, h5, h6⟩ | ⟨h4, h5⟩ := writeRegSpace_cases h
    · exact .inl ⟨h4, h3.1, h5⟩
    · exact .inr (.inl ⟨r, h4, h5, h3.1, h6⟩)
    · exact .inr (.inr (.inl ⟨h4, h3.1, h5⟩))
  · injection h with h
    exact .inr (.inr (.inr ⟨off - bufBase, by omega, by omega, h3, h.symm⟩))

/-- Everything a step can do when it answers: idle, reset, or one host access. -/
theorem step_cases {s t : State} (h : step s = .next t) :
    s.err.toNat ≤ 4 ∧
      ((s.pending = [] ∧ t = s) ∨
        ∃ e rest, s.pending = e :: rest ∧
          ((e = .reset ∧ t = State.resetBlock { s with pending := rest }) ∨
            ∃ a, e = .access a ∧ perform a { s with pending := rest } = .next t)) := by
  unfold step stepHost at h
  split_ifs at h with he
  refine ⟨by omega, ?_⟩
  cases hp : s.pending with
  | nil => rw [hp] at h; injection h with h; exact .inl ⟨rfl, h.symm⟩
  | cons e rest =>
    rw [hp] at h
    refine .inr ⟨e, rest, rfl, ?_⟩
    cases e with
    | access a => exact .inr ⟨a, rfl, h⟩
    | concurrent a b => cases h
    | reset => injection h with h; exact .inl ⟨rfl, h.symm⟩

end Sys2Proof.Machine
end

