-- ==== Sys2Proof/Laws/Crc.lean ====
section
/-! SUPPORT. The checksum byte by byte: folding over an append, and that a byte's eight rounds lose nothing. -/

namespace Sys2Proof.Machine

@[simp] theorem crcFrom_nil (r : Half) : crcFrom r [] = r := rfl

@[simp] theorem crcFrom_cons (r : Half) (b : Byte) (d : List Byte) : crcFrom r (b :: d) = crcFrom (crcByte r b) d := rfl

theorem crcFrom_append (r : Half) (d e : List Byte) : crcFrom r (d ++ e) = crcFrom (crcFrom r d) e := by
  simp [crcFrom]

theorem crc16_append (d e : List Byte) : crc16 (d ++ e) = crcFrom (crc16 d) e := crcFrom_append _ d e

/-- Two different registers differ after one round: CRC_POLY has bit 15 set, so the bit shifted out stays visible. -/
theorem crcBit_injective : Function.Injective crcBit := by
  intro a b h
  have key : ∀ i, i < 16 → a.getLsbD i = b.getLsbD i := by
    have hbit : ∀ i, (crcBit a).getLsbD i = (crcBit b).getLsbD i := fun i => by rw [h]
    have h15 := hbit 15
    have h0 : a.getLsbD 0 = b.getLsbD 0 := by
      unfold crcBit at h15
      split_ifs at h15 with ha hb hb
      · rw [ha, hb]
      · simp [Config.crcPoly] at h15
      · simp [Config.crcPoly] at h15
      · simp_all
    intro i hi
    cases i with
    | zero => exact h0
    | succ n =>
      have hn := hbit n
      unfold crcBit at hn
      rw [h0] at hn
      split_ifs at hn with hb
      · simp only [BitVec.getLsbD_xor, BitVec.getLsbD_ushiftRight, Bool.bne_left_inj] at hn
        rwa [Nat.add_comm 1 n] at hn
      · simp only [BitVec.getLsbD_ushiftRight] at hn
        rwa [Nat.add_comm 1 n] at hn
  exact BitVec.eq_of_getLsbD_eq key

theorem crcRounds_injective (n : Nat) : Function.Injective (crcRounds n) := by
  induction n with
  | zero => exact fun a b h => h
  | succ n ih => exact fun a b h => crcBit_injective (ih h)

end Sys2Proof.Machine
end

