-- ==== Sys2Proof/Laws/FrameCodec.lean ====
section
/-! SUPPORT. The length of a response, and everything PARSE can do up to its closing flag writes. -/

namespace Sys2Proof.Machine

theorem frameTotal_bounds (p : Config.Params) (fc b2 : Byte) :
    5 ≤ frameTotal p fc b2 ∧ frameTotal p fc b2 ≤ Config.bufCap := by
  have := b2.isLt
  unfold frameTotal Config.bufCap
  split_ifs <;> omega

namespace State

/-- The three outcomes of PARSE on a delimited frame, in their order (R145, R215). -/
theorem judgeFrame_cases (s : State) (t : Nat) :
    ((s.setBlen t).crcOk 1 t = false ∧ s.judgeFrame t = (s.setBlen t).raise .checksumMismatch) ∨
      ((s.setBlen t).crcOk 1 t = true ∧ s.bcast = false ∧ s.byteAt 2 0 ≠ s.addr ∧
        s.judgeFrame t = (s.setBlen t).raise .addressMismatch) ∨
      ((s.setBlen t).crcOk 1 t = true ∧ (s.bcast = true ∨ s.byteAt 2 0 = s.addr) ∧
        s.judgeFrame t = ((s.setBlen t).raise .ok).setResponse (s.byteAt 3 0) (s.byteAt 3 1)) := by
  have hb : ∀ k i, (s.setBlen t).byteAt k i = s.byteAt k i := fun _ _ => rfl
  unfold judgeFrame
  cases hc : (s.setBlen t).crcOk 1 t with
  | false => exact .inl ⟨rfl, by simp [hc]⟩
  | true =>
    simp only [hc, Bool.not_true, Bool.false_eq_true, if_false, hb, setBlen_bcast, setBlen_addr, true_and,
      Bool.true_eq_false, false_and, false_or]
    cases hbc : s.bcast with
    | true => exact .inr (by simp)
    | false =>
      by_cases ha : s.byteAt 2 0 = s.addr
      · exact .inr (by simp [ha])
      · exact .inl (by simp [ha])

/-- Everything PARSE can do before its closing flag writes, in the order of its checks (R145). -/
theorem parseFrame_cases (s : State) :
    (s.blen.toNat = 0 ∧ s.parseFrame = s.raise .timeout) ∨
      (1 ≤ s.blen.toNat ∧ s.blen.toNat ≤ 4 ∧ s.parseFrame = s.raise .malformedFrame) ∨
      (5 ≤ s.blen.toNat ∧ s.blen.toNat < frameTotal Config.params (s.byteAt 0 1) (s.byteAt 0 2) ∧
        s.parseFrame = s.raise .timeout) ∨
      (5 ≤ s.blen.toNat ∧ frameTotal Config.params (s.byteAt 0 1) (s.byteAt 0 2) ≤ s.blen.toNat ∧
        s.parseFrame = s.judgeFrame (frameTotal Config.params (s.byteAt 0 1) (s.byteAt 0 2))) := by
  unfold parseFrame Config.minRespLen
  split_ifs with h1 h2 h3
  · exact .inl ⟨h1, rfl⟩
  · exact .inr (.inl ⟨by omega, by omega, rfl⟩)
  · exact .inr (.inr (.inl ⟨by omega, h3, rfl⟩))
  · exact .inr (.inr (.inr ⟨by omega, by omega, rfl⟩))

/-- PARSE before its closing flag writes changes ERR, BLEN, R_ADDR and R_FC at most (R145). -/
theorem parseFrame_frame (s : State) :
    ∃ e n a f, s.parseFrame = { s with err := e, blen := n, rAddr := a, rFc := f } := by
  obtain ⟨_, h⟩ | ⟨_, _, h⟩ | ⟨_, _, h⟩ | ⟨_, _, h⟩ := parseFrame_cases s
  · exact ⟨_, _, _, _, h⟩
  · exact ⟨_, _, _, _, h⟩
  · exact ⟨_, _, _, _, h⟩
  · rw [h]
    obtain ⟨_, h⟩ | ⟨_, _, _, h⟩ | ⟨_, _, h⟩ :=
      judgeFrame_cases s (frameTotal Config.params (s.byteAt 0 1) (s.byteAt 0 2)) <;>
    exact ⟨_, _, _, _, h⟩

end State

end Sys2Proof.Machine
end

