-- ==== Sys2Proof/Laws/PerInstr.lean ====
section
/-! SUPPORT. Statements made instruction by instruction: every well-formed operation's CMD word has its ignored bits 0 and
decodes to it. -/

namespace Sys2Proof.Laws.DecodeEncode

/-- The CMD word of `i` is its code alone, and the decoder reads `i` from it (R80, R82). -/
def Statement (i : Instr) : Prop := i.wellFormed = true ∧ (encode i).toNat < 16 ∧ decodeCmd (encode i) = i

theorem nop : Statement .nop := ⟨rfl, by decide, rfl⟩
theorem crcCompute : Statement .crcCompute := ⟨rfl, by decide, rfl⟩
theorem crcVerify : Statement .crcVerify := ⟨rfl, by decide, rfl⟩
theorem encode : Statement .encode := ⟨rfl, by decide, rfl⟩
theorem framelen : Statement .framelen := ⟨rfl, by decide, rfl⟩
theorem parse : Statement .parse := ⟨rfl, by decide, rfl⟩
theorem decMeas : Statement .decMeas := ⟨rfl, by decide, rfl⟩
theorem decParam : Statement .decParam := ⟨rfl, by decide, rfl⟩
theorem unpack : Statement .unpack := ⟨rfl, by decide, rfl⟩
theorem reserved9 : Statement .reserved9 := ⟨rfl, by decide, rfl⟩
theorem reservedA : Statement .reservedA := ⟨rfl, by decide, rfl⟩
theorem reservedB : Statement .reservedB := ⟨rfl, by decide, rfl⟩
theorem reservedC : Statement .reservedC := ⟨rfl, by decide, rfl⟩
theorem reservedD : Statement .reservedD := ⟨rfl, by decide, rfl⟩
theorem reservedE : Statement .reservedE := ⟨rfl, by decide, rfl⟩
theorem reservedF : Statement .reservedF := ⟨rfl, by decide, rfl⟩

end Sys2Proof.Laws.DecodeEncode
end

