-- ==== Sys2Proof/Tests/Slice0.lean ====
section
/-! SUPPORT. Tests: decoding of words written out from the spec's encodings, the well-formedness smoke, vectors of spec/95
(one step each), and for each statement with hypotheses a state and operands that meet them all. -/

-- The tests are checked one after another: each `decide +kernel` would otherwise hold a thread of its own.
set_option Elab.async false

namespace Sys2Proof.Tests

open Sys2Proof Sys2Proof.Machine

/-! ## Helpers -/

/-- The state a result answers, reset if it answers none. -/
def after (r : Result) : State :=
  match r with
  | .next t => t
  | .fault _ => State.reset
  | .refused _ => State.reset

/-- The result answers a next state. -/
def answers (r : Result) : Bool :=
  match r with
  | .next _ => true
  | .fault _ => false
  | .refused _ => false

/-- The refusal's name, if the result is one. -/
def refusal? (r : Result) : Option Refusal :=
  match r with
  | .next _ => none
  | .fault _ => none
  | .refused x => some x

theorem next_of_answers {r : Result} (h : answers r = true) : r = .next (after r) := by
  cases r <;> first | rfl | cases h

/-- Reset, with the bytes `d` loaded at BUF[0] and BLEN their number. -/
def holding (d : List Byte) : State := (State.reset.storeBytes 0 d).setBlen d.length

/-- The measurement frame of vector E4. -/
def frameM : List Byte :=
  [0x01, 0x04, 0x10, 0x04, 0xD2, 0x01, 0xF4, 0x00, 0x00, 0x05, 0xDC, 0x00, 0x00, 0x30, 0x39, 0xFF, 0xFF, 0x00, 0x00,
   0x0A, 0x02]

/-- The parameter frame of vector D-P1. -/
def frameP : List Byte := [0x01, 0x03, 0x08, 0x01, 0x2C, 0x00, 0x07, 0x00, 0x01, 0x00, 0x00, 0x5D, 0xD9]

/-- A host that has loaded `d` and addresses device 0x01. -/
def exchange (d : List Byte) : State := (holding d).writeAddr 0x001#32

/-- After PARSE of `d` from device 0x01. -/
def parsed (d : List Byte) : State := after (exec .parse (exchange d))

/-! ## Decoding: each row's word, from the map R82 -/

theorem test_decode_nop : decodeCmd 0b0000#32 = .nop := by decide
theorem test_decode_crcCompute : decodeCmd 0b0001#32 = .crcCompute := by decide
theorem test_decode_crcVerify : decodeCmd 0b0010#32 = .crcVerify := by decide
theorem test_decode_encode : decodeCmd 0b0011#32 = .encode := by decide
theorem test_decode_framelen : decodeCmd 0b0100#32 = .framelen := by decide
theorem test_decode_parse : decodeCmd 0b0101#32 = .parse := by decide
theorem test_decode_decMeas : decodeCmd 0b0110#32 = .decMeas := by decide
theorem test_decode_decParam : decodeCmd 0b0111#32 = .decParam := by decide
theorem test_decode_unpack : decodeCmd 0b1000#32 = .unpack := by decide
theorem test_decode_reserved9 : decodeCmd 0b1001#32 = .reserved9 := by decide
theorem test_decode_reservedA : decodeCmd 0b1010#32 = .reservedA := by decide
theorem test_decode_reservedB : decodeCmd 0b1011#32 = .reservedB := by decide
theorem test_decode_reservedC : decodeCmd 0b1100#32 = .reservedC := by decide
theorem test_decode_reservedD : decodeCmd 0b1101#32 = .reservedD := by decide
theorem test_decode_reservedE : decodeCmd 0b1110#32 = .reservedE := by decide
theorem test_decode_reservedF : decodeCmd 0b1111#32 = .reservedF := by decide

/-- Vectors 2.10: ignored bits. -/
theorem test_decode_ignores_upper_bits :
    decodeCmd 0x00000010#32 = .nop ∧ decodeCmd 0x1234567F#32 = .reservedF ∧ decodeCmd 0xFFFFFFF8#32 = .unpack := by decide

/-- What is longer than the one CMD format is rejected by name (R80). -/
theorem test_decode_rejects_longer : decodeBits 64 5 = .error (.longerThanCmdWord 64) ∧ decodeTableWord 64 5 = none := by
  exact ⟨rfl, rfl⟩

/-- The table's own form: 32 bits, the row's match. -/
theorem test_decodeTableWord : decodeTableWord 32 0x00000006 = some .decMeas ∧ decodeTableWord 4 0xF = some .reservedF := by
  decide

/-! ## Well-formedness smoke: an ill-formed term for each check, refused -/

/-- R64: an 8-bit and a 16-bit access to a register, a misaligned 32-bit access, 16-bit and 32-bit accesses to BUF, an
access that straddles the two areas, one outside the window. -/
theorem test_unsupported_accesses :
    (Access.read 0x004 1).supported = false ∧ (Access.read 0x004 2).supported = false ∧
    (Access.read 0x006 4).supported = false ∧ (Access.write 0x100 2 0).supported = false ∧
    (Access.read 0x100 4).supported = false ∧ (Access.read 0x0FE 4).supported = false ∧
    (Access.read 0x400 1).supported = false := by decide

theorem test_base_unaligned : baseAligned 0x40000200 = false ∧ baseAligned 0x40000400 = true := by decide

theorem test_write_data_too_wide : (Access.write 0x100 1 0x100).wellFormed = false := by decide

theorem test_lines_past_buf : (Line.wrb 260 0).wellFormed = false ∧ (Line.rdb 260).wellFormed = false ∧
    (Line.loadbuf (List.replicate 261 0)).wellFormed = false ∧ (Line.recv (List.replicate 261 0)).wellFormed = false := by
  decide +kernel

/-- R8: BCAST_ADDR inside 1..247, and function-code sets that meet. -/
theorem test_ill_formed_params :
    ({ Config.params with bcastAddr := 0x05#8 } : Config.Params).wellFormed = false ∧
    ({ Config.params with fcEchoSet := [0x03#8] } : Config.Params).wellFormed = false := by decide

theorem test_decided_params_wellFormed : Config.params.wellFormed = true := by decide

/-! ## Vectors of spec/95, one step each -/

/-- 2.1 C2. -/
theorem test_crcCompute : (after (exec .crcCompute (holding [0x31, 0x32, 0x33, 0x34, 0x35, 0x36, 0x37, 0x38, 0x39]))).crc =
    0x4B37#16 := by decide +kernel

/-- 2.1 C1. -/
theorem test_crcCompute_empty : (after (exec .crcCompute State.reset)).crc = 0xFFFF#16 := by decide +kernel

/-- 2.2 V5 and V7. -/
theorem test_crcVerify : (after (exec .crcVerify (holding [1, 4, 0, 0, 0, 8, 0xF1, 0xCC]))).vfy = true ∧
    (after (exec .crcVerify (holding [1, 4, 0, 0, 0, 8, 0xCC, 0xF1]))).vfy = false := by decide +kernel

/-- 2.2 V2 and V3. -/
theorem test_crcVerify_short : (after (exec .crcVerify (holding [0xFF]))).vfy = false ∧
    (after (exec .crcVerify (holding [0xFF, 0xFF]))).vfy = true := by decide +kernel

/-- 2.3 N6: ADDR is ignored under BCAST. -/
theorem test_encode_broadcast :
    (after (exec .encode { State.reset with addr := 0x37, bcast := true, fc := 0x03, val := 0x0004 })).bytes 0 0 8 =
      [0xF8, 0x03, 0x00, 0x00, 0x00, 0x04, 0x50, 0x60] := by decide +kernel

/-- 2.3 N8. -/
theorem test_encode :
    (after (exec .encode { State.reset with addr := 0x05, fc := 0x06, reg := 0x0002, val := 0x0005 })).bytes 0 0 8 =
      [0x05, 0x06, 0x00, 0x02, 0x00, 0x05, 0xE9, 0x8D] := by decide +kernel

/-- 2.4 L2, L3, L6, L8. -/
theorem test_framelen : (after (exec .framelen (holding [0x01, 0x04, 0x10]))).expLen = 5 ∧
    (after (exec .framelen (holding [0x01, 0x04, 0x10, 0x04, 0xD2]))).expLen = 21 ∧
    (after (exec .framelen (holding [0x05, 0x06, 0x00, 0x02, 0x00]))).expLen = 8 ∧
    (after (exec .framelen (holding [0x01, 0x03, 0xFF, 0x00, 0x00]))).expLen = 260 := by decide +kernel

/-- 2.5 P-8: the surplus is dropped. -/
theorem test_parse_ok : (parsed (frameM ++ [0xAA, 0xBB])).statusWord = 0x30 ∧
    (parsed (frameM ++ [0xAA, 0xBB])).blen = 21 ∧
    (parsed (frameM ++ [0xAA, 0xBB])).readReg .rsp = 0x0401 := by decide +kernel

/-- 2.5 P-1, P-3, P-5, P-9, P-11. -/
theorem test_parse_errors : (parsed []).statusWord = 0x01 ∧ (parsed (frameM.take 4)).statusWord = 0x04 ∧
    (parsed (frameM.take 5)).statusWord = 0x01 ∧ (parsed (frameM.set 20 0x03)).statusWord = 0x02 ∧
    (after (exec .parse ((holding frameM).writeAddr 0x002#32))).statusWord = 0x03 := by decide +kernel

/-- 2.7 D-M1. -/
theorem test_decMeas :
    (let t := after (exec .decMeas (parsed frameM)); [t.mv, t.mi, t.mp, t.me, t.readReg .malm]) =
      [0x414570A4, 0x40A00000, 0x43160000, 0x4640E400, 0x1] := by decide +kernel

/-- 2.7 D-R1. -/
theorem test_decMeas_refuses : (after (exec .decMeas (exchange frameM))).decOk = false := by decide +kernel

/-- 2.7 D-P1. -/
theorem test_decParam :
    (let t := after (exec .decParam (parsed frameP)); [t.phv, t.plv, t.readReg .pAddr, t.readReg .pShunt]) =
      [0x43960000, 0x40E00000, 0x1, 0x0] := by decide +kernel

/-- 2.7 D-R3. -/
theorem test_decParam_refuses : (after (exec .decParam (parsed frameM))).decOk = false := by decide +kernel

/-- 2.6 U1. -/
theorem test_unpack :
    (let t := after (exec .unpack (holding [0x05, 0x06, 0x00, 0x02, 0x00, 0x05, 0xE9, 0x8D]))
     [t.readReg .status, t.readReg .unpk0, t.readReg .unpk1]) = [0x08, 0x0605, 0x00050002] := by decide +kernel

/-- 2.6 U3. -/
theorem test_unpack_length_is_exact :
    (after (exec .unpack (holding [0x05, 0x06, 0x00, 0x02, 0x00, 0x05, 0xE9, 0x8D, 0x00]))).vfy = false := by decide +kernel

/-- R200's example, and P4 line 11. -/
theorem test_nop_clears_ill : (after (exec .nop { State.reset with ill := true })).statusWord = 0x00 ∧
    (after (exec .reserved9 { State.reset with vfy := true })).statusWord = 0x88 := by decide +kernel

/-- 2.8, both settings of FLOAT_ROUND. -/
theorem test_fx2f : fx2f .single 16777219 1 = 0x4B800002#32 ∧ fx2f .single 65535 10 = 0x45CCCC00#32 ∧
    fx2f .single 16777217 100 = 0x4823D70B#32 ∧ fx2f .double 16777217 100 = 0x4823D70A#32 := by decide +kernel

/-- 2.9, both settings of PAIR_ORDER. -/
theorem test_pair : pair .hiFirst 0x0000#16 0x05DC#16 = 1500 ∧ pair .loFirst 0x0000#16 0x05DC#16 = 98304000 := by
  decide +kernel

/-- 2.11: BLEN 300 is ignored, 260 and 0x205 are taken; ADDR reads back 0x1FF. -/
theorem test_host_writes :
    (State.reset.writeBlen 0x12C#32).blen = 0 ∧ (State.reset.writeBlen 0x104#32).blen = 260 ∧
    (State.reset.writeBlen 0x205#32).blen = 5 ∧
    (State.reset.writeAddr 0xFFFFFFFF#32).readReg .addr = 0x1FF := by decide +kernel

/-- 2.11: reserved offsets read 0, the two unsupported accesses are refused. -/
theorem test_host_accesses :
    (after (perform (.read 0x054 4) State.reset)).reads = [.word 0] ∧
    (after (perform (.read 0x3FC 1) State.reset)).reads = [.byte 0] ∧
    refusal? (perform (.read 0x100 4) State.reset) = some .unsupportedAccess ∧
    refusal? (perform (.write 0x004 1 0) State.reset) = some .unsupportedAccess ∧
    refusal? (perform (.read 0x400 1) State.reset) = some .outsideWindow := by decide +kernel

/-- R94: the transactions of program P1 line 4, in part. -/
theorem test_loadbuf_transactions : (Line.loadbuf [0x01, 0x04]).accesses =
    [.write 0x100 1 0x01, .write 0x101 1 0x04, .write 0x01C 4 2] := by decide +kernel

/-- The first step after reset runs the placed word: here a reserved code. -/
theorem test_withFetchWord : (after (step (State.reset.withFetchWord 32 0x9))).ill = true ∧
    (after (step (State.reset.withFetchWord 32 0x9))).pending = [] := by decide +kernel

/-! ## Witnesses: the hypotheses of the statements can be met, each clause at its boundary -/

theorem witness_EncodedOperationsDecode : Instr.parse.wellFormed = true := by decide

theorem witness_StepRunsTheDecodedOperation :
    (State.reset.withFetchWord 32 0x1234567F).err.toNat ≤ 4 ∧
    (State.reset.withFetchWord 32 0x1234567F).pending = .access (.write 0x000 4 0x1234567F) :: [] := by decide +kernel

theorem witness_EventsAreTakenInOrder :
    (let s : State := { State.reset with pending := [.access (.read 0x004 4), .reset] }
     answers (step s) = true ∧ s.pending = .access (.read 0x004 4) :: [.reset]) ∧
    answers (step State.reset) = true ∧ State.reset.pending = [] := by decide +kernel

theorem witness_StepsThatStop :
    4 < ({ State.reset with err := 5#3 } : State).err.toNat ∧
    (let s : State := { State.reset with err := 4#3, pending := [.concurrent (.read 0x004 4) (.read 0x004 4)] }
     s.err.toNat ≤ 4 ∧ s.pending = .concurrent (.read 0x004 4) (.read 0x004 4) :: []) := by decide +kernel

/-- The four address clauses at their boundaries, for base 0x1000. -/
theorem witness_IssueDecodesTheWindowOnly :
    (0x1000 ≤ 0x1000 ∧ 0x1000 < 0x1000 + 0x400) ∧ (0x1000 ≤ 0x13FF ∧ 0x13FF < 0x1000 + 0x400) ∧ 0xFFF < 0x1000 ∧
    0x1000 + 0x400 ≤ 0x1400 := by decide

theorem witness_EveryStepKeepsTheInvariant : State.reset.Inv ∧
    step (State.reset.withFetchWord 32 5) = .next (after (step (State.reset.withFetchWord 32 5))) := by
  refine ⟨?_, next_of_answers (by decide +kernel)⟩
  constructor <;> first | decide | simp [State.reset, Block.reset]

/-- The clauses on other operations and on accesses that start none. -/
theorem witness_ErrIsWrittenOnlyByParse :
    answers (exec .parse State.reset) = true ∧ Instr.nop ≠ .parse ∧ answers (exec .nop State.reset) = true ∧
    (Access.read 0x004 4).isCmdWrite = false ∧ answers (perform (.read 0x004 4) State.reset) = true ∧
    (Access.write 0x008 4 1).isCmdWrite = false ∧ answers (perform (.write 0x008 4 1) State.reset) = true := by
  decide +kernel

theorem witness_VfyIsWrittenOnlyByVerifyAndUnpack :
    Instr.encode ≠ .crcVerify ∧ Instr.encode ≠ .unpack ∧ answers (exec .encode State.reset) = true ∧
    (Access.write 0x01C 4 3).isCmdWrite = false ∧ answers (perform (.write 0x01C 4 3) State.reset) = true := by
  decide +kernel

/-- Every clause: the operations, BLEN at 260 and 261, BUF at both ends, writes just outside them. -/
theorem witness_ValidIsClearedByEveryChangeOfTheFrame :
    answers (exec .parse State.reset) = true ∧ answers (exec .encode State.reset) = true ∧
    answers (exec .nop State.reset) = true ∧
    answers (perform (.write 0x01C 4 260) State.reset) = true ∧
    answers (perform (.write 0x01C 4 261) State.reset) = true ∧
    answers (perform (.write (0x100 + 0) 1 7) State.reset) = true ∧
    answers (perform (.write (0x100 + 259) 1 7) State.reset) = true ∧
    answers (perform (.write 0x204 1 7) State.reset) = true ∧ answers (perform (.write 0x0FC 4 7) State.reset) = true ∧
    answers (perform (.read 0x203 1) State.reset) = true := by decide +kernel

theorem witness_ConnIsWrittenOnlyByParse :
    Instr.encode ≠ .parse ∧ answers (exec .encode State.reset) = true ∧
    (Access.write 0x203 1 3).isCmdWrite = false ∧ answers (perform (.write 0x203 1 3) State.reset) = true := by
  decide +kernel

theorem witness_DecOkIsWrittenOnlyByDecoders :
    Instr.parse ≠ .decMeas ∧ Instr.parse ≠ .decParam ∧ answers (exec .parse State.reset) = true ∧
    (Access.read 0x100 1).isCmdWrite = false ∧ answers (perform (.read 0x100 1) State.reset) = true := by decide +kernel

theorem witness_IllTellsReservedCodes :
    (Access.write 0x004 4 3).isCmdWrite = false ∧ answers (perform (.write 0x004 4 3) State.reset) = true := by
  decide +kernel

theorem witness_CrcAndExpLenHaveOneSource :
    Instr.parse ≠ .crcCompute ∧ Instr.parse ≠ .encode ∧ Instr.parse ≠ .framelen ∧
    answers (exec .parse State.reset) = true ∧
    (Access.write 0x018 4 3).isCmdWrite = false ∧ answers (perform (.write 0x018 4 3) State.reset) = true := by
  decide +kernel

theorem witness_OnlyEncodeWritesBufAndNoneWritesOperands :
    Instr.parse ≠ .encode ∧ answers (exec .parse State.reset) = true ∧ answers (exec .encode State.reset) = true ∧
    8 ≤ 8 := by decide +kernel

theorem witness_SearchModeStaysUntilAddrIsWritten :
    Event.access (.write 0x00C 4 3) ≠ .reset ∧
    (∀ n v, Event.access (.write 0x00C 4 3) ≠ .access (.write 0x008 n v)) ∧
    answers (performEvent (.access (.write 0x00C 4 3)) State.reset) = true := by
  refine ⟨by decide, fun n v h => ?_, by decide +kernel⟩
  injection h with h; injection h with h; cases h

/-- Another group's decoder, and PARSE, replace no measurement output. -/
theorem witness_OnlyTheDecoderReplacesAGroup :
    (Event.access (.write 0x000 4 7)).replaces .meas = false ∧
    answers (performEvent (.access (.write 0x000 4 7)) State.reset) = true ∧ RegName.malm ∈ Group.meas.regs ∧
    (Event.access (.write 0x000 4 6)).replaces .param = false ∧
    answers (performEvent (.access (.write 0x000 4 6)) State.reset) = true ∧ RegName.pShunt ∈ Group.param.regs := by
  decide +kernel

/-- Both clauses at the boundaries of the two areas and of the window. -/
theorem witness_ExactlySupportedAccessesAnswer :
    (Access.read 0x0FC 4).supported = true ∧ (Access.read 0x100 1).supported = true ∧
    (Access.read 0x3FF 1).supported = true ∧ (Access.read 0x0FF 1).supported = false ∧
    (Access.read 0x100 4).supported = false ∧ 0x400 ≤ 0x400 ∧ 0x3FF < 0x400 ∧ supportedAt 0x3FF 4 = false := by decide

theorem witness_ReadsReturnTheRegisterAndChangeNothing :
    answers (perform (.read 0x3FF 1) State.reset) = true ∧ answers (perform (.read 0x050 4) State.reset) = true := by
  decide +kernel

/-- A register, a written byte at each end of BUF, and a byte above BUF. -/
theorem witness_ReadsAreIdempotent :
    (let s := (State.reset.setByte 0 1).setByte 259 2
     answers (perform (.read 0x100 1) s) = true ∧
     answers (perform (.read 0x100 1) (after (perform (.read 0x100 1) s))) = true ∧
     (Memory.get? s.buf (0x100 - 0x100)).isSome = true ∧ (Memory.get? s.buf (0x203 - 0x100)).isSome = true) ∧
    answers (perform (.read 0x204 1) State.reset) = true ∧ ¬ (0x204 < 0x204) ∧ ¬ (0x100 ≤ 0x0FC) ∧
    answers (perform (.read 0x0FC 4) State.reset) = true := by decide +kernel

/-- The two clauses of the BLEN write at 260 and 261. -/
theorem witness_BlenWriteIsAcceptedUpTo260 :
    (0x104#32).toNat % 512 ≤ 260 ∧ 260 < (0x105#32).toNat % 512 ∧ (0x200#32).toNat % 512 ≤ 260 := by decide

theorem witness_ReadOnlyRegistersIgnoreWrites :
    RegName.status ∉ [RegName.cmd, .addr, .fc, .reg, .val, .blen] ∧
    RegName.pShunt ∉ [RegName.cmd, .addr, .fc, .reg, .val, .blen] := by decide

/-- Both areas at both ends. -/
theorem witness_ReservedOffsetsReadZeroAndIgnoreWrites :
    (0x054 ≤ 0x054 ∧ 0x054 ≤ 0x0FF ∧ 0x054 % 4 = 0) ∧ (0x054 ≤ 0x0FC ∧ 0x0FC ≤ 0x0FF ∧ 0x0FC % 4 = 0) ∧
    (0x204 ≤ 0x204 ∧ 0x204 ≤ 0x3FF) ∧ (0x204 ≤ 0x3FF ∧ 0x3FF ≤ 0x3FF) := by decide

/-- Index 259, beyond BLEN = 0, written. -/
theorem witness_BufWindowReadsAndWritesOneByte :
    259 < 260 ∧ (State.reset.setByte 259 7).blen = 0 ∧ Memory.get? (State.reset.setByte 259 7).buf 259 = some 7 := by
  decide +kernel

/-- The empty list and the longest one. -/
theorem witness_LoadbufLoadsTheBytes : State.reset.err.toNat ≤ 4 ∧ State.reset.pending = [] ∧
    ([] : List Byte).length ≤ 260 ∧ (List.replicate 260 (0#8)).length ≤ 260 := by
  exact ⟨by decide, rfl, by decide, List.length_replicate.le⟩

theorem witness_CanonicalMemoriesAreEqualData :
    (let m : Memory := [(0, 7), (259, 9)]
     let m' : Memory := Memory.set (Memory.set [] 259 9) 0 7
     Memory.wf m = true ∧ Memory.wf m' = true ∧ ∀ i, Memory.get? m i = Memory.get? m' i) := by
  refine ⟨by decide, by decide, fun i => rfl⟩

theorem witness_NopOnlyClearsIll : (0xFFFFFFF0#32).extractLsb' 0 4 = 0x0#4 := by decide

theorem witness_ReservedCodesOnlySetIll :
    Instr.reserved9 ∈ [Instr.reserved9, .reservedA, .reservedB, .reservedC, .reservedD, .reservedE, .reservedF] ∧
    Instr.reservedF ∈ [Instr.reserved9, .reservedA, .reservedB, .reservedC, .reservedD, .reservedE, .reservedF] ∧
    Instr.nop.isReserved = false ∧ answers (exec .nop (after (exec .reserved9 State.reset))) = true := by decide +kernel

/-- The clause of BLEN = 0, and the clause of the check value. -/
theorem witness_CrcComputeChecksumsTheBuffer :
    State.reset.blen.toNat = 0 ∧
    (let d := [0x31#8, 0x32#8, 0x33#8, 0x34#8, 0x35#8, 0x36#8, 0x37#8, 0x38#8, 0x39#8]
     HoldsBytes (holding d) 0 d ∧ (holding d).blen.toNat = 9) := by
  refine ⟨by decide, fun j h => ?_, by decide⟩
  revert j; decide +kernel

/-- The clauses at BLEN = 1 and BLEN = 2. -/
theorem witness_CrcVerifyChecksTheTrailingCrc :
    (holding [0xFF]).blen.toNat < 2 ∧ 2 ≤ (holding [0xFF, 0xFF]).blen.toNat := by decide +kernel

/-- The same bytes in states that differ elsewhere. -/
theorem witness_CrcDependsOnTheBytesAlone :
    (let s := holding [1, 4]
     let s' : State := { holding [1, 4] with crc := 0x1234, draws := 9 }
     HoldsBytes s 0 [1, 4] ∧ HoldsBytes s' 0 [1, 4] ∧ s.blen.toNat = [1#8, 4#8].length ∧
     s'.blen.toNat = [1#8, 4#8].length ∧ answers (exec .crcCompute s) = true ∧
     answers (exec .crcCompute s') = true) := by
  refine ⟨fun j h => ?_, fun j h => ?_, by decide, by decide, by decide +kernel, by decide +kernel⟩
  · revert j; decide +kernel
  · revert j; decide +kernel

/-- R113's example: byte 7 changed from 0xCC to 0xCD. -/
theorem witness_SingleByteCorruptionIsDetected :
    (let s := holding [1, 4, 0, 0, 0, 8, 0xF1, 0xCC]
     s.blen.toNat ≤ 260 ∧ s.writtenTo s.blen.toNat = true ∧ answers (exec .crcVerify s) = true ∧
     (after (exec .crcVerify s)).vfy = true ∧ 7 < s.blen.toNat ∧ Memory.get? s.buf 7 ≠ some 0xCD) := by
  decide +kernel

/-- A member of each class of R140. -/
theorem witness_ResponseLengthByFunctionCode :
    (0x84#8 ∉ [0x03#8, 0x04#8, 0x06#8, 0x42#8]) ∧ (0x04#8 = 0x03#8 ∨ 0x04#8 = 0x04#8) ∧
    (0x42#8 = 0x06#8 ∨ 0x42#8 = 0x42#8) := by decide

/-- The clauses at BLEN = 4 and BLEN = 5. -/
theorem witness_FramelenTellsTheResponseLength :
    (holding [1, 4, 16, 4]).blen.toNat < 5 ∧ 5 ≤ (holding [1, 4, 16, 4, 0xD2]).blen.toNat := by decide +kernel

/-- Every clause of PARSE: BLEN 0, 1, 4, 5 below T, T - 1, T, and above T. -/
theorem witness_ParseOutcomes_lengths :
    (exchange []).blen.toNat = 0 ∧ (exchange [1]).blen.toNat = 1 ∧ (exchange (frameM.take 4)).blen.toNat = 4 ∧
    (exchange (frameM.take 5)).blen.toNat = 5 ∧
    5 < frameTotal Config.params ((exchange (frameM.take 5)).byteAt 0 1) ((exchange (frameM.take 5)).byteAt 0 2) ∧
    20 < frameTotal Config.params ((exchange (frameM.take 20)).byteAt 0 1) ((exchange (frameM.take 20)).byteAt 0 2) ∧
    frameTotal Config.params ((exchange frameM).byteAt 0 1) ((exchange frameM).byteAt 0 2) =
      (exchange frameM).blen.toNat ∧
    (exchange (frameM ++ [0])).blen.toNat = 22 := by decide +kernel

/-- Every clause of PARSE on a delimited frame: bad CRC, wrong address, search, right address, and an error. -/
theorem witness_ParseOutcomes_judgements :
    (exchange (frameM.set 20 3)).crcOk 1 21 = false ∧ (exchange frameM).crcOk 1 21 = true ∧
    (let s := (holding frameM).writeAddr 0x002#32
     s.crcOk 1 21 = true ∧ s.bcast = false ∧ s.byteAt 2 0 ≠ s.addr) ∧
    ((holding frameM).writeAddr 0x100#32).bcast = true ∧ (exchange frameM).byteAt 2 0 = (exchange frameM).addr ∧
    (parsed (frameM.set 20 3)).err ≠ 0#3 := by decide +kernel

/-- Vector P-16: 01 84 02, its CRC, and one surplus byte, in the addressed case and in search mode. -/
theorem witness_ParseAcceptsEveryGoodFrame :
    (let d : List Byte := [0x01, 0x84, 0x02]
     let s := exchange [0x01, 0x84, 0x02, 0xC2, 0xC1, 0x11]
     HoldsBytes s 0 (d ++ [lo8 (crc16 d), hi8 (crc16 d)]) ∧ frameTotal Config.params 0x84 0x02 = d.length + 2 ∧
     d.length + 2 ≤ s.blen.toNat ∧ s.addr = 0x01 ∧
     (let u := s.writeAddr 0x105#32
      u.bcast = true ∧ u.addr ≠ 0x01 ∧ HoldsBytes u 0 (d ++ [lo8 (crc16 d), hi8 (crc16 d)]) ∧
      d.length + 2 ≤ u.blen.toNat)) := by
  refine ⟨fun j h => ?_, by decide, by decide +kernel, by decide +kernel, by decide +kernel, by decide +kernel,
    fun j h => ?_, by decide +kernel⟩
  · revert j; decide +kernel
  · revert j; decide +kernel

/-- The same five bytes, once exact and once with surplus. -/
theorem witness_ParseExaminesOneFrameOnly :
    (let d : List Byte := [0x01, 0x84, 0x02, 0xC2, 0xC1]
     let s := exchange d
     let s' := exchange (d ++ [0x11, 0x22])
     HoldsBytes s 0 d ∧ HoldsBytes s' 0 d ∧ frameTotal Config.params 0x84 0x02 = d.length ∧ d.length ≤ s.blen.toNat ∧
     d.length ≤ s'.blen.toNat ∧ s'.addr = s.addr ∧ s'.bcast = s.bcast) := by
  refine ⟨fun j h => ?_, fun j h => ?_, by decide, by decide +kernel, by decide +kernel, by decide +kernel,
    by decide +kernel⟩
  · revert j; decide +kernel
  · revert j; decide +kernel

theorem witness_ParseDoesNotReadTheRequest : answers (exec .parse (exchange frameM)) = true := by decide +kernel

theorem witness_FailedParsePreservesTheSnapshot :
    answers (exec .parse (exchange (frameM.take 20))) = true ∧ (parsed (frameM.take 20)).err ≠ 0#3 := by decide +kernel

theorem witness_FramelenForetellsParse :
    (let s := exchange (frameM.take 5)
     Memory.get? s.buf 1 = some 0x04 ∧ Memory.get? s.buf 2 = some 0x10 ∧ 5 ≤ s.blen.toNat ∧
     answers (exec .framelen s) = true ∧ answers (exec .parse (after (exec .framelen s))) = true) := by decide +kernel

/-- Both clauses of UNPACK. -/
theorem witness_UnpackReadsTheCommandFields :
    (let s := holding [0x05, 0x06, 0x00, 0x02, 0x00, 0x05, 0xE9, 0x8D]
     s.blen.toNat = 8 ∧ s.crcOk 0 8 = true) ∧
    ¬ ((holding [0x05, 0x06, 0x00, 0x02, 0x00, 0x05, 0xE9]).blen.toNat = 8 ∧
      (holding [0x05, 0x06, 0x00, 0x02, 0x00, 0x05, 0xE9]).crcOk 0 8 = true) := by decide +kernel

/-- A state with the encoded frame that differs elsewhere. -/
theorem witness_EncodeThenUnpackRoundTrip :
    (let t := after (exec .encode State.reset)
     let t' : State := { t with fc := 9 }
     KeepsBuf t t' ∧ t'.blen = t.blen) := by
  exact ⟨fun _ => rfl, rfl⟩

/-- A host with an unsent frame reads it back, byte 0 first. -/
theorem witness_DutifulHostKeepsTheEncodedFrame :
    (let c : Exchange := { phase := .idle, unsent := true }
     let e : Event := .access (.read 0x100 1)
     let s := after (exec .encode State.reset)
     c.unsent = true ∧ answers (performEvent e s) = true ∧ c.afterEvent e (after (performEvent e s)) = some c ∧
     e ≠ .reset) := by decide +kernel

theorem witness_dutiful_host : dutiful { phase := .idle, unsent := false } State.reset
    [.event (.access (.write 0x000 4 3)), .event (.access (.read 0x100 1)), .transmit,
     .event (.access (.write 0x100 1 1)), .event (.access (.write 0x01C 4 1)), .event (.access (.write 0x000 4 5))] =
      true := by decide +kernel

/-- Log 15: reset closes an open exchange, and a validated one stays so until the next ENCODE. -/
theorem test_exchange_after_reset_and_parse :
    (let c : Exchange := { phase := .awaitingResponse, unsent := false }
     c.afterEvent .reset State.reset = some { phase := .idle, unsent := false }) ∧
    (let c : Exchange := { phase := .validated, unsent := false }
     c.afterEvent (.access (.write 0x000 4 6)) State.reset = some c ∧
     c.afterEvent (.access (.write 0x000 4 3)) State.reset = some { phase := .idle, unsent := true }) := by decide

theorem test_undutiful_hosts :
    dutiful { phase := .idle, unsent := false } State.reset
      [.event (.access (.write 0x000 4 3)), .event (.access (.write 0x100 1 1))] = false ∧
    dutiful { phase := .idle, unsent := false } State.reset
      [.event (.access (.write 0x000 4 3)), .transmit, .transmit] = false := by decide +kernel

/-- The largest raw value, and the largest finite pattern. -/
theorem witness_ConverterRoundsToNearestEven :
    2 ^ 32 - 1 < 2 ^ 32 ∧ 100 ∈ [1, 10, 100] ∧ (0x7F7FFFFF#32).toNat < 0x7F800000 ∧ (0x00000000#32).toNat < 0x7F800000 := by
  decide

theorem witness_ConverterRange : 0 < 2 ^ 32 ∧ 2 ^ 32 - 1 < 2 ^ 32 ∧ 1 ∈ [1, 10, 100] ∧ 2 ^ 16 - 1 < 2 ^ 16 ∧
    2 ^ 32 - 1 ≠ 0 := by decide

theorem witness_RoundingSettingsAgreeBelow2Pow24 : 2 ^ 24 - 1 < 2 ^ 24 ∧ 10 ∈ [1, 10, 100] := by decide

/-- Ready, and not ready. -/
theorem witness_DecMeasDecodesTheMeasurementPayload :
    (parsed frameM).valid = true ∧ (parsed frameM).blen.toNat = 21 ∧ (parsed frameM).byteAt 0 2 = 16#8 ∧
    ¬ ((parsed frameP).valid = true ∧ (parsed frameP).blen.toNat = 21 ∧ (parsed frameP).byteAt 0 2 = 16#8) := by
  decide +kernel

/-- Ready, and not ready. -/
theorem witness_DecParamDecodesTheParameterPayload :
    (parsed frameP).valid = true ∧ (parsed frameP).blen.toNat = 13 ∧ (parsed frameP).byteAt 0 2 = 8#8 ∧
    ¬ ((parsed frameM).valid = true ∧ (parsed frameM).blen.toNat = 13 ∧ (parsed frameM).byteAt 0 2 = 8#8) := by
  decide +kernel

/-- The state after PARSE of the measurement frame meets the invariant, and both decoders of the statement run. -/
theorem witness_DecodersAcceptReadResponsesOnly :
    (parsed frameM).Inv ∧ (parsed frameM).writtenTo (parsed frameM).blen.toNat = true ∧
    answers (exec .decMeas (parsed frameM)) = true ∧ (after (exec .decMeas (parsed frameM))).decOk = true := by
  refine ⟨⟨by decide +kernel, by decide +kernel, by decide +kernel, by decide +kernel, by decide +kernel,
    by decide +kernel, fun _ _ => ⟨by decide +kernel, by decide +kernel, by decide +kernel, by decide +kernel,
      by decide +kernel⟩, by decide +kernel, by decide +kernel⟩, by decide +kernel, by decide +kernel, by decide +kernel⟩

/-- Vectors D-R5 and D-R6: the same byte, and the same length. -/
theorem witness_DecodeNeedsAFreshFrame :
    answers (exec .parse (exchange frameM)) = true ∧ (parsed frameM).err = 0#3 ∧ 3 < 260 ∧ 259 < 260 ∧ 260 % 512 ≤ 260 ∧
    answers (perform (.write (0x100 + 3) 1 4) (parsed frameM)) = true ∧
    answers (perform (.write 0x01C 4 21) (parsed frameM)) = true := by decide +kernel

/-- The E4 frame as a frame of the statement, in the addressed case and in search mode. -/
theorem witness_MeasurementExchange :
    (let d : List Byte := [0x01, 0x04, 16#8, hi8 1234#16, lo8 1234#16, hi8 500#16, lo8 500#16, hi8 0#16, lo8 0#16,
       hi8 1500#16, lo8 1500#16, hi8 0#16, lo8 0#16, hi8 12345#16, lo8 12345#16, hi8 0xFFFF#16, lo8 0xFFFF#16, hi8 0#16,
       lo8 0#16]
     (0x04#8 = 0x03#8 ∨ 0x04#8 = 0x04#8) ∧ (exchange frameM).addr = 0x01 ∧
     HoldsBytes (exchange frameM) 0 (d ++ [lo8 (crc16 d), hi8 (crc16 d)]) ∧ 21 ≤ (exchange frameM).blen.toNat ∧
     (let s := (holding frameM).writeAddr 0x105#32
      s.bcast = true ∧ s.addr ≠ 0x01 ∧ HoldsBytes s 0 (d ++ [lo8 (crc16 d), hi8 (crc16 d)]) ∧ 21 ≤ s.blen.toNat)) := by
  refine ⟨by decide, by decide +kernel, fun j h => ?_, by decide +kernel, by decide +kernel, by decide +kernel,
    fun j h => ?_, by decide +kernel⟩
  · revert j; decide +kernel
  · revert j; decide +kernel

end Sys2Proof.Tests
end

section
/-! What each operation and each host access may change (R45), said once; the claims of who writes what rest on it. -/

namespace Sys2Proof

/-- The registers and flags an operation may change: the results its rule names, and ILL (R30, R45). -/
def Instr.writes : Instr → List Machine.Part
  | .nop        => [.ill]
  | .crcCompute => [.crc, .ill]
  | .crcVerify  => [.vfy, .ill]
  | .encode     => [.blen, .crc, .valid, .ill]
  | .framelen   => [.expLen, .ill]
  | .parse      => [.err, .blen, .rAddr, .rFc, .valid, .conn, .ill]
  | .decMeas    => [.mv, .mi, .mp, .me, .alh, .all, .decOk, .ill]
  | .decParam   => [.phv, .plv, .pAddr, .pShunt, .decOk, .ill]
  | .unpack     => [.uAddr, .uFc, .uReg, .uVal, .vfy, .ill]
  | .reserved9  => [.ill]
  | .reservedA  => [.ill]
  | .reservedB  => [.ill]
  | .reservedC  => [.ill]
  | .reservedD  => [.ill]
  | .reservedE  => [.ill]
  | .reservedF  => [.ill]

namespace Machine

/-- The registers and flags a host write of the register may change (R21, R31 to R36); CMD's are the operation's. -/
def RegName.hostWrites : RegName → List Part
  | .addr => [.addr, .bcast]
  | .fc   => [.fc]
  | .reg  => [.reg]
  | .val  => [.val]
  | .blen => [.blen, .valid]
  | _     => []

/-- All that the host's accesses may change when they start no operation: the operands, BLEN and VALID. -/
def hostWritable : List Part := [.addr, .bcast, .fc, .reg, .val, .blen, .valid]

theorem RegName.hostWrites_subset (r : RegName) : r.hostWrites ⊆ hostWritable := by
  cases r <;> decide

/-! ## From parts back to fields -/

theorem eq_of_bool_toNat_eq {a b : Bool} (h : a.toNat = b.toNat) : a = b := by
  rw [Bool.eq_iff_iff, ← Bool.toNat_eq_one, ← Bool.toNat_eq_one, h]

/-! ## Frame rules, one per state update -/

namespace KeepsAllBut

theorem part {changed : List Part} {s t : State} (h : KeepsAllBut changed s t) {p : Part} (hp : p ∉ changed) :
    t.part p = s.part p := h.1 p hp

theorem refl (changed : List Part) (s : State) : KeepsAllBut changed s s := ⟨fun _ _ => rfl, rfl, rfl⟩

/-- One update after another changes what either changes. -/
theorem andThen {c d : List Part} {s t u : State} (h : KeepsAllBut c s t) (h' : KeepsAllBut d t u) :
    KeepsAllBut (c ++ d) s u := by
  refine ⟨fun p hp => ?_, h'.2.1.trans h.2.1, h'.2.2.trans h.2.2⟩
  rw [List.mem_append, not_or] at hp
  exact (h'.part hp.2).trans (h.part hp.1)

end KeepsAllBut

namespace State

theorem setIll_keeps (s : State) (b : Bool) : KeepsAllBut [.ill] s (s.setIll b) :=
  ⟨fun p hp => by cases p <;> simp [part] at hp ⊢, rfl, rfl⟩

theorem drew_keeps (s : State) (n : Nat) : KeepsAllBut [] s (s.drew n) :=
  ⟨fun p _ => by cases p <;> rfl, rfl, rfl⟩

theorem setByte_keeps (s : State) (i : Nat) (b : Byte) : KeepsAllBut [] s (s.setByte i b) :=
  ⟨fun p _ => by cases p <;> rfl, rfl, rfl⟩

theorem storeBytes_keeps (s : State) (i : Nat) (d : List Byte) : KeepsAllBut [] s (s.storeBytes i d) := by
  obtain ⟨m, h⟩ := s.storeBytes_frame i d
  rw [h]
  exact ⟨fun p _ => by cases p <;> rfl, rfl, rfl⟩

theorem setBlen_keeps (s : State) (n : Nat) : KeepsAllBut [.blen] s (s.setBlen n) :=
  ⟨fun p hp => by cases p <;> simp [part] at hp ⊢, rfl, rfl⟩

theorem setCrc_keeps (s : State) (c : Half) : KeepsAllBut [.crc] s (s.setCrc c) :=
  ⟨fun p hp => by cases p <;> simp [part] at hp ⊢, rfl, rfl⟩

theorem setExpLen_keeps (s : State) (n : Nat) : KeepsAllBut [.expLen] s (s.setExpLen n) :=
  ⟨fun p hp => by cases p <;> simp [part] at hp ⊢, rfl, rfl⟩

theorem setUnpacked_keeps (s : State) (a f : Byte) (r v : Half) :
    KeepsAllBut [.uAddr, .uFc, .uReg, .uVal] s (s.setUnpacked a f r v) :=
  ⟨fun p hp => by cases p <;> simp [part] at hp ⊢, rfl, rfl⟩

theorem setMeas_keeps (s : State) (v i p e : Word) (hi lo : Bool) :
    KeepsAllBut [.mv, .mi, .mp, .me, .alh, .all] s (s.setMeas v i p e hi lo) :=
  ⟨fun p hp => by cases p <;> simp [part] at hp ⊢, rfl, rfl⟩

theorem setParam_keeps (s : State) (hv lv : Word) (a : Byte) (sh : Half) :
    KeepsAllBut [.phv, .plv, .pAddr, .pShunt] s (s.setParam hv lv a sh) :=
  ⟨fun p hp => by cases p <;> simp [part] at hp ⊢, rfl, rfl⟩

theorem setVfy_keeps (s : State) (b : Bool) : KeepsAllBut [.vfy] s (s.setVfy b) :=
  ⟨fun p hp => by cases p <;> simp [part] at hp ⊢, rfl, rfl⟩

theorem setValid_keeps (s : State) (b : Bool) : KeepsAllBut [.valid] s (s.setValid b) :=
  ⟨fun p hp => by cases p <;> simp [part] at hp ⊢, rfl, rfl⟩

theorem setDecOk_keeps (s : State) (b : Bool) : KeepsAllBut [.decOk] s (s.setDecOk b) :=
  ⟨fun p hp => by cases p <;> simp [part] at hp ⊢, rfl, rfl⟩

theorem closeParse_keeps (s : State) : KeepsAllBut [.valid, .conn, .ill] s s.closeParse :=
  ⟨fun p hp => by cases p <;> simp [part] at hp ⊢, rfl, rfl⟩

theorem parseFrame_keeps (s : State) : KeepsAllBut [.err, .blen, .rAddr, .rFc] s s.parseFrame := by
  obtain ⟨e, n, a, f, h⟩ := s.parseFrame_frame
  rw [h]
  exact ⟨fun p hp => by cases p <;> simp [part] at hp ⊢, rfl, rfl⟩

theorem writeAddr_keeps (s : State) (w : Word) : KeepsAllBut [.addr, .bcast] s (s.writeAddr w) :=
  ⟨fun p hp => by cases p <;> simp [part] at hp ⊢, rfl, rfl⟩

theorem writeFc_keeps (s : State) (w : Word) : KeepsAllBut [.fc] s (s.writeFc w) :=
  ⟨fun p hp => by cases p <;> simp [part] at hp ⊢, rfl, rfl⟩

theorem writeRegField_keeps (s : State) (w : Word) : KeepsAllBut [.reg] s (s.writeRegField w) :=
  ⟨fun p hp => by cases p <;> simp [part] at hp ⊢, rfl, rfl⟩

theorem writeVal_keeps (s : State) (w : Word) : KeepsAllBut [.val] s (s.writeVal w) :=
  ⟨fun p hp => by cases p <;> simp [part] at hp ⊢, rfl, rfl⟩

theorem writeBlen_keeps (s : State) (w : Word) : KeepsAllBut [.blen, .valid] s (s.writeBlen w) := by
  obtain ⟨_, h⟩ | ⟨_, h⟩ := s.writeBlen_cases w <;> rw [h]
  · exact (s.setBlen_keeps _).andThen (setValid_keeps _ false)
  · exact .refl _ s

theorem writeReg_keeps (s : State) (w : Word) (r : RegName) : KeepsAllBut r.hostWrites s (s.writeReg w r) := by
  cases r with
  | addr => exact s.writeAddr_keeps w
  | fc => exact s.writeFc_keeps w
  | reg => exact s.writeRegField_keeps w
  | val => exact s.writeVal_keeps w
  | blen => exact s.writeBlen_keeps w
  | _ => exact .refl _ s

theorem writeBufSpace_keeps (s : State) (i : Nat) (b : Byte) : KeepsAllBut [.valid] s (s.writeBufSpace i b) := by
  obtain ⟨_, h⟩ | ⟨_, h⟩ := s.writeBufSpace_cases i b <;> rw [h]
  · exact (s.setByte_keeps i b).andThen (setValid_keeps _ false)
  · exact .refl _ s

/-! ## The operations with a condition -/

/-- What DEC_MEAS does to its six outputs (R176). -/
def measDecoded (s : State) : State :=
  if s.decReady 0 Config.measBytes then
    s.setMeas
      (convert (s.payloadWord 1 0).toNat Config.divV)
      (convert (s.payloadWord 1 1).toNat Config.divI)
      (convert (s.payloadPair 1 2) Config.divP)
      (convert (s.payloadPair 1 4) Config.divE)
      (alarm (s.payloadWord 1 6))
      (alarm (s.payloadWord 1 7))
  else s

/-- What DEC_PARAM does to its four outputs (R180). -/
def paramDecoded (s : State) : State :=
  if s.decReady 0 Config.paramBytes then
    s.setParam
      (convert (s.payloadWord 1 0).toNat Config.divTh)
      (convert (s.payloadWord 1 1).toNat Config.divTh)
      (lo8 (s.payloadWord 1 2))
      (s.payloadWord 1 3)
  else s

/-- The check of UNPACK: exactly eight bytes with a good CRC (R150). -/
def isCommandFrame (s : State) : Bool := s.blen.toNat == 8 && s.crcOk 0 8

/-- What UNPACK does to its four fields (R150). -/
def fieldsUnpacked (s : State) : State :=
  if s.isCommandFrame then s.setUnpacked (s.byteAt 1 0) (s.byteAt 1 1) (s.beHalf 1 2) (s.beHalf 1 4) else s

theorem measDecoded_keeps (s : State) : KeepsAllBut [.mv, .mi, .mp, .me, .alh, .all] s s.measDecoded := by
  unfold measDecoded
  split_ifs
  · exact s.setMeas_keeps ..
  · exact .refl _ s

theorem paramDecoded_keeps (s : State) : KeepsAllBut [.phv, .plv, .pAddr, .pShunt] s s.paramDecoded := by
  unfold paramDecoded
  split_ifs
  · exact s.setParam_keeps ..
  · exact .refl _ s

theorem fieldsUnpacked_keeps (s : State) : KeepsAllBut [.uAddr, .uFc, .uReg, .uVal] s s.fieldsUnpacked := by
  unfold fieldsUnpacked
  split_ifs
  · exact s.setUnpacked_keeps ..
  · exact .refl _ s

@[simp] theorem measDecoded_buf (s : State) : s.measDecoded.buf = s.buf := by
  unfold measDecoded; split_ifs <;> rfl

@[simp] theorem paramDecoded_buf (s : State) : s.paramDecoded.buf = s.buf := by
  unfold paramDecoded; split_ifs <;> rfl

@[simp] theorem fieldsUnpacked_buf (s : State) : s.fieldsUnpacked.buf = s.buf := by
  unfold fieldsUnpacked; split_ifs <;> rfl

@[simp] theorem parseFrame_buf (s : State) : s.parseFrame.buf = s.buf := by
  obtain ⟨_, _, _, _, h⟩ := s.parseFrame_frame; rw [h]

end State

theorem exec_decMeas (s : State) :
    exec .decMeas s =
      .next (((s.measDecoded.setDecOk (s.decReady 0 Config.measBytes)).setIll false).drew 2) := by
  cases h : s.decReady 0 Config.measBytes <;> simp [exec, execDecMeas, State.measDecoded, h]

theorem exec_decParam (s : State) :
    exec .decParam s =
      .next (((s.paramDecoded.setDecOk (s.decReady 0 Config.paramBytes)).setIll false).drew 2) := by
  cases h : s.decReady 0 Config.paramBytes <;> simp [exec, execDecParam, State.paramDecoded, h]

theorem exec_unpack (s : State) :
    exec .unpack s = .next (((s.fieldsUnpacked.setVfy s.isCommandFrame).setIll false).drew 2) := by
  have hc : (s.blen.toNat == Config.cmdFrameLen && s.crcOk 0 Config.cmdFrameLen) = s.isCommandFrame := rfl
  unfold exec execUnpack
  rw [hc]
  cases h : s.isCommandFrame <;> simp [State.fieldsUnpacked, h]

theorem exec_parse (s : State) : exec .parse s = .next (s.parseFrame.closeParse.drew 4) := rfl

/-! ## What an operation and an access may change -/

/-- Every operation runs to completion in every state (R23, R214). -/
theorem exec_answers (i : Instr) (s : State) : ∃ t, exec i s = .next t := by
  cases i <;> exact ⟨_, rfl⟩

/-- An operation changes no register or flag but its own, and nothing of the host's (R45). -/
theorem exec_keepsAllBut {i : Instr} {s t : State} (h : exec i s = .next t) : KeepsAllBut i.writes s t := by
  cases i with
  | crcCompute =>
    injection h with h
    subst h
    exact ((s.setCrc_keeps _).andThen (State.setIll_keeps _ false)).andThen (State.drew_keeps _ 1)
  | crcVerify =>
    injection h with h
    subst h
    exact ((s.setVfy_keeps _).andThen (State.setIll_keeps _ false)).andThen (State.drew_keeps _ 1)
  | encode =>
    injection h with h
    subst h
    exact (((((s.storeBytes_keeps 0 _).andThen (State.storeBytes_keeps _ 6 _)).andThen (State.setBlen_keeps _ _)).andThen
      (State.setCrc_keeps _ _)).andThen (State.setValid_keeps _ false)).andThen (State.setIll_keeps _ false)
  | framelen =>
    injection h with h
    subst h
    exact ((s.setExpLen_keeps _).andThen (State.setIll_keeps _ false)).andThen (State.drew_keeps _ 1)
  | parse =>
    injection h with h
    subst h
    exact (s.parseFrame_keeps.andThen (State.closeParse_keeps _)).andThen (State.drew_keeps _ 4)
  | decMeas =>
    rw [exec_decMeas] at h
    injection h with h
    subst h
    exact ((s.measDecoded_keeps.andThen (State.setDecOk_keeps _ _)).andThen (State.setIll_keeps _ false)).andThen
      (State.drew_keeps _ 2)
  | decParam =>
    rw [exec_decParam] at h
    injection h with h
    subst h
    exact ((s.paramDecoded_keeps.andThen (State.setDecOk_keeps _ _)).andThen (State.setIll_keeps _ false)).andThen
      (State.drew_keeps _ 2)
  | unpack =>
    rw [exec_unpack] at h
    injection h with h
    subst h
    exact ((s.fieldsUnpacked_keeps.andThen (State.setVfy_keeps _ _)).andThen (State.setIll_keeps _ false)).andThen
      (State.drew_keeps _ 2)
  | _ =>
    injection h with h
    subst h
    exact s.setIll_keeps _

/-- No operation but ENCODE writes BUF (R43). -/
theorem exec_buf {i : Instr} {s t : State} (hi : i ≠ .encode) (h : exec i s = .next t) : t.buf = s.buf := by
  cases i with
  | encode => exact absurd rfl hi
  | decMeas => rw [exec_decMeas] at h; injection h with h; simp [← h]
  | decParam => rw [exec_decParam] at h; injection h with h; simp [← h]
  | unpack => rw [exec_unpack] at h; injection h with h; simp [← h]
  | _ => injection h with h; simp [← h]

/-- An access that starts no operation changes no register or flag but the operands, BLEN and VALID. -/
theorem perform_part {a : Access} {s t : State} {p : Part} (ha : a.isCmdWrite = false) (h : perform a s = .next t)
    (hp : p ∉ hostWritable) : t.part p = s.part p := by
  cases a with
  | read off n =>
    obtain ⟨_, _, _, rfl⟩ | ⟨_, _, _, _, rfl⟩ := performRead_cases h <;> cases p <;> rfl
  | write off n v =>
    obtain ⟨rfl, rfl, _⟩ | ⟨r, _, _, _, rfl⟩ | ⟨_, _, rfl⟩ | ⟨i, _, _, _, rfl⟩ := performWrite_cases h
    · cases ha
    · exact (s.writeReg_keeps _ r).part fun hr => hp (r.hostWrites_subset hr)
    · rfl
    · exact (s.writeBufSpace_keeps i _).part fun hv => hp (List.mem_singleton.1 hv ▸ by decide)

/-! ## Host writes at each offset -/

/-- A CMD write runs the operation its word selects (R23). -/
theorem perform_write_cmd (v : Nat) (s : State) :
    perform (.write 0x000 4 v) s = exec (decodeCmd (BitVec.ofNat 32 v)) s := rfl

/-- A 32-bit write at the offset of a register other than CMD writes that register (R62). -/
theorem perform_write_offset {r : RegName} (hr : r ≠ .cmd) (v : Nat) (s : State) :
    perform (.write r.offset 4 v) s = .next (s.writeReg (BitVec.ofNat 32 v) r) := by
  cases r with
  | cmd => exact absurd rfl hr
  | _ => rfl

/-- An 8-bit write in the upper space writes BUF there (R63, R65). -/
theorem perform_write_buf {i : Nat} (hi : i < 0x300) (v : Nat) (s : State) :
    perform (.write (0x100 + i) 1 v) s = .next (s.writeBufSpace i (BitVec.ofNat 8 v)) := by
  have hwin : ¬ windowSize ≤ 0x100 + i := by unfold windowSize; omega
  have hreg : ¬ 0x100 + i < bufBase := by unfold bufBase; omega
  have hidx : 0x100 + i - bufBase = i := Nat.add_sub_cancel_left 0x100 i
  rw [perform, performWrite, if_neg hwin, if_neg hreg, if_pos rfl, hidx]

end Machine
end Sys2Proof
end

section
/-! The range of the converter (R174), as far as the invariant needs it: a decoded output is +0.0 or lies between the
encodings of 0.01 and 2^32. -/

namespace Sys2Proof.Machine

theorem le_roundHalfEven {a num den : Nat} (hden : 0 < den) (h : a * den ≤ num) : a ≤ roundHalfEven num den := by
  have hfloor : a ≤ num / den := (Nat.le_div_iff_mul_le hden).2 h
  simp only [roundHalfEven]
  split_ifs <;> omega

theorem roundHalfEven_le {b num den : Nat} (h : num < b * den) : roundHalfEven num den ≤ b := by
  have hfloor : num / den < b := Nat.div_lt_of_lt_mul (Nat.mul_comm b den ▸ h)
  simp only [roundHalfEven]
  split_ifs <;> omega

/-- `biasedExp` is the l with 2^l ≤ raw·128/div < 2^(l+1), cleared of its division (R170, log 11). -/
theorem biasedExp_spec {raw div : Nat} (hdiv : 0 < div) (h : div ≤ raw * 128) :
    2 ^ biasedExp raw div * div ≤ raw * 128 ∧ raw * 128 < 2 ^ (biasedExp raw div + 1) * div := by
  have hne : raw * 128 / div ≠ 0 := (Nat.div_pos h hdiv).ne'
  exact ⟨(Nat.le_div_iff_mul_le hdiv).1 (Nat.log2_self_le hne), (Nat.div_lt_iff_lt_mul hdiv).1 Nat.lt_log2_self⟩

/-- The significand of R170 has 24 bits, or is 2^24 after rounding up. -/
theorem significand_bounds {raw div l : Nat} (hdiv : 0 < div) (hlo : 2 ^ l * div ≤ raw * 128)
    (hhi : raw * 128 < 2 ^ (l + 1) * div) :
    2 ^ 23 ≤ significand raw div l ∧ significand raw div l ≤ 2 ^ 24 := by
  unfold significand
  split_ifs with hl
  · have hpow : 2 ^ l * 2 ^ (30 - l) = 2 ^ 30 := by rw [← Nat.pow_add, Nat.add_sub_cancel' hl]
    have hpos : 0 < 2 ^ (30 - l) := Nat.two_pow_pos _
    have hlo' := Nat.mul_le_mul_right (2 ^ (30 - l)) hlo
    have hhi' := Nat.mul_lt_mul_of_pos_right hhi hpos
    have e1 : 2 ^ l * div * 2 ^ (30 - l) = 2 ^ 30 * div := by rw [← hpow]; ring
    have e2 : 2 ^ (l + 1) * div * 2 ^ (30 - l) = 2 ^ 31 * div := by
      rw [show 2 ^ 31 = 2 * 2 ^ 30 by rfl, ← hpow]; ring
    rw [e1] at hlo'
    rw [e2] at hhi'
    exact ⟨le_roundHalfEven hdiv (by linarith), roundHalfEven_le (by linarith)⟩
  · obtain ⟨m, rfl⟩ : ∃ m, l = 30 + m := ⟨l - 30, by omega⟩
    have e1 : 2 ^ (30 + m) * div = 128 * (2 ^ 23 * (div * 2 ^ m)) := by ring
    have e2 : 2 ^ (30 + m + 1) * div = 128 * (2 ^ 24 * (div * 2 ^ m)) := by ring
    rw [e1] at hlo
    rw [e2] at hhi
    rw [Nat.add_sub_cancel_left]
    exact ⟨le_roundHalfEven (Nat.mul_pos hdiv (Nat.two_pow_pos m)) (by linarith), roundHalfEven_le (by linarith)⟩

/-- The encoding as one number: a significand of 2^24 carries into the exponent by itself. -/
theorem fx2fSingle_toNat {raw div : Nat} (h0 : raw ≠ 0) (hk : significand raw div (biasedExp raw div) ≤ 2 ^ 24)
    (hl : biasedExp raw div ≤ 38) :
    (fx2fSingle raw div).toNat =
      (biasedExp raw div + 120) * 2 ^ 23 + (significand raw div (biasedExp raw div) - 2 ^ 23) := by
  unfold fx2fSingle
  rw [if_neg h0]
  simp only
  split_ifs with hc <;> rw [packBinary32, BitVec.toNat_ofNat] <;> omega

/-- A 32-bit raw value has a biased exponent of at most 38. -/
theorem biasedExp_le {raw div : Nat} (hdiv : 0 < div) (h : div ≤ raw * 128) (hraw : raw < 2 ^ 32) :
    biasedExp raw div ≤ 38 := by
  have hne : raw * 128 / div ≠ 0 := (Nat.div_pos h hdiv).ne'
  have hle : raw * 128 / div ≤ raw * 128 := Nat.div_le_self _ _
  exact Nat.le_of_lt_succ ((Nat.log2_lt hne).2 (by omega))

/-- R174 for the divisors of R8: 0 gives +0.0, any other raw value a number from 0.01 to 2^32. The exponent 120 is left
to raw = 1 and the divisor 100, which gives the lower bound itself. -/
theorem fx2fSingle_range {raw div : Nat} (h0 : raw ≠ 0) (hraw : raw < 2 ^ 32) (hdiv : div ∈ [1, 10, 100]) :
    0x3C23D70A ≤ (fx2fSingle raw div).toNat ∧ (fx2fSingle raw div).toNat ≤ 0x4F800000 := by
  have hmem : div = 1 ∨ div = 10 ∨ div = 100 := by simpa using hdiv
  have hpos : 0 < div := by omega
  have hle : div ≤ raw * 128 := by omega
  have hl := biasedExp_le hpos hle hraw
  obtain ⟨hlo, hhi⟩ := biasedExp_spec hpos hle
  obtain ⟨hk1, hk2⟩ := significand_bounds hpos hlo hhi
  rw [fx2fSingle_toNat h0 hk2 hl]
  refine ⟨?_, by omega⟩
  by_cases hz : biasedExp raw div = 0
  · rw [hz] at hhi
    obtain ⟨rfl, rfl⟩ : raw = 1 ∧ div = 100 := by omega
    decide
  · omega

theorem isConverted_convert {raw div : Nat} (hraw : raw < 2 ^ 32) (hdiv : div ∈ [1, 10, 100]) :
    isConverted (convert raw div) = true := by
  have hc : convert raw div = fx2fSingle raw div := rfl
  rw [hc]
  by_cases h0 : raw = 0
  · subst h0; rfl
  · have h := fx2fSingle_range h0 hraw hdiv
    simp [isConverted, h.1, h.2]

theorem half_toNat_lt (w : Half) : w.toNat < 2 ^ 32 := w.isLt.trans (by decide)

theorem pair_lt (o : Config.PairOrder) (f g : Half) : pair o f g < 2 ^ 32 := by
  have hf := f.isLt
  have hg := g.isLt
  cases o <;> simp only [pair] <;> omega

theorem State.payloadPair_lt (s : State) (k j : Nat) : s.payloadPair k j < 2 ^ 32 := pair_lt _ _ _

end Sys2Proof.Machine
end

section
/-! The invariant (R25, R27, R28, R36, R37, R43, R174): what keeps it, and that every step does. -/

namespace Sys2Proof.Machine

/-! ## Written bytes do not depend on draws -/

theorem State.get?_isSome_of_writtenTo {s : State} {n i : Nat} (h : s.writtenTo n = true) (hi : i < n) :
    (Memory.get? s.buf i).isSome = true :=
  List.all_eq_true.1 h i (List.mem_range.2 hi)

/-- Two states with the same BUF read a written byte alike, at any draw. -/
theorem State.byteAt_of_writtenTo {s t : State} {n i : Nat} (h : s.writtenTo n = true) (hb : t.buf = s.buf)
    (hi : i < n) (k k' : Nat) : t.byteAt k i = s.byteAt k' i := by
  obtain ⟨b, hs⟩ := Option.isSome_iff_exists.1 (s.get?_isSome_of_writtenTo h hi)
  rw [State.byteAt_of_written hs, State.byteAt_of_written (hb ▸ hs)]

/-- Two states with the same BUF agree on the CRC of a written frame. -/
theorem State.crcOk_of_writtenTo {s t : State} {n : Nat} (h : s.writtenTo n = true) (hb : t.buf = s.buf)
    (hn : 2 ≤ n) (k k' : Nat) : t.crcOk k n = s.crcOk k' n := by
  have hbytes : t.bytes k 0 (n - 2) = s.bytes k' 0 (n - 2) :=
    State.bytes_congr fun i _ hi => State.byteAt_of_writtenTo h hb (by omega) k k'
  have hcrc : t.leHalf k (n - 2) = s.leHalf k' (n - 2) := by
    unfold State.leHalf
    rw [State.byteAt_of_writtenTo h hb (by omega) k k', State.byteAt_of_writtenTo h hb (by omega) k k']
  unfold State.crcOk
  rw [hbytes, hcrc]

theorem State.HoldsResponse.congr {s t : State} (h : s.HoldsResponse) (hw : s.writtenTo s.blen.toNat = true)
    (hbuf : t.buf = s.buf) (hlen : t.blen = s.blen) (ha : t.rAddr = s.rAddr) (hf : t.rFc = s.rFc) :
    t.HoldsResponse := by
  have hmin : 5 ≤ s.blen.toNat := h.minimum
  have hbyte : ∀ i < 5, t.byteAt 0 i = s.byteAt 0 i := fun i hi =>
    State.byteAt_of_writtenTo hw hbuf (by omega) 0 0
  constructor
  · rw [hlen]; exact h.minimum
  · rw [hlen, hbyte 1 (by decide), hbyte 2 (by decide)]; exact h.delimited
  · rw [hlen, State.crcOk_of_writtenTo hw hbuf (by omega) 0 0]; exact h.checked
  · rw [ha, hbyte 0 (by decide)]; exact h.address
  · rw [hf, hbyte 1 (by decide)]; exact h.code

/-! ## Rules for the invariant -/

namespace State.Inv

/-- The parts of the invariant beside the frame: those no write of BUF or BLEN touches. -/
def partsBesideFrame : List Part := [.err, .expLen, .conn, .mv, .mi, .mp, .me, .phv, .plv]

/-- The registers and flags the invariant speaks of. -/
def parts : List Part := partsBesideFrame ++ [.blen, .valid, .rAddr, .rFc]

/-- The invariant from its part about the frame, where nothing else it speaks of changes. -/
theorem of_frame {s t : State} (h : s.Inv) (hp : ∀ p ∈ partsBesideFrame, t.part p = s.part p)
    (hlen : t.blen.toNat ≤ Config.bufCap) (hbuf : Memory.wf t.buf = true) (hvalid : t.valid = true → t.conn = true)
    (hframe : t.valid = true → t.writtenTo t.blen.toNat = true → t.HoldsResponse) : t.Inv := by
  have herr : t.err = s.err := BitVec.eq_of_toNat_eq (hp .err (by decide))
  have hexp : t.expLen = s.expLen := BitVec.eq_of_toNat_eq (hp .expLen (by decide))
  have hconn : t.conn = s.conn := eq_of_bool_toNat_eq (hp .conn (by decide))
  have hmv : t.mv = s.mv := BitVec.eq_of_toNat_eq (hp .mv (by decide))
  have hmi : t.mi = s.mi := BitVec.eq_of_toNat_eq (hp .mi (by decide))
  have hmp : t.mp = s.mp := BitVec.eq_of_toNat_eq (hp .mp (by decide))
  have hme : t.me = s.me := BitVec.eq_of_toNat_eq (hp .me (by decide))
  have hphv : t.phv = s.phv := BitVec.eq_of_toNat_eq (hp .phv (by decide))
  have hplv : t.plv = s.plv := BitVec.eq_of_toNat_eq (hp .plv (by decide))
  exact
    { err := herr ▸ h.err
      blen := hlen
      expLen := hexp ▸ h.expLen
      buf := hbuf
      conn := by rw [hconn, herr]; exact h.conn
      valid := hvalid
      frame := hframe
      meas := by rw [hmv, hmi, hmp, hme]; exact h.meas
      thresholds := by rw [hphv, hplv]; exact h.thresholds }

/-- A change that clears VALID keeps the invariant if it leaves BLEN in range and BUF in canonical form. -/
theorem of_valid_false {s t : State} (h : s.Inv) (hp : ∀ p ∈ partsBesideFrame, t.part p = s.part p)
    (hv : t.valid = false) (hlen : t.blen.toNat ≤ Config.bufCap) (hbuf : Memory.wf t.buf = true) : t.Inv :=
  h.of_frame hp hlen hbuf (by simp [hv]) (by simp [hv])

/-- A change of nothing the invariant speaks of keeps it. -/
theorem congr {s t : State} (h : s.Inv) (hp : ∀ p ∈ parts, t.part p = s.part p) (hbuf : t.buf = s.buf) : t.Inv := by
  have hlen : t.blen = s.blen := BitVec.eq_of_toNat_eq (hp .blen (by decide))
  have hvalid : t.valid = s.valid := eq_of_bool_toNat_eq (hp .valid (by decide))
  have hconn : t.conn = s.conn := eq_of_bool_toNat_eq (hp .conn (by decide))
  have ha : t.rAddr = s.rAddr := BitVec.eq_of_toNat_eq (hp .rAddr (by decide))
  have hf : t.rFc = s.rFc := BitVec.eq_of_toNat_eq (hp .rFc (by decide))
  refine h.of_frame (fun p hb => hp p (List.mem_append_left _ hb)) (hlen ▸ h.blen) (hbuf ▸ h.buf)
    (by rw [hvalid, hconn]; exact h.valid) fun hv hw => ?_
  have hw' : s.writtenTo s.blen.toNat = true := by
    unfold State.writtenTo at hw ⊢
    rwa [hbuf, hlen] at hw
  exact (h.frame (hvalid ▸ hv) hw').congr hw' hbuf hlen ha hf

/-- A change of parts the invariant does not speak of keeps it. -/
theorem of_keepsAllBut {changed : List Part} {s t : State} (h : s.Inv) (hk : KeepsAllBut changed s t)
    (hc : ∀ p ∈ parts, p ∉ changed) (hbuf : t.buf = s.buf) : t.Inv :=
  h.congr (fun p hp => hk.part (hc p hp)) hbuf

theorem setExpLen {s : State} (h : s.Inv) {n : Nat} (hlo : Config.minRespLen ≤ n) (hhi : n ≤ Config.bufCap) :
    (s.setExpLen n).Inv := by
  have hn : (BitVec.ofNat 9 n).toNat = n := by
    have : n < 512 := by unfold Config.bufCap at hhi; omega
    rw [BitVec.toNat_ofNat, Nat.mod_eq_of_lt this]
  exact { h with
    expLen := .inr (by rw [State.setExpLen_expLen, hn]; exact ⟨hlo, hhi⟩)
    frame := fun hv hw => (h.frame hv hw).congr hw rfl rfl rfl rfl }

theorem setMeas {s : State} (h : s.Inv) {v i p e : Word} (hi lo : Bool)
    (hc : (isConverted v && isConverted i && isConverted p && isConverted e) = true) :
    (s.setMeas v i p e hi lo).Inv :=
  { h with
    meas := hc
    frame := fun hv hw => (h.frame hv hw).congr hw rfl rfl rfl rfl }

theorem setParam {s : State} (h : s.Inv) {hv lv : Word} (a : Byte) (sh : Half)
    (hc : (isConverted hv && isConverted lv) = true) : (s.setParam hv lv a sh).Inv :=
  { h with
    thresholds := hc
    frame := fun hv hw => (h.frame hv hw).congr hw rfl rfl rfl rfl }

theorem setDecOk {s : State} (h : s.Inv) (b : Bool) : (s.setDecOk b).Inv :=
  h.of_keepsAllBut (s.setDecOk_keeps b) (by decide) rfl

theorem setIll {s : State} (h : s.Inv) (b : Bool) : (s.setIll b).Inv :=
  h.of_keepsAllBut (s.setIll_keeps b) (by decide) rfl

theorem drew {s : State} (h : s.Inv) (n : Nat) : (s.drew n).Inv :=
  h.of_keepsAllBut (s.drew_keeps n) (by decide) rfl

/-- Every decoded output is a converted value (R174), so DEC_MEAS keeps the invariant. -/
theorem measDecoded {s : State} (h : s.Inv) : s.measDecoded.Inv := by
  unfold State.measDecoded
  split_ifs
  · refine h.setMeas _ _ ?_
    rw [isConverted_convert (half_toNat_lt _) (by decide), isConverted_convert (half_toNat_lt _) (by decide),
      isConverted_convert (s.payloadPair_lt 1 2) (by decide),
      isConverted_convert (s.payloadPair_lt 1 4) (by decide)]
    rfl
  · exact h

theorem paramDecoded {s : State} (h : s.Inv) : s.paramDecoded.Inv := by
  unfold State.paramDecoded
  split_ifs
  · refine h.setParam _ _ ?_
    rw [isConverted_convert (half_toNat_lt _) (by decide), isConverted_convert (half_toNat_lt _) (by decide)]
    rfl
  · exact h

end State.Inv

/-! ## PARSE -/

/-- ERR after PARSE is one of the five codes (R25, R145). -/
theorem State.parseFrame_err (s : State) : ∃ e : Err, s.parseFrame.err = e.code := by
  obtain ⟨_, h⟩ | ⟨_, _, h⟩ | ⟨_, _, h⟩ | ⟨_, _, h⟩ := s.parseFrame_cases
  · exact ⟨.timeout, by rw [h]; rfl⟩
  · exact ⟨.malformedFrame, by rw [h]; rfl⟩
  · exact ⟨.timeout, by rw [h]; rfl⟩
  · obtain ⟨_, h'⟩ | ⟨_, _, _, h'⟩ | ⟨_, _, h'⟩ :=
      s.judgeFrame_cases (frameTotal Config.params (s.byteAt 0 1) (s.byteAt 0 2))
    · exact ⟨.checksumMismatch, by rw [h, h']; rfl⟩
    · exact ⟨.addressMismatch, by rw [h, h']; rfl⟩
    · exact ⟨.ok, by rw [h, h']; rfl⟩

theorem Err.code_le (e : Err) : e.code.toNat ≤ 4 := by cases e <;> decide

/-- Where PARSE ends with ERR = OK, it cut BLEN to the frame's length, found its CRC good and recorded its address and
function code (R145). -/
theorem State.parseFrame_of_errIsOk {s : State} (hok : s.parseFrame.errIsOk = true) :
    let total := frameTotal Config.params (s.byteAt 0 1) (s.byteAt 0 2)
    (s.setBlen total).crcOk 1 total = true ∧
      s.parseFrame = ((s.setBlen total).raise .ok).setResponse (s.byteAt 3 0) (s.byteAt 3 1) := by
  intro total
  obtain ⟨_, h⟩ | ⟨_, _, h⟩ | ⟨_, _, h⟩ | ⟨_, _, h⟩ := s.parseFrame_cases
  · simp [h] at hok
  · simp [h] at hok
  · simp [h] at hok
  · obtain ⟨_, h'⟩ | ⟨_, _, _, h'⟩ | ⟨hcrc, _, h'⟩ := s.judgeFrame_cases total
    · simp [h, total, h'] at hok
    · simp [h, total, h'] at hok
    · exact ⟨hcrc, h.trans h'⟩

/-- BLEN after PARSE is what it was, or the length of the frame it found (R145, R146). -/
theorem State.parseFrame_blen_le (s : State) (hs : s.blen.toNat ≤ Config.bufCap) :
    s.parseFrame.blen.toNat ≤ Config.bufCap := by
  have hT := (frameTotal_bounds Config.params (s.byteAt 0 1) (s.byteAt 0 2)).2
  have hset : (s.setBlen (frameTotal Config.params (s.byteAt 0 1) (s.byteAt 0 2))).blen.toNat ≤ Config.bufCap := by
    rw [State.setBlen_toNat s (hT.trans_lt (by decide))]; exact hT
  obtain ⟨_, h⟩ | ⟨_, _, h⟩ | ⟨_, _, h⟩ | ⟨_, _, h⟩ := s.parseFrame_cases
  · rw [h]; exact hs
  · rw [h]; exact hs
  · rw [h]; exact hs
  · obtain ⟨_, h'⟩ | ⟨_, _, _, h'⟩ | ⟨_, _, h'⟩ :=
      s.judgeFrame_cases (frameTotal Config.params (s.byteAt 0 1) (s.byteAt 0 2)) <;>
    · rw [h, h']; exact hset

/-- An accepted frame whose bytes are all written is the response BUF holds afterwards (R27, R38, R145). -/
theorem State.parseFrame_holdsResponse {s : State} (hok : s.parseFrame.errIsOk = true)
    (hw : s.parseFrame.writtenTo s.parseFrame.blen.toNat = true) : s.parseFrame.HoldsResponse := by
  obtain ⟨hcrc, h⟩ := State.parseFrame_of_errIsOk hok
  obtain ⟨hlo, hhi⟩ := frameTotal_bounds Config.params (s.byteAt 0 1) (s.byteAt 0 2)
  have hlen : s.parseFrame.blen.toNat = frameTotal Config.params (s.byteAt 0 1) (s.byteAt 0 2) := by
    rw [h]; exact State.setBlen_toNat s (hhi.trans_lt (by decide))
  have hbyte : ∀ i < 5, ∀ k, s.byteAt k i = s.parseFrame.byteAt 0 i := fun i hi k =>
    State.byteAt_of_writtenTo hw (parseFrame_buf s).symm (by omega) k 0
  constructor
  · rw [hlen]; exact hlo
  · rw [hlen, hbyte 1 (by decide), hbyte 2 (by decide)]
  · rw [hlen] at hw ⊢
    rw [← hcrc]
    exact (State.crcOk_of_writtenTo hw (parseFrame_buf s).symm (by omega) 1 0).symm
  · rw [← hbyte 0 (by decide) 3, h]; rfl
  · rw [← hbyte 1 (by decide) 3, h]; rfl

theorem State.writtenTo_closeParse (s : State) (n : Nat) : s.closeParse.writtenTo n = s.writtenTo n := rfl

theorem State.HoldsResponse.closeParse {s : State} (h : s.HoldsResponse) (hw : s.writtenTo s.blen.toNat = true) :
    s.closeParse.HoldsResponse :=
  h.congr hw s.closeParse_buf s.closeParse_blen s.closeParse_rAddr s.closeParse_rFc

/-- PARSE keeps the invariant: CONN and VALID become (ERR = OK), and then BUF holds the response. -/
theorem State.Inv.closeParse_parseFrame {s : State} (h : s.Inv) : s.parseFrame.closeParse.Inv := by
  obtain ⟨e, he⟩ := s.parseFrame_err
  obtain ⟨_, _, _, _, hf⟩ := s.parseFrame_frame
  exact
    { err := by rw [State.closeParse_err, he]; exact e.code_le
      blen := by rw [State.closeParse_blen]; exact s.parseFrame_blen_le h.blen
      expLen := by rw [State.closeParse_expLen, hf]; exact h.expLen
      buf := by rw [State.closeParse_buf, State.parseFrame_buf]; exact h.buf
      conn := by rw [State.closeParse_conn, State.closeParse_err, State.errIsOk_iff]; exact id
      valid := by rw [State.closeParse_conn, State.closeParse_valid]; exact id
      frame := by
        rw [State.closeParse_valid, State.closeParse_blen, State.writtenTo_closeParse]
        exact fun hv hw => (State.parseFrame_holdsResponse hv hw).closeParse hw
      meas := by
        rw [State.closeParse_mv, State.closeParse_mi, State.closeParse_mp, State.closeParse_me, hf]
        exact h.meas
      thresholds := by
        rw [State.closeParse_phv, State.closeParse_plv, hf]
        exact h.thresholds }

/-! ## Operations, accesses, steps -/

theorem exec_encode_valid {s t : State} (h : exec .encode s = .next t) : t.valid = false := by
  injection h with h
  simp [← h]

theorem exec_encode_blen {s t : State} (h : exec .encode s = .next t) : t.blen = 8#9 := by
  injection h with h
  simp [← h, Config.cmdFrameLen]

/-- ENCODE keeps the canonical form of BUF: its eight stores are inside BUF (R135). -/
theorem exec_encode_wf {s t : State} (hw : Memory.wf s.buf = true) (h : exec .encode s = .next t) :
    Memory.wf t.buf = true := by
  injection h with h
  subst h
  have hfields : 0 + (s.commandFields Config.params).length ≤ Config.bufCap := by
    simp [State.commandFields, Config.bufCap]
  rw [State.setIll_buf, State.setValid_buf, State.setCrc_buf, State.setBlen_buf]
  exact State.storeBytes_wf _ 6 _ (State.storeBytes_wf s 0 _ hw hfields) (by simp [Config.bufCap])

theorem exec_inv {i : Instr} {s t : State} (h : s.Inv) (he : exec i s = .next t) : t.Inv := by
  cases i with
  | encode =>
    refine h.of_valid_false (fun p hp => (exec_keepsAllBut he).part (by revert p; decide)) (exec_encode_valid he) ?_
      (exec_encode_wf h.buf he)
    rw [exec_encode_blen he]
    decide
  | framelen =>
    injection he with he
    subst he
    refine ((h.setExpLen ?_ ?_).setIll false).drew 1 <;> split_ifs
    · exact le_rfl
    · exact (frameTotal_bounds _ _ _).1
    · decide
    · exact (frameTotal_bounds _ _ _).2
  | parse =>
    injection he with he
    subst he
    exact h.closeParse_parseFrame.drew 4
  | decMeas =>
    rw [exec_decMeas] at he
    injection he with he
    subst he
    exact ((h.measDecoded.setDecOk _).setIll false).drew 2
  | decParam =>
    rw [exec_decParam] at he
    injection he with he
    subst he
    exact ((h.paramDecoded.setDecOk _).setIll false).drew 2
  | _ => exact h.of_keepsAllBut (exec_keepsAllBut he) (by decide) (exec_buf (by decide) he)

theorem State.Inv.writeBlen {s : State} (h : s.Inv) (w : Word) : (s.writeBlen w).Inv := by
  obtain ⟨hle, hw⟩ | ⟨_, hw⟩ := s.writeBlen_cases w
  · refine h.of_valid_false (fun p hp => (s.writeBlen_keeps w).part (by revert p; decide)) ?_ ?_ ?_ <;> rw [hw]
    · rfl
    · rw [State.setValid_blen, State.setBlen_toNat s (hle.trans_lt (by decide))]
      exact hle
    · exact h.buf
  · rw [hw]; exact h

theorem State.Inv.writeReg {s : State} (h : s.Inv) (w : Word) (r : RegName) : (s.writeReg w r).Inv := by
  cases r with
  | blen => exact h.writeBlen w
  | addr => exact h.of_keepsAllBut (s.writeAddr_keeps w) (by decide) rfl
  | fc => exact h.of_keepsAllBut (s.writeFc_keeps w) (by decide) rfl
  | reg => exact h.of_keepsAllBut (s.writeRegField_keeps w) (by decide) rfl
  | val => exact h.of_keepsAllBut (s.writeVal_keeps w) (by decide) rfl
  | _ => exact h

theorem State.Inv.writeBufSpace {s : State} (h : s.Inv) (i : Nat) (b : Byte) : (s.writeBufSpace i b).Inv := by
  obtain ⟨hi, hw⟩ | ⟨_, hw⟩ := s.writeBufSpace_cases i b
  · refine h.of_valid_false (fun p hp => (s.writeBufSpace_keeps i b).part (by revert p; decide)) ?_ ?_ ?_ <;> rw [hw]
    · rfl
    · exact h.blen
    · exact Memory.wf_set b h.buf hi
  · rw [hw]; exact h

theorem State.Inv.logRead {s : State} (h : s.Inv) (v : ReadValue) : (s.logRead v).Inv :=
  h.congr (fun p _ => by cases p <;> rfl) rfl

theorem perform_inv {a : Access} {s t : State} (h : s.Inv) (hp : perform a s = .next t) : t.Inv := by
  cases a with
  | read off n =>
    obtain ⟨_, _, _, rfl⟩ | ⟨_, _, _, _, rfl⟩ := performRead_cases hp
    · exact h.logRead _
    · exact (h.logRead _).drew 1
  | write off n v =>
    obtain ⟨_, _, he⟩ | ⟨r, _, _, _, rfl⟩ | ⟨_, _, rfl⟩ | ⟨i, _, _, _, rfl⟩ := performWrite_cases hp
    · exact exec_inv h he
    · exact h.writeReg _ r
    · exact h
    · exact h.writeBufSpace i _

/-- The reset input gives the invariant in any state (R240). -/
theorem State.resetBlock_inv (s : State) : s.resetBlock.Inv := by
  constructor <;> simp [State.resetBlock, Block.reset, Config.bufCap, isConverted]

/-- Settles O8, from what each update of the state, each operation and each host access does to the invariant. -/
theorem everyStepKeepsTheInvariant : Obligations.EveryStepKeepsTheInvariant := by
  intro s t h hstep
  obtain ⟨_, ⟨_, rfl⟩ | ⟨e, rest, _, he⟩⟩ := step_cases hstep
  · exact h
  · have hrest : State.Inv { s with pending := rest } := h.congr (fun p _ => by cases p <;> rfl) rfl
    obtain ⟨_, rfl⟩ | ⟨a, _, ha⟩ := he
    · exact State.resetBlock_inv _
    · exact perform_inv hrest ha

end Sys2Proof.Machine
end

section
/-! The words of the register map (R21, R22): fields side by side are one field, and the rest of the word is 0. -/

namespace Sys2Proof.Machine

theorem fieldAt_or_fieldAt {m k : Nat} (x : BitVec m) (y : BitVec k) :
    fieldAt 0 x ||| fieldAt m y = fieldAt 0 (y ++ x) := by
  refine BitVec.eq_of_getLsbD_eq fun i hi => ?_
  rw [BitVec.getLsbD_or, getLsbD_fieldAt, getLsbD_fieldAt, getLsbD_fieldAt, BitVec.getLsbD_append]
  by_cases h : i < m
  · simp [hi, h, show ¬ m ≤ i by omega]
  · simp [hi, h, show m ≤ i by omega]

theorem fieldAt_zero {m j : Nat} (x : BitVec m) (h : j + m = 32) : fieldAt 0 x = (0#j ++ x).cast h := by
  refine BitVec.eq_of_getLsbD_eq fun i hi => ?_
  rw [getLsbD_fieldAt, BitVec.getLsbD_cast, BitVec.getLsbD_append]
  by_cases h : i < m
  · simp [hi, h]
  · simp [h, BitVec.getLsbD_of_ge x i (by omega)]

theorem fieldAt_pair {m k j : Nat} (x : BitVec m) (y : BitVec k) (h : j + k + m = 32) :
    fieldAt 0 x ||| fieldAt m y = (0#j ++ y ++ x).cast h := by
  rw [fieldAt_or_fieldAt, fieldAt_zero (j := j) _ (by omega), BitVec.append_assoc]
  rfl

theorem fieldAt_word (x : Word) : fieldAt 0 x = x := by simp [fieldAt]

/-- A field that takes the low bits of a written word reads back as the word with its other bits 0. -/
theorem fieldAt_extractLsb' (w : Word) {n : Nat} (hn : n ≤ 32) :
    fieldAt 0 (w.extractLsb' 0 n) = w &&& BitVec.ofNat 32 (2 ^ n - 1) := by
  have hpow : 2 ^ n ≤ 2 ^ 32 := Nat.pow_le_pow_right (by decide) hn
  have hpos : 0 < 2 ^ n := Nat.two_pow_pos n
  apply BitVec.eq_of_toNat_eq
  rw [BitVec.toNat_and, BitVec.toNat_ofNat, Nat.mod_eq_of_lt (by omega), Nat.and_two_pow_sub_one_eq_mod, fieldAt,
    BitVec.shiftLeft_zero, BitVec.toNat_setWidth, BitVec.extractLsb'_toNat, Nat.shiftRight_zero]
  exact Nat.mod_eq_of_lt ((Nat.mod_lt _ hpos).trans_le hpow)

/-- STATUS field by field (R22). -/
theorem statusWord_eq (s : State) :
    s.statusWord = 0#24 ++ BitVec.ofBool s.ill ++ BitVec.ofBool s.decOk ++ BitVec.ofBool s.conn ++
      BitVec.ofBool s.valid ++ BitVec.ofBool s.vfy ++ s.err := by
  rw [State.statusWord, fieldAt_or_fieldAt, fieldAt_or_fieldAt, fieldAt_or_fieldAt, fieldAt_or_fieldAt,
    fieldAt_or_fieldAt, fieldAt_zero (j := 24) _ rfl]
  simp only [BitVec.append_assoc, BitVec.cast_eq]

/-! ## What STATUS shows -/

theorem status_err (s : State) : (s.readReg .status).extractLsb' 0 3 = s.err := by
  rw [State.readReg, statusWord_eq, BitVec.extractLsb'_append_eq_of_add_le (by decide), BitVec.extractLsb'_eq_self]

theorem status_vfy (s : State) : (s.readReg .status).getLsbD 3 = s.vfy := by
  simp only [State.readReg, statusWord_eq, BitVec.getLsbD_append, BitVec.getLsbD_ofBool]
  rfl

theorem status_valid (s : State) : (s.readReg .status).getLsbD 4 = s.valid := by
  simp only [State.readReg, statusWord_eq, BitVec.getLsbD_append, BitVec.getLsbD_ofBool]
  rfl

theorem status_conn (s : State) : (s.readReg .status).getLsbD 5 = s.conn := by
  simp only [State.readReg, statusWord_eq, BitVec.getLsbD_append, BitVec.getLsbD_ofBool]
  rfl

theorem status_decOk (s : State) : (s.readReg .status).getLsbD 6 = s.decOk := by
  simp only [State.readReg, statusWord_eq, BitVec.getLsbD_append, BitVec.getLsbD_ofBool]
  rfl

theorem status_ill (s : State) : (s.readReg .status).getLsbD 7 = s.ill := by
  simp only [State.readReg, statusWord_eq, BitVec.getLsbD_append, BitVec.getLsbD_ofBool]
  rfl

/-! ## The map read by offset -/

/-- A 32-bit read at a register's offset completes and returns the register's word (R62). -/
theorem perform_read_offset (s : State) (r : RegName) {w : Word} (hw : s.readReg r = w) :
    ∃ t, perform (.read r.offset 4) s = .next t ∧ t.reads = s.reads ++ [.word w] :=
  ⟨_, performRead_offset r s, by rw [State.logRead_reads, hw]⟩

/-- Settles O60, register by register. -/
theorem registerMapReads : Obligations.RegisterMapReads := by
  intro s
  refine ⟨perform_read_offset s .cmd ?_, perform_read_offset s .status ?_, perform_read_offset s .addr ?_,
    perform_read_offset s .fc ?_, perform_read_offset s .reg ?_, perform_read_offset s .val ?_,
    perform_read_offset s .crc ?_, perform_read_offset s .blen ?_, perform_read_offset s .expLen ?_,
    perform_read_offset s .rsp ?_, perform_read_offset s .unpk0 ?_, perform_read_offset s .unpk1 ?_,
    perform_read_offset s .mv ?_, perform_read_offset s .mi ?_, perform_read_offset s .mp ?_,
    perform_read_offset s .me ?_, perform_read_offset s .malm ?_, perform_read_offset s .phv ?_,
    perform_read_offset s .plv ?_, perform_read_offset s .pAddr ?_, perform_read_offset s .pShunt ?_⟩
  · rfl
  · exact statusWord_eq s
  · exact fieldAt_pair s.addr (BitVec.ofBool s.bcast) rfl
  · exact fieldAt_zero s.fc rfl
  · exact fieldAt_zero s.reg rfl
  · exact fieldAt_zero s.val rfl
  · exact fieldAt_zero s.crc rfl
  · exact fieldAt_zero s.blen rfl
  · exact fieldAt_zero s.expLen rfl
  · exact fieldAt_pair s.rAddr s.rFc rfl
  · exact fieldAt_pair s.uAddr s.uFc rfl
  · exact (fieldAt_or_fieldAt s.uReg s.uVal).trans (fieldAt_word _)
  · rfl
  · rfl
  · rfl
  · rfl
  · exact fieldAt_pair (BitVec.ofBool s.alh) (BitVec.ofBool s.all) rfl
  · rfl
  · rfl
  · exact fieldAt_zero s.pAddr rfl
  · exact fieldAt_zero s.pShunt rfl

end Sys2Proof.Machine
end

section
/-! Who writes which register and flag (R25 to R30, R35, R37, R43, R45): the claims about single fields, read off
`exec_keepsAllBut` and `perform_part`. -/

namespace Sys2Proof.Machine

/-! ## What the operations leave in their own flags -/

/-- PARSE leaves one of the five codes in ERR (R25, R145). -/
theorem exec_parse_err {s t : State} (h : exec .parse s = .next t) : ∃ e : Err, t.err = e.code := by
  obtain ⟨e, he⟩ := s.parseFrame_err
  injection h with h
  exact ⟨e, by rw [← h, State.drew_err, State.closeParse_err, he]⟩

/-- PARSE writes (ERR = OK) into VALID and CONN (R27, R28, R145). -/
theorem exec_parse_valid_conn {s t : State} (h : exec .parse s = .next t) :
    t.valid = (t.err == 0#3) ∧ t.conn = (t.err == 0#3) := by
  injection h with h
  rw [← h, State.drew_valid, State.drew_conn, State.drew_err, State.closeParse_valid, State.closeParse_conn,
    State.closeParse_err]
  exact ⟨rfl, rfl⟩

/-- An operation leaves in ILL whether its code is reserved (R30). -/
theorem exec_ill {i : Instr} {s t : State} (h : exec i s = .next t) : t.ill = i.isReserved := by
  cases i with
  | decMeas => rw [exec_decMeas] at h; injection h with h; rw [← h]; rfl
  | decParam => rw [exec_decParam] at h; injection h with h; rw [← h]; rfl
  | unpack => rw [exec_unpack] at h; injection h with h; rw [← h]; rfl
  | _ => injection h with h; rw [← h]; rfl

/-- The reserved operations are those of codes 9 to 15 (R83). -/
theorem decodeOp_isReserved : ∀ op : BitVec 4, (decodeOp op).isReserved = decide (9 ≤ op.toNat) := by
  decide

theorem opField_ofNat_toNat (v : Nat) : (opField (BitVec.ofNat 32 v)).toNat = v % 16 := by
  rw [opField, BitVec.extractLsb'_toNat, BitVec.toNat_ofNat, Nat.shiftRight_zero]
  omega

/-- The precondition of the decoders, clause by clause (R175). -/
theorem State.decReady_iff (s : State) (k n : Nat) :
    s.decReady k n = true ↔ s.valid = true ∧ s.blen.toNat = 5 + n ∧ s.byteAt k 2 = BitVec.ofNat 8 n := by
  simp [decReady, and_assoc]

theorem State.isCommandFrame_iff (s : State) :
    s.isCommandFrame = true ↔ s.blen.toNat = 8 ∧ s.crcOk 0 8 = true := by
  simp [isCommandFrame]

/-! ## The claims -/

/-- Settles O11: ERR is among what PARSE writes, and among nothing else's. -/
theorem errIsWrittenOnlyByParse : Obligations.ErrIsWrittenOnlyByParse := by
  refine ⟨status_err, by decide, fun _ _ => exec_parse_err, fun i s t hi h => ?_, fun a s t ha h => ?_, rfl, rfl, rfl⟩
  · have hout : Part.err ∉ i.writes := by cases i <;> simp [Instr.writes] at hi ⊢
    exact BitVec.eq_of_toNat_eq ((exec_keepsAllBut h).part hout)
  · exact BitVec.eq_of_toNat_eq (perform_part (p := .err) ha h (by decide))

/-- Settles O12: VFY takes the checks of CRC_VERIFY and UNPACK, and is among what no other operation or access writes. -/
theorem vfyIsWrittenOnlyByVerifyAndUnpack : Obligations.VfyIsWrittenOnlyByVerifyAndUnpack := by
  refine ⟨status_vfy, fun s => ⟨_, rfl, ?_⟩, fun s => ⟨_, exec_unpack s, s.isCommandFrame_iff⟩,
    fun i s t hv hu h => ?_, fun a s t ha h => ?_, rfl⟩
  · by_cases hlen : 2 ≤ s.blen.toNat <;> simp [hlen]
  · have hout : Part.vfy ∉ i.writes := by cases i <;> simp [Instr.writes] at hv hu ⊢
    exact eq_of_bool_toNat_eq ((exec_keepsAllBut h).part hout)
  · exact eq_of_bool_toNat_eq (perform_part (p := .vfy) ha h (by decide))

theorem State.writeReg_valid {r : RegName} (hr : r ≠ .blen) (s : State) (w : Word) :
    (s.writeReg w r).valid = s.valid := by
  have hout : Part.valid ∉ r.hostWrites := by cases r <;> simp [RegName.hostWrites] at hr ⊢
  exact eq_of_bool_toNat_eq ((s.writeReg_keeps w r).part hout)

/-- A BLEN write clears VALID exactly when it is accepted (R27, R36). -/
theorem State.writeBlen_valid (s : State) (v : Nat) :
    (s.writeBlen (BitVec.ofNat 32 v)).valid = if v % 512 ≤ 260 then false else s.valid := by
  have hv : ((BitVec.ofNat 32 v).extractLsb' 0 9).toNat = v % 512 := by
    rw [BitVec.extractLsb'_toNat, BitVec.toNat_ofNat, Nat.shiftRight_zero]
    omega
  obtain ⟨hle, hw⟩ | ⟨hlt, hw⟩ := s.writeBlen_cases (BitVec.ofNat 32 v) <;> rw [hw]
  · rw [if_pos (hv ▸ hle)]; rfl
  · rw [if_neg (Nat.not_le.2 (hv ▸ hlt))]

/-- Settles O13: PARSE and ENCODE are the operations that write VALID; among the accesses, the accepted BLEN writes and
the writes inside BUF clear it. -/
theorem validIsClearedByEveryChangeOfTheFrame : Obligations.ValidIsClearedByEveryChangeOfTheFrame := by
  refine ⟨status_valid, fun _ _ h => (exec_parse_valid_conn h).1, fun _ _ => exec_encode_valid,
    fun i s t hp he h => ?_, fun s v t h => ?_, fun s i v t hi h => ?_, fun s off n v t hcmd hblen hbuf h => ?_,
    fun s off n t h => ?_, rfl⟩
  · have hout : Part.valid ∉ i.writes := by cases i <;> simp [Instr.writes] at hp he ⊢
    exact eq_of_bool_toNat_eq ((exec_keepsAllBut h).part hout)
  · injection (perform_write_offset (r := .blen) (by decide) v s).symm.trans h with h
    rw [← h]
    exact s.writeBlen_valid v
  · injection (perform_write_buf (by omega) v s).symm.trans h with h
    rw [← h]
    obtain ⟨_, hw⟩ | ⟨hge, _⟩ := s.writeBufSpace_cases i (BitVec.ofNat 8 v)
    · rw [hw]; rfl
    · exact absurd hi (Nat.not_lt.2 hge)
  · obtain ⟨rfl, _, _⟩ | ⟨r, _, hoff, _, rfl⟩ | ⟨_, _, rfl⟩ | ⟨i, hoff, _, _, rfl⟩ := performWrite_cases h
    · exact absurd rfl hcmd
    · exact State.writeReg_valid (fun hr => hblen (by rw [hoff, hr]; rfl)) s _
    · rfl
    · obtain ⟨hi, _⟩ | ⟨_, hw⟩ := s.writeBufSpace_cases i (BitVec.ofNat 8 v)
      · unfold bufBase at hoff
        unfold Config.bufCap at hi
        exact absurd ⟨by omega, by omega⟩ hbuf
      · rw [hw]
  · obtain ⟨_, _, _, rfl⟩ | ⟨_, _, _, _, rfl⟩ := performRead_cases h <;> rfl

/-- Settles O14: CONN is among what PARSE writes, and among nothing else's. -/
theorem connIsWrittenOnlyByParse : Obligations.ConnIsWrittenOnlyByParse := by
  refine ⟨status_conn, fun s => ⟨_, rfl, ?_⟩, fun i s t hi h => ?_, fun a s t ha h => ?_, rfl⟩
  · rw [(exec_parse_valid_conn (exec_parse s)).2, beq_iff_eq]
  · have hout : Part.conn ∉ i.writes := by cases i <;> simp [Instr.writes] at hi ⊢
    exact eq_of_bool_toNat_eq ((exec_keepsAllBut h).part hout)
  · exact eq_of_bool_toNat_eq (perform_part (p := .conn) ha h (by decide))

/-- Settles O15: DEC_OK takes the decoders' precondition, and is among what no other operation or access writes. -/
theorem decOkIsWrittenOnlyByDecoders : Obligations.DecOkIsWrittenOnlyByDecoders := by
  refine ⟨status_decOk, fun s => ⟨_, exec_decMeas s, s.decReady_iff 0 Config.measBytes⟩,
    fun s => ⟨_, exec_decParam s, s.decReady_iff 0 Config.paramBytes⟩, fun i s t hm hp h => ?_,
    fun a s t ha h => ?_, rfl⟩
  · have hout : Part.decOk ∉ i.writes := by cases i <;> simp [Instr.writes] at hm hp ⊢
    exact eq_of_bool_toNat_eq ((exec_keepsAllBut h).part hout)
  · exact eq_of_bool_toNat_eq (perform_part (p := .decOk) ha h (by decide))

/-- Settles O16: a CMD write runs the operation of its low four bits, which leaves in ILL whether it is reserved. -/
theorem illTellsReservedCodes : Obligations.IllTellsReservedCodes := by
  refine ⟨status_ill, fun s v => ?_, fun a s t ha h => ?_, rfl⟩
  · obtain ⟨t, ht⟩ := exec_answers (decodeCmd (BitVec.ofNat 32 v)) s
    refine ⟨t, (perform_write_cmd v s).trans ht, ?_⟩
    rw [exec_ill ht, decodeCmd, decodeOp_isReserved, opField_ofNat_toNat, decide_eq_true_iff]
  · exact eq_of_bool_toNat_eq (perform_part (p := .ill) ha h (by decide))

/-- Settles O17: CRC and EXPLEN are each among what their own operations write only. -/
theorem crcAndExpLenHaveOneSource : Obligations.CrcAndExpLenHaveOneSource := by
  refine ⟨fun i s t hc he h => ?_, fun i s t hf h => ?_, fun a s t ha h => ⟨?_, ?_⟩⟩
  · have hout : Part.crc ∉ i.writes := by cases i <;> simp [Instr.writes] at hc he ⊢
    exact BitVec.eq_of_toNat_eq ((exec_keepsAllBut h).part hout)
  · have hout : Part.expLen ∉ i.writes := by cases i <;> simp [Instr.writes] at hf ⊢
    exact BitVec.eq_of_toNat_eq ((exec_keepsAllBut h).part hout)
  · exact BitVec.eq_of_toNat_eq (perform_part (p := .crc) ha h (by decide))
  · exact BitVec.eq_of_toNat_eq (perform_part (p := .expLen) ha h (by decide))

/-- ENCODE stores BUF[0..8) and leaves every other byte (R135). -/
theorem exec_encode_buf_above {s t : State} (h : exec .encode s = .next t) {i : Nat} (hi : 8 ≤ i) :
    Memory.get? t.buf i = Memory.get? s.buf i := by
  injection h with h
  rw [← h, State.setIll_buf, State.setValid_buf, State.setCrc_buf, State.setBlen_buf, State.storeBytes_get?,
    if_neg (by simp only [List.length_cons, List.length_nil]; omega), State.storeBytes_get?,
    if_neg (by simp only [State.commandFields, List.length_cons, List.length_nil]; omega)]

/-- No operation writes an operand register (R45). -/
theorem operand_not_mem_writes (i : Instr) : ∀ p ∈ [Part.addr, .bcast, .fc, .reg, .val], p ∉ i.writes := by
  cases i <;> decide

/-- Settles O18: `exec_buf` for the operations beside ENCODE, the extent of ENCODE's stores, and the frame of every
operation for the operands. -/
theorem onlyEncodeWritesBufAndNoneWritesOperands : Obligations.OnlyEncodeWritesBufAndNoneWritesOperands := by
  refine ⟨fun i s t hi h j => by rw [exec_buf hi h], fun s t h j => exec_encode_buf_above h, fun i s t h => ?_⟩
  have hkeep : ∀ p ∈ [Part.addr, .bcast, .fc, .reg, .val], t.part p = s.part p := fun p hp =>
    (exec_keepsAllBut h).part (operand_not_mem_writes i p hp)
  exact ⟨BitVec.eq_of_toNat_eq (hkeep .addr (by decide)), eq_of_bool_toNat_eq (hkeep .bcast (by decide)),
    BitVec.eq_of_toNat_eq (hkeep .fc (by decide)), BitVec.eq_of_toNat_eq (hkeep .reg (by decide)),
    BitVec.eq_of_toNat_eq (hkeep .val (by decide))⟩

end Sys2Proof.Machine
end

section
/-! The host's writes (R21, R31 to R36), the first CMD write of a step (R23), and BUF's canonical form (R43). -/

namespace Sys2Proof.Machine

/-- Settles O4: the step takes the pending CMD write off the list and performs it. -/
theorem stepRunsTheDecodedOperation : Obligations.StepRunsTheDecodedOperation := by
  have hstep : ∀ (s : State) (v : Nat) (rest : List Event), s.err.toNat ≤ 4 →
      s.pending = .access (.write 0x000 4 v) :: rest →
      step s = exec (decodeCmd (BitVec.ofNat 32 v)) { s with pending := rest } := by
    intro s v rest herr hp
    rw [step, stepHost, if_neg (by omega), hp]
    exact perform_write_cmd v { s with pending := rest }
  refine ⟨hstep, fun s w herr => ?_⟩
  have hw : BitVec.ofNat 32 (w.toNat % 2 ^ 32) = w := by
    rw [Nat.mod_eq_of_lt w.isLt, BitVec.ofNat_toNat, BitVec.setWidth_eq]
  rw [hstep (s.withFetchWord 32 w.toNat) (w.toNat % 2 ^ 32) s.pending herr rfl, hw]
  rfl

/-! ## Register writes -/

/-- A 32-bit write of the word `w` at a register's offset (R62). -/
theorem perform_write_word {r : RegName} (hr : r ≠ .cmd) (s : State) (w : Word) :
    perform (.write r.offset 4 w.toNat) s = .next (s.writeReg w r) := by
  rw [perform_write_offset hr, BitVec.ofNat_toNat, BitVec.setWidth_eq]

theorem State.readReg_addr_writeAddr (s : State) (w : Word) : (s.writeAddr w).readReg .addr = w &&& 0x1FF#32 := by
  have hbcast : BitVec.ofBool (w.getLsbD 8) = w.extractLsb' 8 1 := by
    refine BitVec.eq_of_getLsbD_eq fun i hi => ?_
    obtain rfl : i = 0 := by omega
    rw [BitVec.getLsbD_ofBool, BitVec.getLsbD_extractLsb']
    rfl
  have hbit : BitVec.ofBool (w.getLsbD 8) ++ w.extractLsb' 0 8 = w.extractLsb' 0 9 := by
    rw [hbcast]
    exact BitVec.extractLsb'_append_extractLsb'_eq_extractLsb' rfl
  rw [readReg, writeAddr_addr, writeAddr_bcast, fieldAt_or_fieldAt, hbit]
  exact fieldAt_extractLsb' w (by decide)

/-- Settles O24: each write is `writeReg`, whose rules say what it changes, and a written field reads back. -/
theorem operandWritesReadBack : Obligations.OperandWritesReadBack := by
  intro s w
  refine ⟨⟨_, perform_write_word (r := .addr) (by decide) s w, ?_, ?_, rfl, fun _ => rfl, s.writeAddr_keeps w⟩,
    ⟨_, perform_write_word (r := .fc) (by decide) s w, ?_, ?_, fun _ => rfl, s.writeFc_keeps w⟩,
    ⟨_, perform_write_word (r := .reg) (by decide) s w, ?_, ?_, fun _ => rfl, s.writeRegField_keeps w⟩,
    ⟨_, perform_write_word (r := .val) (by decide) s w, ?_, ?_, fun _ => rfl, s.writeVal_keeps w⟩⟩
  · exact s.readReg_addr_writeAddr w
  · exact (BitVec.setWidth_eq_extractLsb' (by decide)).symm
  · exact fieldAt_extractLsb' w (by decide)
  · exact (BitVec.setWidth_eq_extractLsb' (by decide)).symm
  · exact fieldAt_extractLsb' w (by decide)
  · exact (BitVec.setWidth_eq_extractLsb' (by decide)).symm
  · exact fieldAt_extractLsb' w (by decide)
  · exact (BitVec.setWidth_eq_extractLsb' (by decide)).symm

/-- Settles O25: the two cases of a BLEN write. -/
theorem blenWriteIsAcceptedUpTo260 : Obligations.BlenWriteIsAcceptedUpTo260 := by
  intro s w
  have hv : (w.extractLsb' 0 9).toNat = w.toNat % 512 := by
    rw [BitVec.extractLsb'_toNat, Nat.shiftRight_zero]
  refine ⟨s.writeBlen w, perform_write_word (r := .blen) (by decide) s w, fun hle => ?_, fun hlt => ?_⟩
  · obtain ⟨_, hw⟩ | ⟨hgt, _⟩ := s.writeBlen_cases w
    · refine ⟨?_, by rw [hw]; rfl, fun _ => by rw [hw]; rfl, s.writeBlen_keeps w⟩
      rw [hw, State.setValid_blen, State.setBlen_toNat s (BitVec.isLt _), hv]
    · exact absurd hle (Nat.not_le.2 (hv ▸ hgt))
  · obtain ⟨hle, _⟩ | ⟨_, hw⟩ := s.writeBlen_cases w
    · exact absurd hlt (Nat.not_lt.2 (hv ▸ hle))
    · exact hw

/-- Settles O26: `writeReg` takes a word for the operands and BLEN only. -/
theorem readOnlyRegistersIgnoreWrites : Obligations.ReadOnlyRegistersIgnoreWrites := by
  intro s r v hr
  have hcmd : r ≠ .cmd := fun h => hr (by rw [h]; decide)
  rw [perform_write_offset hcmd]
  cases r <;> simp [State.writeReg] at hr ⊢

/-! ## BUF's canonical form -/

namespace Memory

theorem get?_cons_self (a : Nat) (x : Byte) (m : Memory) : get? ((a, x) :: m) a = some x := by
  rw [get?_cons, if_pos rfl]

/-- A canonical memory reads nothing below its first index. -/
theorem head_le_of_get?_eq_some {lo a i : Nat} {x b : Byte} {m : Memory} (h : wfFrom lo ((a, x) :: m) = true)
    (hg : get? ((a, x) :: m) i = some b) : a ≤ i := by
  obtain ⟨_, hcap, hm⟩ := (wfFrom_cons lo a x m).1 h
  exact (wfFrom_bounds ((wfFrom_cons a a x m).2 ⟨le_rfl, hcap, hm⟩) hg).1

/-- The tail of a canonical memory reads what the whole does, but nothing at the first index. -/
theorem get?_tail {lo a : Nat} {x : Byte} {m : Memory} (h : wfFrom lo ((a, x) :: m) = true) (i : Nat) :
    get? m i = if i = a then none else get? ((a, x) :: m) i := by
  split_ifs with hi
  · exact get?_eq_none_of_lt ((wfFrom_cons lo a x m).1 h).2.2 (by omega)
  · rw [get?_cons, if_neg (Ne.symm hi)]

/-- Memories with rising indexes that read alike have the same first entry, and then tails that read alike. -/
theorem eq_of_wfFrom {m m' : Memory} {lo lo' : Nat} (h : wfFrom lo m = true) (h' : wfFrom lo' m' = true)
    (hg : ∀ i, get? m i = get? m' i) : m = m' := by
  induction m generalizing m' lo lo' with
  | nil =>
    cases m' with
    | nil => rfl
    | cons c m' => cases (hg c.1).trans (get?_cons_self c.1 c.2 m')
  | cons c m ih =>
    cases m' with
    | nil => cases (hg c.1).symm.trans (get?_cons_self c.1 c.2 m)
    | cons c' m' =>
      obtain ⟨a, x⟩ := c
      obtain ⟨a', x'⟩ := c'
      have hle : a' ≤ a := head_le_of_get?_eq_some h' ((hg a).symm.trans (get?_cons_self a x m))
      have hge : a ≤ a' := head_le_of_get?_eq_some h ((hg a').trans (get?_cons_self a' x' m'))
      obtain rfl : a = a' := Nat.le_antisymm hge hle
      have hx := hg a
      rw [get?_cons_self, get?_cons_self, Option.some_inj] at hx
      have htail : ∀ i, get? m i = get? m' i := fun i => by rw [get?_tail h, get?_tail h', hg]
      rw [hx, ih ((wfFrom_cons lo a x m).1 h).2.2 ((wfFrom_cons lo' a x' m').1 h').2.2 htail]

end Memory

/-- Settles O30, by induction on the lists. -/
theorem canonicalMemoriesAreEqualData : Obligations.CanonicalMemoriesAreEqualData :=
  fun _ _ => Memory.eq_of_wfFrom

end Sys2Proof.Machine
end

section
/-! The host's accesses (R61 to R65, R69, R71): which of them answer, what each part of the window answers, and what a
read changes. -/

namespace Sys2Proof.Machine

/-! ## The routing of an access -/

/-- The routing that reads and writes share (R61 to R64): the register space's answer `reg`, the upper space's answer `buf`,
or a refusal. -/
def routed (off n : Nat) (reg buf : Result) : Result :=
  if windowSize ≤ off then .refused .outsideWindow
  else if off < bufBase then if n = 4 ∧ off % 4 = 0 then reg else .refused .unsupportedAccess
  else if n = 1 then buf else .refused .unsupportedAccess

theorem perform_read_eq_routed (off n : Nat) (s : State) :
    perform (.read off n) s =
      routed off n (.next (s.logRead (.word (s.readRegSpace off))))
        (.next ((s.logRead (.byte (s.readBufSpace (off - bufBase)))).drew 1)) := rfl

theorem perform_write_eq_routed (off n v : Nat) (s : State) :
    perform (.write off n v) s =
      routed off n (writeRegSpace off (BitVec.ofNat 32 v) s)
        (.next (s.writeBufSpace (off - bufBase) (BitVec.ofNat 8 v))) := rfl

theorem supportedAt_iff (off n : Nat) :
    supportedAt off n = true ↔
      (off < bufBase ∧ n = 4 ∧ off % 4 = 0) ∨ (bufBase ≤ off ∧ off < windowSize ∧ n = 1) := by
  simp only [supportedAt, Bool.or_eq_true, Bool.and_eq_true, beq_iff_eq, decide_eq_true_iff, bufBase, windowSize]
  omega

section
variable {off n : Nat} (reg buf : Result)

theorem routed_outside (h : windowSize ≤ off) : routed off n reg buf = .refused .outsideWindow :=
  if_pos h

theorem routed_regSpace (hlt : off < bufBase) (hal : off % 4 = 0) : routed off 4 reg buf = reg := by
  have hwin : ¬ windowSize ≤ off := by unfold bufBase at hlt; unfold windowSize; omega
  rw [routed, if_neg hwin, if_pos hlt, if_pos ⟨rfl, hal⟩]

theorem routed_bufSpace (hle : bufBase ≤ off) (hlt : off < windowSize) : routed off 1 reg buf = buf := by
  rw [routed, if_neg (Nat.not_le.2 hlt), if_neg (Nat.not_lt.2 hle), if_pos rfl]

/-- A supported access gets the answer of its part of the window (R62, R63). -/
theorem routed_of_supported (h : supportedAt off n = true) : routed off n reg buf = reg ∨ routed off n reg buf = buf := by
  obtain ⟨hlt, rfl, hal⟩ | ⟨hle, hlt, rfl⟩ := (supportedAt_iff off n).1 h
  · exact .inl (routed_regSpace reg buf hlt hal)
  · exact .inr (routed_bufSpace reg buf hle hlt)

/-- Inside the window an access that is not supported is refused as such (R64). -/
theorem routed_unsupported (hwin : off < windowSize) (h : supportedAt off n = false) :
    routed off n reg buf = .refused .unsupportedAccess := by
  have hsup := (supportedAt_iff off n).not.1 (Bool.eq_false_iff.1 h)
  rw [routed, if_neg (Nat.not_le.2 hwin)]
  split_ifs with hreg h4 h1
  · exact absurd (.inl ⟨hreg, h4⟩) hsup
  · rfl
  · exact absurd (.inr ⟨Nat.not_lt.1 hreg, hwin, h1⟩) hsup
  · rfl

/-- An access that is not supported is refused, whatever its part of the window would answer (R61, R64). -/
theorem routed_refused (h : supportedAt off n = false) :
    routed off n reg buf = .refused .unsupportedAccess ∨ routed off n reg buf = .refused .outsideWindow := by
  by_cases hwin : off < windowSize
  · exact .inl (routed_unsupported reg buf hwin h)
  · exact .inr (routed_outside reg buf (Nat.not_lt.1 hwin))

end

/-- A write in the register space answers: an operation runs to completion, and a register or a reserved offset takes or
ignores the word (R21, R23, R65). -/
theorem writeRegSpace_answers (off : Nat) (w : Word) (s : State) : ∃ t, writeRegSpace off w s = .next t := by
  unfold writeRegSpace
  split
  · exact exec_answers _ s
  · exact ⟨_, rfl⟩
  · exact ⟨_, rfl⟩

theorem perform_supported {a : Access} (h : a.supported = true) (s : State) : ∃ t, perform a s = .next t := by
  cases a with
  | read off n =>
    rw [perform_read_eq_routed]
    obtain hr | hr := routed_of_supported _ _ h <;> exact ⟨_, hr⟩
  | write off n v =>
    rw [perform_write_eq_routed]
    obtain hr | hr := routed_of_supported _ _ h <;> rw [hr]
    · exact writeRegSpace_answers off _ s
    · exact ⟨_, rfl⟩

/-- Settles O21, from the routing of reads and of writes. -/
theorem exactlySupportedAccessesAnswer : Obligations.ExactlySupportedAccessesAnswer := by
  refine fun a s => ⟨fun h => perform_supported h s, fun h => ?_,
    fun _ _ _ hoff => ⟨routed_outside _ _ hoff, routed_outside _ _ hoff⟩,
    fun _ _ _ hoff h => ⟨routed_unsupported _ _ hoff h, routed_unsupported _ _ hoff h⟩⟩
  cases a with
  | read off n => exact routed_refused _ _ h
  | write off n v => exact routed_refused _ _ h

/-! ## Reads -/

/-- The value a read at a window offset returns: a register, or a byte of the upper space (R62, R63, R65). -/
def State.readValue (s : State) (off : Nat) : ReadValue :=
  if off < bufBase then .word (s.readRegSpace off) else .byte (s.readBufSpace (off - bufBase))

/-- A read that answers returns its value and changes nothing of the block or of the host's accesses (R69). -/
theorem perform_read_frame {off n : Nat} {s t : State} (h : perform (.read off n) s = .next t) :
    t.toBlock = s.toBlock ∧ t.pending = s.pending ∧ t.reads = s.reads ++ [s.readValue off] := by
  obtain ⟨hlt, _, _, rfl⟩ | ⟨i, rfl, _, _, rfl⟩ := performRead_cases h
  · exact ⟨rfl, rfl, by rw [State.logRead_reads, State.readValue, if_pos hlt]⟩
  · refine ⟨rfl, rfl, ?_⟩
    rw [State.drew_reads, State.logRead_reads, State.readValue, if_neg (Nat.not_lt.2 (Nat.le_add_right _ i)),
      Nat.add_sub_cancel_left]

/-- Settles O22: the register's own read, and `perform_read_frame`. -/
theorem readsReturnTheRegisterAndChangeNothing : Obligations.ReadsReturnTheRegisterAndChangeNothing := by
  refine ⟨fun r s => perform_read_offset s r rfl, fun off n s t h => ?_⟩
  obtain ⟨hblock, hpending, hreads⟩ := perform_read_frame h
  exact ⟨hblock, hpending, _, hreads⟩

/-- A register is the block's: the host's accesses, the read log and the draws do not show in it (R22). -/
theorem State.readReg_congr {s t : State} (h : t.toBlock = s.toBlock) (r : RegName) : t.readReg r = s.readReg r := by
  obtain ⟨_, _, _, _⟩ := s
  obtain ⟨_, _, _, _⟩ := t
  obtain rfl := h
  cases r <;> rfl

theorem State.readRegSpace_congr {s t : State} (h : t.toBlock = s.toBlock) (off : Nat) :
    t.readRegSpace off = s.readRegSpace off := by
  unfold readRegSpace
  split
  · exact readReg_congr h _
  · rfl

theorem State.readBufSpace_congr {s t : State} {i : Nat} (h : t.toBlock = s.toBlock)
    (hw : i < Config.bufCap → (Memory.get? s.buf i).isSome = true) : t.readBufSpace i = s.readBufSpace i := by
  unfold readBufSpace
  split_ifs with hi
  · obtain ⟨b, hb⟩ := Option.isSome_iff_exists.1 (hw hi)
    have hb' : Memory.get? t.buf i = some b := by rw [h, hb]
    rw [byteAt_of_written hb, byteAt_of_written hb']
  · rfl

/-- Blocks that are equal give equal values, but for a byte of BUF that was never written (R43, R69). -/
theorem State.readValue_congr {s t : State} {off : Nat} (h : t.toBlock = s.toBlock)
    (hw : 0x100 ≤ off → off < 0x204 → (Memory.get? s.buf (off - 0x100)).isSome = true) :
    t.readValue off = s.readValue off := by
  unfold readValue
  split_ifs with hlt
  · rw [readRegSpace_congr h]
  · unfold bufBase at hlt ⊢
    rw [readBufSpace_congr h fun hi => hw (by omega) (by unfold Config.bufCap at hi; omega)]

/-- Settles O23: the second read finds the block the first one found. -/
theorem readsAreIdempotent : Obligations.ReadsAreIdempotent := by
  intro off n s t u hst htu hw
  obtain ⟨hblock, _, hreads⟩ := perform_read_frame hst
  obtain ⟨_, _, hreads'⟩ := perform_read_frame htu
  refine ⟨s.readValue off, hreads, ?_⟩
  rw [hreads', hreads, State.readValue_congr hblock hw, List.append_assoc, List.singleton_append]

/-! ## Reserved offsets and the BUF window -/

theorem regAt?_reserved {off : Nat} (h : 0x054 ≤ off) : regAt? off = none := by
  cases hr : regAt? off with
  | none => rfl
  | some r =>
    have hle := offset_le r
    rw [offset_of_regAt? hr] at hle
    omega

/-- An 8-bit read in the upper space answers with the byte there (R63, R65). -/
theorem perform_read_buf {i : Nat} (hi : i < 0x300) (s : State) :
    perform (.read (0x100 + i) 1) s = .next ((s.logRead (.byte (s.readBufSpace i))).drew 1) := by
  have hlt : 0x100 + i < windowSize := by unfold windowSize; omega
  have hidx : 0x100 + i - bufBase = i := Nat.add_sub_cancel_left 0x100 i
  rw [perform_read_eq_routed, routed_bufSpace _ _ (Nat.le_add_right 0x100 i) hlt, hidx]

/-- A reserved offset of the register space ignores a 32-bit write (R65). -/
theorem perform_write_reservedReg {off : Nat} (hlo : 0x054 ≤ off) (hhi : off ≤ 0x0FF) (hal : off % 4 = 0) (v : Nat)
    (s : State) : perform (.write off 4 v) s = .next s := by
  rw [perform_write_eq_routed, routed_regSpace _ _ (Nat.lt_succ_of_le hhi) hal, writeRegSpace, regAt?_reserved hlo]

/-- A reserved offset of the register space reads as 0 (R65). -/
theorem perform_read_reservedReg {off : Nat} (hlo : 0x054 ≤ off) (hhi : off ≤ 0x0FF) (hal : off % 4 = 0) (s : State) :
    perform (.read off 4) s = .next (s.logRead (.word 0#32)) := by
  rw [perform_read_eq_routed, routed_regSpace _ _ (Nat.lt_succ_of_le hhi) hal, State.readRegSpace, regAt?_reserved hlo]

theorem State.writeBufSpace_reserved {i : Nat} (h : Config.bufCap ≤ i) (s : State) (b : Byte) :
    s.writeBufSpace i b = s :=
  if_neg (Nat.not_lt.2 h)

theorem State.readBufSpace_reserved {i : Nat} (h : Config.bufCap ≤ i) (s : State) : s.readBufSpace i = 0#8 :=
  if_neg (Nat.not_lt.2 h)

/-- Settles O27: no register lies from 0x054 up, and no byte of BUF from 0x204 up. -/
theorem reservedOffsetsReadZeroAndIgnoreWrites : Obligations.ReservedOffsetsReadZeroAndIgnoreWrites := by
  intro s off v
  refine ⟨fun hlo hhi hal => ⟨perform_write_reservedReg hlo hhi hal v s, _, perform_read_reservedReg hlo hhi hal s, rfl⟩,
    fun hlo hhi => ?_⟩
  obtain ⟨i, rfl⟩ : ∃ i, off = 0x100 + i := ⟨off - 0x100, by omega⟩
  have hcap : Config.bufCap ≤ i := by unfold Config.bufCap; omega
  refine ⟨?_, _, perform_read_buf (by omega) s, ?_⟩
  · rw [perform_write_buf (by omega), s.writeBufSpace_reserved hcap]
  · rw [State.drew_reads, State.logRead_reads, s.readBufSpace_reserved hcap]

/-- Settles O28: the write stores one byte, and the read finds it. -/
theorem bufWindowReadsAndWritesOneByte : Obligations.BufWindowReadsAndWritesOneByte := by
  intro s i b hi
  have hwrite : s.writeBufSpace i b = (s.setByte i b).setValid false := if_pos hi
  have hread : s.readBufSpace i = s.byteAt 0 i := if_pos hi
  refine ⟨⟨s.writeBufSpace i b, ?_, ?_, fun j hj => ?_, ?_, s.writeBufSpace_keeps i b⟩,
    ⟨_, perform_read_buf (by omega) s, ?_⟩, fun hb => State.byteAt_of_written hb 0⟩
  · rw [perform_write_buf (by omega), BitVec.ofNat_toNat, BitVec.setWidth_eq]
  · rw [hwrite, State.setValid_buf, State.setByte_buf, Memory.get?_set_self]
  · rw [hwrite, State.setValid_buf, State.setByte_buf, Memory.get?_set_ne s.buf b hj]
  · rw [hwrite, State.setValid_valid]
  · rw [State.drew_reads, State.logRead_reads, hread]

end Sys2Proof.Machine
end

section
/-! Events (R61, R70 to R72, R253): how they join and leave the pending list, and which of them replaces a group of decoded
outputs. -/

namespace Sys2Proof.Machine

/-! ## The pending list -/

theorem windowOffset?_inside {base a : Nat} (hlo : base ≤ a) (hhi : a < base + 0x400) :
    windowOffset? base a = some (a - base) :=
  if_pos ⟨hlo, hhi⟩

theorem windowOffset?_outside {base a : Nat} (h : a < base ∨ base + 0x400 ≤ a) : windowOffset? base a = none :=
  if_neg fun hin => by
    obtain ⟨hlo, hhi⟩ := hin
    unfold windowSize at hhi
    omega

/-- Settles O7, by the window offset of the address. -/
theorem issueDecodesTheWindowOnly : Obligations.IssueDecodesTheWindowOnly := by
  refine fun base a n v s => ⟨fun hlo hhi => ?_, fun hout => ?_⟩
  · simp [State.issue, Access.inWindow?, windowOffset?_inside hlo hhi]
  · simp [State.issue, Access.inWindow?, windowOffset?_outside hout]

theorem KeepsAllBut.pending {changed : List Part} {s t : State} (h : KeepsAllBut changed s t) : t.pending = s.pending :=
  h.2.1

/-- No access touches the accesses the host has still pending (R71, R72). -/
theorem perform_pending {a : Access} {s t : State} (h : perform a s = .next t) : t.pending = s.pending := by
  cases a with
  | read off n =>
    obtain ⟨_, hpending, _⟩ := perform_read_frame h
    exact hpending
  | write off n v =>
    obtain ⟨_, _, he⟩ | ⟨r, _, _, _, rfl⟩ | ⟨_, _, rfl⟩ | ⟨i, _, _, _, rfl⟩ := performWrite_cases h
    · exact (exec_keepsAllBut he).pending
    · exact (s.writeReg_keeps _ r).pending
    · rfl
    · exact (s.writeBufSpace_keeps i _).pending

/-- Settles O5: the step takes the oldest event off the list, and performing it leaves the list. -/
theorem eventsAreTakenInOrder : Obligations.EventsAreTakenInOrder := by
  intro s t h
  obtain ⟨_, ⟨hnil, rfl⟩ | ⟨e, rest, hcons, he⟩⟩ := step_cases h
  · simp [hnil]
  · have hrest : t.pending = rest := by
      obtain ⟨_, rfl⟩ | ⟨a, _, ha⟩ := he
      · rfl
      · exact perform_pending ha
    simp [hcons, hrest]

/-! ## The groups of decoded outputs -/

/-- The outputs that make up a group (R40 to R42, R70). -/
def Group.parts : Group → List Part
  | .meas  => [.mv, .mi, .mp, .me, .alh, .all]
  | .param => [.phv, .plv, .pAddr, .pShunt]

/-- A group's registers show the group's outputs alone (R253). -/
theorem Group.readReg_congr {g : Group} {s t : State} (h : ∀ p ∈ g.parts, t.part p = s.part p) :
    ∀ r ∈ g.regs, t.readReg r = s.readReg r := by
  cases g with
  | meas =>
    have hmv : t.mv = s.mv := BitVec.eq_of_toNat_eq (h .mv (by decide))
    have hmi : t.mi = s.mi := BitVec.eq_of_toNat_eq (h .mi (by decide))
    have hmp : t.mp = s.mp := BitVec.eq_of_toNat_eq (h .mp (by decide))
    have hme : t.me = s.me := BitVec.eq_of_toNat_eq (h .me (by decide))
    have halh : t.alh = s.alh := eq_of_bool_toNat_eq (h .alh (by decide))
    have hall : t.all = s.all := eq_of_bool_toNat_eq (h .all (by decide))
    simp [Group.regs, State.readReg, hmv, hmi, hmp, hme, halh, hall]
  | param =>
    have hphv : t.phv = s.phv := BitVec.eq_of_toNat_eq (h .phv (by decide))
    have hplv : t.plv = s.plv := BitVec.eq_of_toNat_eq (h .plv (by decide))
    have hpAddr : t.pAddr = s.pAddr := BitVec.eq_of_toNat_eq (h .pAddr (by decide))
    have hpShunt : t.pShunt = s.pShunt := BitVec.eq_of_toNat_eq (h .pShunt (by decide))
    simp [Group.regs, State.readReg, hphv, hplv, hpAddr, hpShunt]

/-- An operation other than the group's decoder has none of the group among what it writes (R45, R70). -/
theorem Group.parts_not_mem_writes {g : Group} {i : Instr} (hi : i ≠ g.decoder) : ∀ p ∈ g.parts, p ∉ i.writes := by
  cases g with
  | meas =>
    cases i with
    | decMeas => exact absurd rfl hi
    | _ => decide
  | param =>
    cases i with
    | decParam => exact absurd rfl hi
    | _ => decide

theorem Group.parts_not_mem_hostWritable (g : Group) : ∀ p ∈ g.parts, p ∉ hostWritable := by
  cases g <;> decide

theorem Access.eq_write_of_isCmdWrite {a : Access} (h : a.isCmdWrite = true) : ∃ v, a = .write 0x000 4 v := by
  cases a with
  | read off n => cases h
  | write off n v =>
    rw [isCmdWrite, Bool.and_eq_true, beq_iff_eq, beq_iff_eq] at h
    obtain ⟨rfl, rfl⟩ := h
    exact ⟨v, rfl⟩

/-- An access that does not start the group's decoder keeps the group (R70). -/
theorem perform_group_part {g : Group} {a : Access} {s t : State} (hr : (Event.access a).replaces g = false)
    (h : perform a s = .next t) : ∀ p ∈ g.parts, t.part p = s.part p := by
  intro p hp
  cases ha : a.isCmdWrite with
  | false => exact perform_part ha h (g.parts_not_mem_hostWritable p hp)
  | true =>
    obtain ⟨v, rfl⟩ := Access.eq_write_of_isCmdWrite ha
    rw [perform_write_cmd] at h
    have hi : decodeCmd (BitVec.ofNat 32 v) ≠ g.decoder := beq_eq_false_iff_ne.1 hr
    exact (exec_keepsAllBut h).part (Group.parts_not_mem_writes hi p hp)

/-- Settles O20, event by event. -/
theorem onlyTheDecoderReplacesAGroup : Obligations.OnlyTheDecoderReplacesAGroup := by
  intro g e s t hr h
  cases e with
  | access a => exact Group.readReg_congr (perform_group_part hr h)
  | concurrent a b => cases h
  | reset => cases hr

end Sys2Proof.Machine
end

section
/-! The CMD word (R80 to R83): the decoder and the encoder are inverse on OP, and the ignored bits do not matter. -/

namespace Sys2Proof

theorem opCode_decodeOp : ∀ op : BitVec 4, opCode (decodeOp op) = op := by decide

theorem decodeOp_opCode (i : Instr) : decodeOp (opCode i) = i := by cases i <;> rfl

/-- Each code selects exactly one operation, and each operation has exactly one code (R82, R83). -/
theorem decodeOp_eq_iff {op : BitVec 4} {i : Instr} : decodeOp op = i ↔ op = opCode i :=
  ⟨fun h => h ▸ (opCode_decodeOp op).symm, fun h => h ▸ decodeOp_opCode i⟩

theorem opField_toNat (w : Word) : (opField w).toNat = w.toNat % 16 := by
  rw [opField, BitVec.extractLsb'_toNat, Nat.shiftRight_zero]

theorem encode_toNat (i : Instr) : (encode i).toNat = (opCode i).toNat :=
  BitVec.toNat_setWidth_of_le (by decide)

theorem encode_toNat_lt (i : Instr) : (encode i).toNat < 16 := by
  rw [encode_toNat]; exact (opCode i).isLt

/-- Settles O1: OP is the word modulo 16, and codes and operations determine each other. -/
theorem cmdWordSelectsByLowFourBits : Obligations.CmdWordSelectsByLowFourBits := by
  intro w i
  rw [decodeCmd, decodeOp_eq_iff, ← BitVec.toNat_inj, opField_toNat, encode_toNat]

/-- A word of full width is decoded as the CMD word it is (R80). -/
theorem decodeTableWord_toNat (w : Word) : decodeTableWord 32 w.toNat = some (decodeCmd w) := by
  rw [decodeTableWord, decodeBits, if_pos le_rfl, Nat.mod_eq_of_lt w.isLt, BitVec.ofNat_toNat, BitVec.setWidth_eq]

/-- Settles O2: an operation's CMD word is its own code, below 16. -/
theorem encodedOperationsDecode : Obligations.EncodedOperationsDecode := by
  intro i _
  have hdec : decodeCmd (encode i) = i :=
    (cmdWordSelectsByLowFourBits _ i).2 (Nat.mod_eq_of_lt (encode_toNat_lt i))
  exact ⟨hdec, by rw [decodeTableWord_toNat, hdec]⟩

/-- Settles O3: the last hexadecimal digit of each word is its operation's code. -/
theorem tableWordsDecode : Obligations.TableWordsDecode := by
  have hdec {w : Word} {i : Instr} (h : w.toNat % 16 = (encode i).toNat) : decodeCmd w = i :=
    (cmdWordSelectsByLowFourBits w i).2 h
  exact ⟨hdec rfl, hdec rfl, hdec rfl, hdec rfl, hdec rfl, hdec rfl, hdec rfl, hdec rfl, hdec rfl⟩

end Sys2Proof
end

section
/-! LOADBUF run to its end (R75, R94): one step for each byte write, and one for the write of BLEN. -/

namespace Sys2Proof.Machine

/-- A step at a pending access performs it, with the access taken off the list (R71). -/
theorem step_access {s : State} {a : Access} {rest : List Event} (herr : s.err.toNat ≤ 4)
    (hp : s.pending = .access a :: rest) : step s = perform a { s with pending := rest } := by
  rw [step, stepHost, if_neg (Nat.not_lt.2 herr), hp]
  rfl

theorem run_succ_of_step {s t : State} (h : step s = .next t) (k : Nat) :
    Host.Core.run core (k + 1) s = Host.Core.run core k t := by
  have hcore : core.step s = .next t := h
  simp only [Host.Core.run, hcore]

/-- The 8-bit write of a line `WRB i, b` stores the byte and clears VALID (R27, R63, R93). -/
theorem perform_wrb {i : Nat} (hi : i < Config.bufCap) (b : Byte) (s : State) :
    perform (.wrb i b) s = .next ((s.setByte i b).setValid false) := by
  have hwin : i < 0x300 := hi.trans (by decide)
  have hstore : s.writeBufSpace i b = (s.setByte i b).setValid false := if_pos hi
  rw [← hstore, Access.wrb, bufBase, perform_write_buf hwin, BitVec.ofNat_toNat, BitVec.setWidth_eq]

theorem KeepsAllBut.weaken {c d : List Part} {s t : State} (h : KeepsAllBut c s t) (hcd : c ⊆ d) : KeepsAllBut d s t :=
  ⟨fun _ hp => h.part fun hc => hp (hcd hc), h.2⟩

/-- The frame rules do not speak of what the host has still pending, where it is the same. -/
theorem KeepsAllBut.withPending {c : List Part} {s t : State} (h : KeepsAllBut c s t) (es : List Event) :
    KeepsAllBut c { s with pending := es } { t with pending := es } :=
  ⟨fun p hp => by have hpart := h.part hp; cases p <;> exact hpart, rfl, h.2.2⟩

/-- The byte writes at the head of the list, one step each, store their bytes and clear VALID at most. -/
theorem run_storeLines (k : Nat) (rest : List Event) {i : Nat} {d : List Byte} {s : State} (herr : s.err.toNat ≤ 4)
    (hp : s.pending = (storeLines i d).map .access ++ rest) (hi : i + d.length ≤ Config.bufCap) :
    ∃ t, Host.Core.run core (d.length + k) s = Host.Core.run core k t ∧
      (∀ j, Memory.get? t.buf j = Memory.get? (s.storeBytes i d).buf j) ∧
      KeepsAllBut [.valid] { s with pending := rest } t := by
  induction d generalizing i s with
  | nil =>
    obtain rfl : s.pending = rest := hp
    exact ⟨s, by rw [List.length_nil, Nat.zero_add], fun _ => rfl, .refl _ s⟩
  | cons b d ih =>
    rw [List.length_cons] at hi
    have hstep := (step_access herr hp).trans (perform_wrb (by omega) b _)
    obtain ⟨t, hrun, hbuf, hkeep⟩ := ih (i := i + 1)
      (s := (State.setByte { s with pending := (storeLines (i + 1) d).map .access ++ rest } i b).setValid false)
      herr rfl (by omega)
    refine ⟨t, ?_, fun j => ?_, ?_⟩
    · rw [List.length_cons, Nat.add_right_comm, run_succ_of_step hstep]
      exact hrun
    · rw [hbuf, State.storeBytes, State.storeBytes_get?, State.storeBytes_get?]
      rfl
    · have hbyte : KeepsAllBut [.valid] { s with pending := rest }
          ((State.setByte { s with pending := rest } i b).setValid false) :=
        (State.setByte_keeps _ i b).andThen (State.setValid_keeps _ false)
      exact (hbyte.andThen hkeep).weaken (by decide)

theorem load_loadbuf_pending {s : State} (hp : s.pending = []) (d : List Byte) :
    (s.load [.loadbuf d]).pending =
      (storeLines 0 d).map .access ++ [.access (.wr .blen (BitVec.ofNat 32 d.length))] := by
  simp [State.load, hp, assemble, Line.accesses, loadbufAccesses]

/-- Settles O29: the byte writes store the bytes, and the BLEN write, accepted, sets BLEN and clears VALID. -/
theorem loadbufLoadsTheBytes : Obligations.LoadbufLoadsTheBytes := by
  intro s d herr hp hd
  obtain ⟨t, hrun, hbuf, hkeep⟩ := run_storeLines 1 _ (s := s.load [.loadbuf d]) herr (load_loadbuf_pending hp d)
    (by unfold Config.bufCap; omega)
  have herr' : t.err.toNat ≤ 4 := (hkeep.part (p := .err) (by decide)).trans_le herr
  obtain ⟨u, hwrite, haccept, _⟩ := blenWriteIsAcceptedUpTo260 { t with pending := [] } (BitVec.ofNat 32 d.length)
  have hlen : (BitVec.ofNat 32 d.length).toNat % 512 = d.length := by
    rw [BitVec.toNat_ofNat]
    omega
  rw [hlen] at haccept
  obtain ⟨hblen, hvalid, hbuf', hkeep'⟩ := haccept hd
  have hstored : ∀ j, Memory.get? u.buf j = if j < d.length then d[j]? else Memory.get? s.buf j := fun j => by
    rw [hbuf' j, hbuf j, State.storeBytes_get?]
    simp [State.load]
  refine ⟨u, ?_, fun j hj => ?_, hblen, hvalid, fun j hj => ?_, ?_⟩
  · rw [hrun]
    exact run_succ_of_step ((step_access herr' hkeep.pending).trans hwrite) 0
  · rw [Nat.zero_add, hstored, if_pos hj, List.getElem?_eq_getElem hj]
  · rw [hstored, if_neg (Nat.not_lt.2 hj)]
  · have hs : { s with pending := [] } = s := by rw [← hp]
    have hkeep₀ : KeepsAllBut [.valid] { s with pending := [] } { t with pending := [] } := hkeep.withPending []
    rw [hs] at hkeep₀
    exact (hkeep₀.andThen hkeep').weaken (by decide)

end Sys2Proof.Machine
end

section
/-! PARSE of a frame whose length and checksum are right (R87, R88, R145): what the bytes BUF holds make each of its checks
read. -/

namespace Sys2Proof.Machine

theorem half_hi8_lo8 (v : Half) : half (hi8 v) (lo8 v) = v :=
  (BitVec.extractLsb'_append_extractLsb'_eq_extractLsb' rfl).trans BitVec.extractLsb'_eq_self

namespace HoldsBytes

variable {s : State} {i : Nat} {d : List Byte}

/-- A held byte reads as it is, whichever draw reads it. -/
theorem byteAt (h : HoldsBytes s i d) (k : Nat) {j : Nat} (hj : j < d.length) : s.byteAt k (i + j) = d[j] :=
  State.byteAt_of_written (h j hj) k

theorem left {e : List Byte} (h : HoldsBytes s i (d ++ e)) : HoldsBytes s i d := fun j hj => by
  rw [h j (by rw [List.length_append]; omega), List.getElem_append_left hj]

theorem bytes (h : HoldsBytes s i d) (k : Nat) : s.bytes k i (i + d.length) = d := by
  apply List.ext_getElem
  · simp
  · intro j _ hj
    rw [State.bytes_getElem, h.byteAt k hj]

/-- Bytes followed by their checksum, low byte first, pass the CRC check (R87, R114). -/
theorem crcOk (h : HoldsBytes s 0 (d ++ [lo8 (crc16 d), hi8 (crc16 d)])) (k : Nat) :
    s.crcOk k (d.length + 2) = true := by
  have hbody : s.bytes k 0 d.length = d := by simpa using h.left.bytes k
  have hlo : s.byteAt k d.length = lo8 (crc16 d) := by simpa using h.byteAt k (j := d.length) (by simp)
  have hhi : s.byteAt k (d.length + 1) = hi8 (crc16 d) := by simpa using h.byteAt k (j := d.length + 1) (by simp)
  rw [State.crcOk, Nat.add_sub_cancel, hbody, State.leHalf, hlo, hhi, half_hi8_lo8, beq_self_eq_true]

end HoldsBytes

/-- PARSE accepts the frame its header delimits if all of it arrived, its CRC is good, and it comes from the addressed
device or in search mode (R145). -/
theorem State.parseFrame_accepts {s : State} {t : Nat}
    (htotal : frameTotal Config.params (s.byteAt 0 1) (s.byteAt 0 2) = t)
    (hlen : t ≤ s.blen.toNat) (hcrc : s.crcOk 1 t = true) (haddr : s.bcast = true ∨ s.byteAt 2 0 = s.addr) :
    s.parseFrame = ((s.setBlen t).raise .ok).setResponse (s.byteAt 3 0) (s.byteAt 3 1) := by
  have hmin := (frameTotal_bounds Config.params (s.byteAt 0 1) (s.byteAt 0 2)).1
  subst htotal
  obtain ⟨_, _⟩ | ⟨_, _, _⟩ | ⟨_, hlt, _⟩ | ⟨_, _, hjudge⟩ := s.parseFrame_cases
  · omega
  · omega
  · exact absurd hlen (Nat.not_le.2 hlt)
  · obtain ⟨hbad, _⟩ | ⟨_, hb, hne, _⟩ | ⟨_, _, hok⟩ :=
      s.judgeFrame_cases (frameTotal Config.params (s.byteAt 0 1) (s.byteAt 0 2))
    · exact absurd (hcrc.symm.trans hbad) (by decide)
    · exact absurd haddr (by simp [hb, hne])
    · exact hjudge.trans hok

/-- Settles O43: the header's length, the CRC and the address read as the frame's bytes say, so PARSE accepts. -/
theorem parseAcceptsEveryGoodFrame : Obligations.ParseAcceptsEveryGoodFrame := by
  intro s a fc b2 p d hheld htotal hlen haddr
  have h0 : ∀ k, s.byteAt k 0 = a := fun k => hheld.left.byteAt k (j := 0) (by simp [d])
  have h1 : ∀ k, s.byteAt k 1 = fc := fun k => hheld.left.byteAt k (j := 1) (by simp [d])
  have h2 : ∀ k, s.byteAt k 2 = b2 := fun k => hheld.left.byteAt k (j := 2) (by simp [d])
  have hparse := State.parseFrame_accepts (t := d.length + 2) (by rw [h1, h2, htotal]) hlen (hheld.crcOk 1)
    (haddr.imp_right fun h => (h0 2).trans h.symm)
  have hT : (s.setBlen (d.length + 2)).blen.toNat = d.length + 2 :=
    s.setBlen_toNat (hlen.trans_lt s.blen.isLt)
  refine ⟨_, exec_parse s, ?_⟩
  rw [hparse, h0, h1]
  exact ⟨rfl, rfl, rfl, rfl, rfl, hT⟩

end Sys2Proof.Machine
end

section
/-! The checksum (R110, R111, R116): XOR passes through its rounds, which gives the bit-serial form and the residue; and
no register and no byte is lost, which makes it see every changed byte. -/

namespace Sys2Proof.Machine

/-! ## Bit by bit -/

/-- One bit of a byte: shift, and XOR CRC_POLY when the bit differs from the one shifted out (R110 bit-serially). -/
def crcSerialBit (r : Half) (x : Bool) : Half := if r.getLsbD 0 != x then (r >>> 1) ^^^ 0xA001#16 else r >>> 1

/-- A round takes in bit 0 of a word XORed to the register; the word's other bits wait, one place lower. -/
theorem crcBit_xor (r z : Half) : crcBit (r ^^^ z) = crcSerialBit r (z.getLsbD 0) ^^^ (z >>> 1) := by
  have hshift : (r ^^^ z) >>> 1 = r >>> 1 ^^^ z >>> 1 := BitVec.ushiftRight_xor_distrib r z 1
  rw [crcBit, crcSerialBit, BitVec.getLsbD_xor, hshift, Config.crcPoly]
  split_ifs
  · rw [BitVec.xor_assoc, BitVec.xor_comm (z >>> 1), ← BitVec.xor_assoc]
  · rfl

/-- `n` rounds take in the word's lowest `n` bits, least significant first. -/
theorem crcRounds_xor (n : Nat) (r z : Half) :
    crcRounds n (r ^^^ z) = ((List.range n).map z.getLsbD).foldl crcSerialBit r ^^^ (z >>> n) := by
  induction n generalizing r z with
  | zero => simp [crcRounds]
  | succ n ih =>
    have hbits : (List.range n).map (z >>> 1).getLsbD = (List.range n).map (z.getLsbD ∘ Nat.succ) :=
      List.map_congr_left fun i _ => by simp [Nat.add_comm]
    rw [crcRounds, crcBit_xor, ih, hbits, List.range_succ_eq_map, List.map_cons, List.foldl_cons, List.map_map,
      ← BitVec.shiftRight_add, Nat.add_comm 1 n]

/-- A byte of the checksum is its eight bits, least significant first. -/
theorem crcByte_eq_serial (r : Half) (b : Byte) :
    crcByte r b = ((List.range 8).map b.getLsbD).foldl crcSerialBit r := by
  have hbits : (List.range 8).map (b.setWidth 16 : Half).getLsbD = (List.range 8).map b.getLsbD :=
    List.map_congr_left fun i hi => by
      have hi' := List.mem_range.1 hi
      rw [BitVec.getLsbD_setWidth, decide_eq_true (by omega), Bool.true_and]
  have hrest : (b.setWidth 16 : Half) >>> 8 = 0#16 := by
    apply BitVec.eq_of_getLsbD_eq
    intro i _
    rw [BitVec.getLsbD_ushiftRight, BitVec.getLsbD_setWidth, BitVec.getLsbD_of_ge b (8 + i) (by omega), Bool.and_false,
      BitVec.getLsbD_zero]
  rw [crcByte, crcRounds_xor, hbits, hrest, BitVec.xor_zero]

/-- Settles O33: byte after byte, the checksum is the register that takes the byte's bits one at a time. -/
theorem crcIsTheBitSerialChecksum : Obligations.CrcIsTheBitSerialChecksum := by
  intro d
  have hbyte : crcByte = fun r b => ((List.range 8).map b.getLsbD).foldl crcSerialBit r :=
    funext fun r => funext fun b => crcByte_eq_serial r b
  rw [crc16, crcFrom, hbyte, List.foldl_flatMap]
  rfl

/-! ## The residue -/

/-- Rounds that shift out only zeros are a shift. -/
theorem crcRounds_of_lowBits_zero {n : Nat} {z : Half} (h : ∀ i < n, z.getLsbD i = false) :
    crcRounds n z = z >>> n := by
  induction n generalizing z with
  | zero => simp [crcRounds]
  | succ n ih =>
    have hbit : crcBit z = z >>> 1 := if_neg (by rw [h 0 (Nat.succ_pos n)]; decide)
    have hlow : ∀ i < n, (z >>> 1).getLsbD i = false := fun i hi => by
      rw [BitVec.getLsbD_ushiftRight]
      exact h (1 + i) (by omega)
    rw [crcRounds, hbit, ih hlow, ← BitVec.shiftRight_add, Nat.add_comm 1 n]

theorem getLsbD_half (hi lo : Byte) (i : Nat) :
    (half hi lo).getLsbD i = if i < 8 then lo.getLsbD i else hi.getLsbD (i - 8) :=
  BitVec.getLsbD_append

/-- Taking in the register's own low byte leaves its high byte. -/
theorem crcByte_half (hi lo : Byte) : crcByte (half hi lo) lo = hi.setWidth 16 := by
  have hlow : ∀ i < 8, (half hi lo ^^^ lo.setWidth 16).getLsbD i = false := fun i hlt => by
    rw [BitVec.getLsbD_xor, getLsbD_half, if_pos hlt, BitVec.getLsbD_setWidth, decide_eq_true (by omega),
      Bool.true_and, Bool.xor_self]
  rw [crcByte, crcRounds_of_lowBits_zero hlow]
  apply BitVec.eq_of_getLsbD_eq
  intro i hlt
  have hhigh : (half hi lo).getLsbD (8 + i) = hi.getLsbD i := by
    rw [getLsbD_half, if_neg (by omega), Nat.add_sub_cancel_left]
  simp [hhigh, hlt]

theorem crcByte_self (b : Byte) : crcByte (b.setWidth 16) b = 0#16 := by
  rw [crcByte, BitVec.xor_self]
  rfl

/-- Taking in the register's own bytes, low byte first, leaves 0. -/
theorem crcFrom_half (hi lo : Byte) : crcFrom (half hi lo) [lo, hi] = 0#16 := by
  rw [crcFrom_cons, crcByte_half, crcFrom_cons, crcByte_self, crcFrom_nil]

/-- Settles O34: the low byte leaves the high byte in the register, and the high byte leaves 0. -/
theorem crcResidueIsZero : Obligations.CrcResidueIsZero := by
  have hown : ∀ c : Half, crcFrom c [lo8 c, hi8 c] = 0#16 := fun c => by
    have h := crcFrom_half (hi8 c) (lo8 c)
    rwa [half_hi8_lo8] at h
  refine ⟨fun d => ?_, rfl, crcFrom_half 0xFF#8 0xFF#8⟩
  rw [crc16_append]
  exact hown (crc16 d)

/-! ## Nothing is lost -/

/-- Different registers stay different over a byte. -/
theorem crcByte_injective_left (b : Byte) : Function.Injective fun r => crcByte r b := fun _ _ h =>
  (BitVec.xor_left_inj _).1 (crcRounds_injective 8 h)

/-- Different bytes leave different registers. -/
theorem crcByte_injective_right (r : Half) : Function.Injective (crcByte r) := fun a b h => by
  have hwide : (a.setWidth 16 : Half) = b.setWidth 16 := (BitVec.xor_right_inj _).1 (crcRounds_injective 8 h)
  have hnarrow := congrArg (BitVec.setWidth 8) hwide
  simpa using hnarrow

/-- Different registers stay different over any bytes. -/
theorem crcFrom_injective (d : List Byte) : Function.Injective fun r => crcFrom r d := by
  induction d with
  | nil => exact fun _ _ h => h
  | cons b d ih => exact fun _ _ h => crcByte_injective_left b (ih h)

/-- One changed byte changes the checksum, wherever it stands. -/
theorem eq_getElem_of_crcFrom_set {d : List Byte} {i : Nat} (hi : i < d.length) {b : Byte} {r : Half}
    (h : crcFrom r (d.set i b) = crcFrom r d) : b = d[i] := by
  induction d generalizing r i with
  | nil => exact absurd hi (Nat.not_lt_zero i)
  | cons x d ih =>
    cases i with
    | zero => exact crcByte_injective_right r (crcFrom_injective d h)
    | succ i => exact ih (Nat.lt_of_succ_lt_succ hi) h

end Sys2Proof.Machine
end

section
/-! CRC_COMPUTE and CRC_VERIFY (R112 to R116): the bytes they read, and the check as a checksum over the whole frame. -/

namespace Sys2Proof.Machine

namespace State

theorem bytes_from_zero (s : State) (k n : Nat) : s.bytes k 0 n = (List.range n).map fun i => s.byteAt k i := by
  simp [bytes]

/-- The last two bytes of a range. -/
theorem bytes_add_two (s : State) (k n : Nat) :
    s.bytes k 0 (n + 2) = s.bytes k 0 n ++ [s.byteAt k n, s.byteAt k (n + 1)] := by
  simp [bytes_from_zero, List.range_succ]

end State

/-- A range that holds bytes reads as them. -/
theorem HoldsBytes.bytes_length_eq {s : State} {d : List Byte} (h : HoldsBytes s 0 d) {n : Nat} (hn : n = d.length)
    (k : Nat) : s.bytes k 0 n = d := by
  rw [hn, ← Nat.zero_add d.length]
  exact h.bytes k

theorem exec_crcCompute_crc {s t : State} (h : exec .crcCompute s = .next t) :
    t.crc = crc16 (s.bytes 0 0 s.blen.toNat) := by
  injection h with h
  rw [← h, State.drew_crc, State.setIll_crc, State.setCrc_crc]

/-- The checksum of "123456789", the example of R112 and vector C2. -/
theorem crc16_checkString :
    crc16 [0x31#8, 0x32#8, 0x33#8, 0x34#8, 0x35#8, 0x36#8, 0x37#8, 0x38#8, 0x39#8] = 0x4B37#16 := by
  decide +kernel

/-- Settles O35: the bytes read are the range, and the rest is CRC_COMPUTE's frame. -/
theorem crcComputeChecksumsTheBuffer : Obligations.CrcComputeChecksumsTheBuffer := by
  refine ⟨rfl, fun s => ?_⟩
  obtain ⟨t, ht⟩ := exec_answers .crcCompute s
  have hcrc := exec_crcCompute_crc ht
  refine ⟨t, ht, ?_, exec_ill ht, fun hlen => ?_, fun hheld hlen => ?_, fun i => by rw [exec_buf (by decide) ht],
    exec_keepsAllBut ht⟩
  · rw [hcrc, State.bytes_from_zero]
  · rw [hcrc, hlen, State.bytes_empty]
    rfl
  · rw [hcrc, hheld.bytes_length_eq hlen 0]
    exact crc16_checkString

/-- Settles O37: both checksums are taken over the held bytes. -/
theorem crcDependsOnTheBytesAlone : Obligations.CrcDependsOnTheBytesAlone := by
  intro s s' t t' d hs hs' hlen hlen' ht ht'
  rw [exec_crcCompute_crc ht, exec_crcCompute_crc ht', hs.bytes_length_eq hlen 0, hs'.bytes_length_eq hlen' 0]
  exact ⟨rfl, rfl⟩

theorem exec_crcVerify_vfy {s t : State} (h : exec .crcVerify s = .next t) :
    t.vfy = true ↔ 2 ≤ s.blen.toNat ∧ s.crcOk 0 s.blen.toNat = true := by
  obtain ⟨_, hverify, _⟩ := vfyIsWrittenOnlyByVerifyAndUnpack
  obtain ⟨t', ht', hvfy⟩ := hverify s
  cases h.symm.trans ht'
  exact hvfy

/-- Settles O36: `crcOk` at BLEN, and the rest is CRC_VERIFY's frame. -/
theorem crcVerifyChecksTheTrailingCrc : Obligations.CrcVerifyChecksTheTrailingCrc := by
  refine ⟨rfl, fun s => ?_⟩
  obtain ⟨t, ht⟩ := exec_answers .crcVerify s
  have hvfy := exec_crcVerify_vfy ht
  refine ⟨t, ht, fun hlt => ?_, fun hle => ?_, exec_ill ht, fun i => by rw [exec_buf (by decide) ht],
    exec_keepsAllBut ht⟩
  · exact Bool.eq_false_iff.2 fun h => absurd (hvfy.1 h).1 (Nat.not_le.2 hlt)
  · have hlast : s.blen.toNat - 2 + 1 = s.blen.toNat - 1 := by omega
    rw [hvfy, and_iff_right hle, State.crcOk, beq_iff_eq, State.bytes_from_zero, State.leHalf, half, hlast]

/-! ## A changed byte -/

/-- The check of R114 holds exactly if the checksum over the whole frame, its CRC included, is 0 (R111). -/
theorem State.crcOk_iff_residue {s : State} (k : Nat) {n : Nat} (hn : 2 ≤ n) :
    s.crcOk k n = true ↔ crc16 (s.bytes k 0 n) = 0#16 := by
  obtain ⟨n, rfl⟩ := Nat.exists_eq_add_of_le' hn
  rw [State.crcOk, Nat.add_sub_cancel, beq_iff_eq, s.bytes_add_two, crc16_append, State.leHalf,
    ← crcFrom_half (s.byteAt k (n + 1)) (s.byteAt k n)]
  exact (crcFrom_injective _).eq_iff.symm

namespace HoldsBytes

theorem of_writtenTo {s : State} {n : Nat} (h : s.writtenTo n = true) (k : Nat) : HoldsBytes s 0 (s.bytes k 0 n) :=
  fun j hj => by
    rw [State.bytes_length] at hj
    obtain ⟨b, hb⟩ := Option.isSome_iff_exists.1 (s.get?_isSome_of_writtenTo h (i := 0 + j) (by omega))
    rw [State.bytes_getElem, State.byteAt_of_written hb, hb]

theorem of_buf_eq {s t : State} {i : Nat} {d : List Byte} (h : HoldsBytes s i d) (hbuf : t.buf = s.buf) :
    HoldsBytes t i d := fun j hj => by rw [hbuf, h j hj]

/-- A byte stored among held bytes replaces one of them. -/
theorem setByte {s : State} {i : Nat} {d : List Byte} (h : HoldsBytes s i d) (j : Nat) (b : Byte) :
    HoldsBytes (s.setByte (i + j) b) i (d.set j b) := fun l hl => by
  rw [List.length_set] at hl
  rw [State.setByte_buf]
  by_cases hjl : j = l
  · subst hjl
    rw [Memory.get?_set_self, List.getElem_set_self]
  · rw [Memory.get?_set_ne _ _ (by omega), List.getElem_set_ne hjl, h l hl]

end HoldsBytes

/-- Over held bytes, CRC_VERIFY accepts exactly a checksum of 0. -/
theorem exec_crcVerify_vfy_of_holds {s t : State} {d : List Byte} (hheld : HoldsBytes s 0 d)
    (hlen : s.blen.toNat = d.length) (h : exec .crcVerify s = .next t) :
    t.vfy = true ↔ 2 ≤ s.blen.toNat ∧ crc16 d = 0#16 := by
  rw [exec_crcVerify_vfy h]
  exact and_congr_right fun h2 => by rw [State.crcOk_iff_residue 0 h2, hheld.bytes_length_eq hlen 0]

/-- Settles O38: the checksum over the whole frame is 0 before the write, and one changed byte changes it. -/
theorem singleByteCorruptionIsDetected : Obligations.SingleByteCorruptionIsDetected := by
  intro s t i b hcap hwritten ht hvfy hi hne
  obtain ⟨d, hheld, hlen⟩ : ∃ d, HoldsBytes s 0 d ∧ s.blen.toNat = d.length :=
    ⟨_, .of_writtenTo hwritten 0, (s.bytes_length 0 0 _).symm⟩
  have hlen_t : t.blen = s.blen := BitVec.eq_of_toNat_eq ((exec_keepsAllBut ht).part (p := .blen) (by decide))
  have hheld_t : HoldsBytes t 0 d := hheld.of_buf_eq (exec_buf (by decide) ht)
  obtain ⟨v, hv⟩ := exec_answers .crcVerify ((t.setByte i b).setValid false)
  refine ⟨_, v, perform_wrb (by unfold Config.bufCap; omega) b t, hv, Bool.eq_false_iff.2 fun hbad => hne ?_⟩
  have hheld_u : HoldsBytes ((t.setByte i b).setValid false) 0 (d.set i b) := by
    have h := (hheld_t.setByte i b).of_buf_eq (State.setValid_buf _ false)
    rwa [Nat.zero_add] at h
  have hlen_u : ((t.setByte i b).setValid false).blen.toNat = (d.set i b).length := by
    rw [State.setValid_blen, State.setByte_blen, hlen_t, hlen, List.length_set]
  have hbefore := ((exec_crcVerify_vfy_of_holds hheld hlen ht).1 hvfy).2
  have hafter := ((exec_crcVerify_vfy_of_holds hheld_u hlen_u hv).1 hbad).2
  have hid : i < d.length := hlen ▸ hi
  rw [eq_getElem_of_crcFrom_set hid (hafter.trans hbefore.symm), ← hheld i hid, Nat.zero_add]

end Sys2Proof.Machine
end

section
/-! The length of a response (R140) and FRAMELEN (R141). -/

namespace Sys2Proof.Machine

/-- Settles O40: the two sets of function codes have no code in common, and a byte count is below 256. -/
theorem responseLengthByFunctionCode : Obligations.ResponseLengthByFunctionCode := by
  intro fc b2
  obtain ⟨hlo, hhi⟩ := frameTotal_bounds Config.params fc b2
  refine ⟨?_, ?_, fun hfc => ?_, hlo, hhi⟩
  · rintro (rfl | rfl) <;> rfl
  · rintro (rfl | rfl) <;> rfl
  · have hread : fc ∉ Config.params.fcReadSet := fun h => hfc (List.mem_append_left [0x06#8, 0x42#8] h)
    have hecho : fc ∉ Config.params.fcEchoSet := fun h => hfc (List.mem_append_right [0x03#8, 0x04#8] h)
    rw [frameTotal, if_neg hread, if_neg hecho]

/-- EXPLEN takes the length FRAMELEN finds (R141). -/
theorem exec_framelen_expLen {s t : State} (h : exec .framelen s = .next t) :
    t.expLen.toNat =
      if s.blen.toNat < 5 then 5 else frameTotal Config.params (s.byteAt 0 1) (s.byteAt 0 2) := by
  injection h with h
  have hT := (frameTotal_bounds Config.params (s.byteAt 0 1) (s.byteAt 0 2)).2
  have hmin : Config.minRespLen = 5 := rfl
  rw [← h, State.drew_expLen, State.setIll_expLen, State.setExpLen_expLen, BitVec.toNat_ofNat, hmin]
  refine Nat.mod_eq_of_lt ?_
  unfold Config.bufCap at hT
  split_ifs <;> omega

/-- Settles O41: the two values of EXPLEN, and the rest is FRAMELEN's frame. -/
theorem framelenTellsTheResponseLength : Obligations.FramelenTellsTheResponseLength := by
  refine ⟨rfl, fun s => ?_⟩
  obtain ⟨t, ht⟩ := exec_answers .framelen s
  have hlen := exec_framelen_expLen ht
  refine ⟨t, ht, fun hlt => ?_, fun hle => ?_, exec_ill ht, fun i => by rw [exec_buf (by decide) ht],
    exec_keepsAllBut ht⟩
  · rw [hlen, if_pos hlt]
  · rw [hlen, if_neg (Nat.not_lt.2 hle)]

end Sys2Proof.Machine
end

section
/-! ENCODE and UNPACK (R84, R135, R150, R151): the eight bytes ENCODE stores, and the fields UNPACK reads from them. -/

namespace Sys2Proof.Machine

namespace HoldsBytes

theorem nil (s : State) (i : Nat) : HoldsBytes s i [] := fun j hj => absurd hj (Nat.not_lt_zero j)

/-- Bytes stored right behind held bytes continue them. -/
theorem storeBytes_append {s : State} {i : Nat} {d : List Byte} (h : HoldsBytes s i d) (e : List Byte) :
    HoldsBytes (s.storeBytes (i + d.length) e) i (d ++ e) := fun j hj => by
  rw [List.length_append] at hj
  rw [State.storeBytes_get?]
  by_cases hlt : j < d.length
  · rw [if_neg (by omega), h j hlt, List.getElem_append_left hlt]
  · have hidx : i + j - (i + d.length) = j - d.length := by omega
    rw [if_pos (by omega), hidx, List.getElem?_eq_getElem (by omega), List.getElem_append_right (Nat.not_lt.1 hlt)]

/-- What `storeBytes` has stored is held. -/
theorem storeBytes (s : State) (i : Nat) (d : List Byte) : HoldsBytes (s.storeBytes i d) i d :=
  (HoldsBytes.nil s i).storeBytes_append d

/-- A held field, high byte first, reads as it is (R86). -/
theorem beHalf {s : State} {i : Nat} {d : List Byte} (h : HoldsBytes s i d) (k : Nat) {j : Nat} {v : Half}
    (hhi : d[j]? = some (hi8 v)) (hlo : d[j + 1]? = some (lo8 v)) : s.beHalf k (i + j) = v := by
  obtain ⟨hj, hd⟩ := List.getElem?_eq_some_iff.1 hhi
  obtain ⟨hj', hd'⟩ := List.getElem?_eq_some_iff.1 hlo
  have hhigh : s.byteAt k (i + j) = hi8 v := (h.byteAt k hj).trans hd
  have hlow : s.byteAt k (i + j + 1) = lo8 v := (h.byteAt k hj').trans hd'
  rw [State.beHalf, hhigh, hlow, half_hi8_lo8]

theorem of_keepsBuf {s t : State} {i : Nat} {d : List Byte} (h : HoldsBytes s i d) (hbuf : KeepsBuf s t) :
    HoldsBytes t i d := fun j hj => (hbuf _).trans (h j hj)

end HoldsBytes

/-- After ENCODE, BUF holds the six fields and their checksum, low byte first, and CRC the checksum (R84, R135). -/
theorem exec_encode_holds {s t : State} (h : exec .encode s = .next t) :
    let f := s.commandFields Config.params
    HoldsBytes t 0 (f ++ [lo8 (crc16 f), hi8 (crc16 f)]) ∧ t.crc = crc16 f := by
  intro f
  have hfields : HoldsBytes (s.storeBytes 0 f) 0 f := .storeBytes s 0 f
  have hbytes : (s.storeBytes 0 f).bytes 0 0 6 = f := hfields.bytes 0
  injection h with h
  rw [hbytes] at h
  subst h
  exact ⟨hfields.storeBytes_append [lo8 (crc16 f), hi8 (crc16 f)], rfl⟩

/-- Settles O39: the eight bytes ENCODE stores, and the rest is its frame. -/
theorem encodeBuildsTheCommandFrame : Obligations.EncodeBuildsTheCommandFrame := by
  refine ⟨rfl, fun s => ?_⟩
  obtain ⟨t, ht⟩ := exec_answers .encode s
  exact ⟨t, ht, exec_encode_holds ht, fun i hi => exec_encode_buf_above ht hi, by rw [exec_encode_blen ht]; rfl,
    exec_encode_valid ht, exec_ill ht, exec_keepsAllBut ht⟩

/-- Settles O48: the check of R150 decides between the two ways UNPACK ends. -/
theorem unpackReadsTheCommandFields : Obligations.UnpackReadsTheCommandFields := by
  refine ⟨rfl, fun s => ⟨_, exec_unpack s, fun hframe => ?_, fun hno => ?_, rfl, fun i => by simp⟩⟩
  · have hcheck := s.isCommandFrame_iff.2 hframe
    have hkeep := exec_keepsAllBut (exec_unpack s)
    rw [State.fieldsUnpacked, hcheck, if_pos rfl] at hkeep ⊢
    exact ⟨rfl, rfl, rfl, rfl, rfl, hkeep⟩
  · have hcheck : s.isCommandFrame = false := Bool.eq_false_iff.2 fun h => hno (s.isCommandFrame_iff.1 h)
    rw [State.fieldsUnpacked, hcheck, if_neg Bool.false_ne_true]
    exact ⟨rfl, ((s.setVfy_keeps false).andThen (State.setIll_keeps _ false)).andThen (State.drew_keeps _ 2)⟩

/-- UNPACK reads the fields of a command frame whose bytes BUF holds with their checksum (R84, R150). -/
theorem exec_unpack_of_holds {s : State} {a fc : Byte} {reg val : Half} (hlen : s.blen.toNat = 8)
    (hheld : let f := [a, fc, hi8 reg, lo8 reg, hi8 val, lo8 val]
      HoldsBytes s 0 (f ++ [lo8 (crc16 f), hi8 (crc16 f)])) :
    ∃ t, exec .unpack s = .next t ∧ t.vfy = true ∧ t.uAddr = a ∧ t.uFc = fc ∧ t.uReg = reg ∧ t.uVal = val := by
  obtain ⟨_, hunpack⟩ := unpackReadsTheCommandFields
  obtain ⟨t, ht, haccept, _⟩ := hunpack s
  obtain ⟨ha, hf, hr, hv, hvfy, _⟩ := haccept ⟨hlen, hheld.crcOk 0⟩
  exact ⟨t, ht, hvfy, ha.trans (hheld.left.byteAt 1 (j := 0) (by simp)),
    hf.trans (hheld.left.byteAt 1 (j := 1) (by simp)), hr.trans (hheld.left.beHalf 1 (j := 2) rfl rfl),
    hv.trans (hheld.left.beHalf 1 (j := 4) rfl rfl)⟩

/-- Settles O49: BUF still holds the eight bytes ENCODE stored, and UNPACK reads its operands back from them. -/
theorem encodeThenUnpackRoundTrip : Obligations.EncodeThenUnpackRoundTrip := by
  intro s
  obtain ⟨t, ht⟩ := exec_answers .encode s
  refine ⟨t, ht, fun t' hbuf hblen => exec_unpack_of_holds ?_ ((exec_encode_holds ht).1.of_keepsBuf hbuf)⟩
  rw [hblen, exec_encode_blen ht]
  rfl

end Sys2Proof.Machine
end

section
/-! PARSE (R145 to R148, R215): what it does in each case of its checks, an equation per case, and what its outcome does
not depend on. -/

namespace Sys2Proof.Machine

namespace State

/-! ## One equation per case of the checks -/

section

variable {s : State}

theorem parseFrame_of_empty (h : s.blen.toNat = 0) : s.parseFrame = s.raise .timeout := if_pos h

theorem parseFrame_of_short (h1 : 1 ≤ s.blen.toNat) (h4 : s.blen.toNat ≤ 4) :
    s.parseFrame = s.raise .malformedFrame := by
  have hmin : s.blen.toNat < Config.minRespLen := Nat.lt_succ_of_le h4
  rw [parseFrame, if_neg (by omega), if_pos hmin]

/-- From five bytes on, the frame's length decides. -/
theorem parseFrame_of_header (h5 : 5 ≤ s.blen.toNat) :
    s.parseFrame = if s.blen.toNat < frameTotal Config.params (s.byteAt 0 1) (s.byteAt 0 2) then s.raise .timeout
      else s.judgeFrame (frameTotal Config.params (s.byteAt 0 1) (s.byteAt 0 2)) := by
  have hmin : ¬ s.blen.toNat < Config.minRespLen := Nat.not_lt.2 h5
  rw [parseFrame, if_neg (by omega), if_neg hmin]

/-- Cutting BLEN does not bear on the check of the frame's CRC. -/
theorem crcOk_setBlen (n k t : Nat) : (s.setBlen n).crcOk k t = s.crcOk k t := rfl

variable {t : Nat}

theorem judgeFrame_of_badCrc (hcrc : s.crcOk 1 t = false) :
    s.judgeFrame t = (s.setBlen t).raise .checksumMismatch := by
  obtain ⟨_, h⟩ | ⟨hgood, _⟩ | ⟨hgood, _⟩ := s.judgeFrame_cases t
  · exact h
  · exact absurd (hgood.symm.trans hcrc) (by decide)
  · exact absurd (hgood.symm.trans hcrc) (by decide)

theorem judgeFrame_of_otherAddress (hcrc : s.crcOk 1 t = true) (hb : s.bcast = false) (ha : s.byteAt 2 0 ≠ s.addr) :
    s.judgeFrame t = (s.setBlen t).raise .addressMismatch := by
  obtain ⟨hbad, _⟩ | ⟨_, _, _, h⟩ | ⟨_, haddr, _⟩ := s.judgeFrame_cases t
  · exact absurd (hcrc.symm.trans hbad) (by decide)
  · exact h
  · exact absurd haddr (by simp [hb, ha])

/-- A frame PARSE judges becomes all of the buffer, whatever the judgement (R146). -/
theorem judgeFrame_blen : (s.judgeFrame t).blen = BitVec.ofNat 9 t := by
  obtain ⟨_, h⟩ | ⟨_, _, _, h⟩ | ⟨_, _, h⟩ := s.judgeFrame_cases t <;> rw [h] <;> rfl

/-- Without an accepted frame the captured address and function code stay (R38, R145). -/
theorem parseFrame_response_of_err (herr : s.parseFrame.err ≠ 0#3) :
    s.parseFrame.rAddr = s.rAddr ∧ s.parseFrame.rFc = s.rFc := by
  obtain ⟨_, h⟩ | ⟨_, _, h⟩ | ⟨_, _, h⟩ | ⟨_, _, h⟩ := s.parseFrame_cases
  · rw [h]; exact ⟨rfl, rfl⟩
  · rw [h]; exact ⟨rfl, rfl⟩
  · rw [h]; exact ⟨rfl, rfl⟩
  · obtain ⟨_, h'⟩ | ⟨_, _, _, h'⟩ | ⟨_, _, h'⟩ :=
      s.judgeFrame_cases (frameTotal Config.params (s.byteAt 0 1) (s.byteAt 0 2))
    · rw [h, h']; exact ⟨rfl, rfl⟩
    · rw [h, h']; exact ⟨rfl, rfl⟩
    · rw [h, h'] at herr; exact absurd rfl herr

end

end State

/-- The closing flag writes leave what the checks wrote (R145). -/
theorem exec_parse_results {s t : State} (h : exec .parse s = .next t) :
    t.err = s.parseFrame.err ∧ t.blen = s.parseFrame.blen ∧ t.rAddr = s.parseFrame.rAddr ∧
      t.rFc = s.parseFrame.rFc := by
  injection h with h
  simp [← h]

/-- Settles O42: each clause is the equation of its case, and the rest is PARSE's frame. -/
theorem parseOutcomes : Obligations.ParseOutcomes := by
  refine ⟨rfl, fun s => ?_⟩
  obtain ⟨t, ht⟩ := exec_answers .parse s
  obtain ⟨hvalid, hconn⟩ := exec_parse_valid_conn ht
  obtain ⟨herr, hblen, haddr, hfc⟩ := exec_parse_results ht
  refine ⟨t, ht, ⟨fun h0 => ?_, fun ⟨h1, h4⟩ => ?_, fun ⟨h5, hlt⟩ => ?_, fun ⟨h5, hle⟩ => ?_⟩, fun hne => ?_,
    hvalid, hconn, exec_ill ht, fun i => by rw [exec_buf (by decide) ht], (exec_keepsAllBut ht).weaken (by decide)⟩
  · rw [herr, hblen, State.parseFrame_of_empty h0]
    exact ⟨rfl, rfl⟩
  · rw [herr, hblen, State.parseFrame_of_short h1 h4]
    exact ⟨rfl, rfl⟩
  · rw [herr, hblen, State.parseFrame_of_header h5, if_pos hlt]
    exact ⟨rfl, rfl⟩
  · have hwhole := State.parseFrame_of_header h5
    rw [if_neg (Nat.not_lt.2 hle)] at hwhole
    refine ⟨?_, fun hbad => ?_, fun hcrc hb ha => ?_, fun hcrc hor => ?_⟩
    · rw [hblen, hwhole, State.judgeFrame_blen, BitVec.toNat_ofNat]
      exact Nat.mod_eq_of_lt ((frameTotal_bounds _ _ _).2.trans_lt (by decide))
    · rw [herr, hwhole, State.judgeFrame_of_badCrc hbad]
      rfl
    · rw [herr, hwhole, State.judgeFrame_of_otherAddress hcrc hb ha]
      rfl
    · rw [herr, haddr, hfc, State.parseFrame_accepts rfl hle hcrc hor]
      exact ⟨rfl, rfl, rfl⟩
  · rw [haddr, hfc]
    exact State.parseFrame_response_of_err (herr ▸ hne)

/-! ## What the outcome depends on -/

/-- What PARSE finds about a delimited frame `d` from address `a`, under the address settings: CRC first, by its residue
(R111), then the address (R145, R215). -/
def frameVerdict (addr : Byte) (bcast : Bool) (a : Byte) (d : List Byte) : Err :=
  if crc16 d = 0#16 then if bcast = true ∨ a = addr then .ok else .addressMismatch
  else .checksumMismatch

/-- PARSE of a whole frame that BUF holds: BLEN, ERR and the captured fields come from the frame and the address settings
alone (R147). -/
theorem exec_parse_of_holds {s : State} {a fc b2 : Byte} {p d : List Byte} (hd : d = a :: fc :: b2 :: p)
    (hheld : HoldsBytes s 0 d) (htotal : frameTotal Config.params fc b2 = d.length) (hlen : d.length ≤ s.blen.toNat) :
    ∃ t, exec .parse s = .next t ∧ t.blen.toNat = d.length ∧ t.valid = (t.err == 0#3) ∧ t.conn = (t.err == 0#3) ∧
      t.err = (frameVerdict s.addr s.bcast a d).code ∧ (t.err = 0#3 → t.rAddr = a ∧ t.rFc = fc) := by
  have hmin := (frameTotal_bounds Config.params fc b2).1
  have h0 : ∀ k, s.byteAt k 0 = a := fun k => (hheld.byteAt k (j := 0) (by simp [hd])).trans (by simp [hd])
  have h1 : ∀ k, s.byteAt k 1 = fc := fun k => (hheld.byteAt k (j := 1) (by simp [hd])).trans (by simp [hd])
  have h2 : ∀ k, s.byteAt k 2 = b2 := fun k => (hheld.byteAt k (j := 2) (by simp [hd])).trans (by simp [hd])
  have hcrc : s.crcOk 1 d.length = true ↔ crc16 d = 0#16 := by
    rw [State.crcOk_iff_residue 1 (by omega), hheld.bytes_length_eq rfl 1]
  obtain ⟨_, hparse⟩ := parseOutcomes
  obtain ⟨t, ht, ⟨_, _, _, hwhole⟩, _, hvalid, hconn, _⟩ := hparse s
  simp only [h0, h1, h2, htotal] at hwhole
  obtain ⟨hblen, hbad, hother, haccept⟩ := hwhole ⟨by omega, hlen⟩
  refine ⟨t, ht, hblen, hvalid, hconn, ?_⟩
  unfold frameVerdict
  split_ifs with hzero haddr
  · obtain ⟨herr, ha, hf⟩ := haccept (hcrc.2 hzero) haddr
    exact ⟨herr, fun _ => ⟨ha, hf⟩⟩
  · rw [not_or, Bool.not_eq_true] at haddr
    have herr := hother (hcrc.2 hzero) haddr.1 haddr.2
    exact ⟨herr, fun hok => absurd (herr.symm.trans hok) (by decide)⟩
  · have herr := hbad (Bool.eq_false_iff.2 (mt hcrc.1 hzero))
    exact ⟨herr, fun hok => absurd (herr.symm.trans hok) (by decide)⟩

/-- Settles O44: the verdict is the same, for it is made of the frame and the address settings. -/
theorem parseExaminesOneFrameOnly : Obligations.ParseExaminesOneFrameOnly := by
  intro s s' a fc b2 p d hheld hheld' htotal hlen hlen' haddr hbcast
  obtain ⟨t, ht, hblen, hvalid, hconn, herr, hresp⟩ := exec_parse_of_holds rfl hheld htotal hlen
  obtain ⟨t', ht', hblen', hvalid', hconn', herr', hresp'⟩ := exec_parse_of_holds rfl hheld' htotal hlen'
  have hsame : t'.err = t.err := by rw [herr, herr', haddr, hbcast]
  refine ⟨t, t', ht, ht', hsame, by rw [hvalid, hvalid', hsame], by rw [hconn, hconn', hsame], hblen, hblen',
    fun hok => ?_⟩
  obtain ⟨ha, hf⟩ := hresp hok
  obtain ⟨ha', hf'⟩ := hresp' (hsame.trans hok)
  exact ⟨ha, hf, ha', hf'⟩

namespace State

/-- The operands of the request replaced (R32 to R34). -/
def withRequest (s : State) (f : Byte) (r v : Half) : State := { s with fc := f, reg := r, val := v }

theorem judgeFrame_withRequest (s : State) (f : Byte) (r v : Half) (t : Nat) :
    (s.withRequest f r v).judgeFrame t = (s.judgeFrame t).withRequest f r v := by
  simp only [judgeFrame, apply_ite fun u : State => u.withRequest f r v]
  rfl

/-- No check of PARSE reads FC, REG or VAL, and none of its writes is to them (R148). -/
theorem parseFrame_withRequest (s : State) (f : Byte) (r v : Half) :
    (s.withRequest f r v).parseFrame = s.parseFrame.withRequest f r v := by
  simp only [parseFrame, apply_ite fun u : State => u.withRequest f r v, ← judgeFrame_withRequest]
  rfl

end State

/-- Settles O45: replacing the request before PARSE is replacing it after. -/
theorem parseDoesNotReadTheRequest : Obligations.ParseDoesNotReadTheRequest := by
  intro s t f r v h
  injection h with h
  subst h
  change exec .parse (s.withRequest f r v) = .next ((s.parseFrame.closeParse.drew 4).withRequest f r v)
  rw [exec_parse, State.parseFrame_withRequest]
  rfl

end Sys2Proof.Machine
end

section
/-! The measurement exchange (R90, R145, R176): PARSE accepts the frame and DEC_MEAS reads its payload words. -/

namespace Sys2Proof.Machine

/-- With its precondition met, DEC_MEAS writes the six outputs from the payload words (R176). -/
theorem exec_decMeas_of_ready {s t : State} (hready : s.decReady 0 Config.measBytes = true)
    (h : exec .decMeas s = .next t) :
    t.decOk = true ∧
      t.mv = convert (s.payloadWord 1 0).toNat Config.divV ∧ t.mi = convert (s.payloadWord 1 1).toNat Config.divI ∧
      t.mp = convert (s.payloadPair 1 2) Config.divP ∧ t.me = convert (s.payloadPair 1 4) Config.divE ∧
      t.alh = alarm (s.payloadWord 1 6) ∧ t.all = alarm (s.payloadWord 1 7) := by
  rw [exec_decMeas, State.measDecoded, hready, if_pos rfl] at h
  injection h with h
  subst h
  exact ⟨rfl, rfl, rfl, rfl, rfl, rfl, rfl⟩

/-- A payload word that BUF holds reads as it is (R89). -/
theorem HoldsBytes.payloadWord {s : State} {d : List Byte} (h : HoldsBytes s 0 d) (k j : Nat) {w : Half}
    (hhi : d[3 + 2 * j]? = some (hi8 w)) (hlo : d[3 + 2 * j + 1]? = some (lo8 w)) : s.payloadWord k j = w := by
  have hfield := h.beHalf k hhi hlo
  rwa [Nat.zero_add] at hfield

theorem alarm_iff (w : Half) : alarm w = true ↔ w ≠ 0#16 := bne_iff_ne

/-- Settles O59: PARSE accepts the frame and leaves BUF, so DEC_MEAS reads the eight words. -/
theorem measurementExchange : Obligations.MeasurementExchange := by
  intro s a fc w0 w1 w2 w3 w4 w5 w6 w7 d hfc haddr hheld hlen
  have htotal : frameTotal Config.params fc 16#8 = d.length + 2 := by
    obtain ⟨hread, _⟩ := responseLengthByFunctionCode fc 16#8
    exact hread hfc
  obtain ⟨t, ht, _, hvalid, hconn, ha, _, hblen⟩ := parseAcceptsEveryGoodFrame s a fc 16#8 _ hheld htotal hlen haddr
  have hheld_t : HoldsBytes t 0 d := hheld.left.of_buf_eq (exec_buf (by decide) ht)
  have hready : t.decReady 0 Config.measBytes = true :=
    (t.decReady_iff 0 Config.measBytes).2 ⟨hvalid, hblen, hheld_t.byteAt 0 (j := 2) (by simp [d])⟩
  obtain ⟨u, hu⟩ := exec_answers .decMeas t
  obtain ⟨hdec, hv, hi, hp, he, hh, hl⟩ := exec_decMeas_of_ready hready hu
  have hkeep := exec_keepsAllBut hu
  have hconn_u : u.conn = t.conn := eq_of_bool_toNat_eq (hkeep.part (p := .conn) (by decide))
  have haddr_u : u.rAddr = t.rAddr := BitVec.eq_of_toNat_eq (hkeep.part (p := .rAddr) (by decide))
  rw [State.payloadPair] at hp he
  rw [hheld_t.payloadWord 1 0 rfl rfl] at hv
  rw [hheld_t.payloadWord 1 1 rfl rfl] at hi
  rw [hheld_t.payloadWord 1 2 rfl rfl, hheld_t.payloadWord 1 (2 + 1) rfl rfl] at hp
  rw [hheld_t.payloadWord 1 4 rfl rfl, hheld_t.payloadWord 1 (4 + 1) rfl rfl] at he
  rw [hheld_t.payloadWord 1 6 rfl rfl] at hh
  rw [hheld_t.payloadWord 1 7 rfl rfl] at hl
  exact ⟨t, u, ht, hu, hconn_u.trans hconn, hdec, haddr_u.trans ha, hv, hi, hp, he, by rw [hh, alarm_iff],
    by rw [hl, alarm_iff]⟩

end Sys2Proof.Machine
end

section
/-! What the converter is built on (R170): `roundHalfEven` gives the nearest integer, and the finite binary32 numbers of a
binade and above are integer numbers of the binade's units, in the order of their encodings. -/

namespace Sys2Proof.Machine

/-! ## Rounding to the nearest integer -/

/-- How far the integer `j` is from num/den, times den. -/
def scaledDist (num den j : Nat) : Nat := ((j : Int) * den - num).natAbs

theorem scaledDist_mul (num den j u : Nat) : scaledDist num den (j * u) = scaledDist num (den * u) j := by
  unfold scaledDist
  push_cast
  congr 1
  ring

/-- Below num/den, the smaller integer is the farther one. -/
theorem scaledDist_lt_of_lt {num den i j : Nat} (hden : 0 < den) (hij : i < j) (hj : j * den ≤ num) :
    scaledDist num den j < scaledDist num den i := by
  have hlt : i * den < j * den := Nat.mul_lt_mul_of_pos_right hij hden
  unfold scaledDist
  rw [← Nat.cast_mul, ← Nat.cast_mul]
  omega

/-- The quotient of `roundHalfEven` with its two candidates: the floor, at distance r, and the next integer. -/
theorem roundHalfEven_cases (num : Nat) {den : Nat} (hden : 0 < den) :
    ∃ f r, num = f * den + r ∧ r < den ∧
      (roundHalfEven num den = f ∧ 2 * r ≤ den ∧ (2 * r = den → f % 2 = 0) ∨
        roundHalfEven num den = f + 1 ∧ den ≤ 2 * r ∧ (2 * r = den → (f + 1) % 2 = 0)) := by
  refine ⟨num / den, num % den, (Nat.div_add_mod' num den).symm, Nat.mod_lt num hden, ?_⟩
  simp only [roundHalfEven]
  split_ifs <;> omega

/-- The rounded integer is at most one half away, and exactly one half only if it is even (R170). -/
theorem roundHalfEven_dist (num : Nat) {den : Nat} (hden : 0 < den) :
    2 * scaledDist num den (roundHalfEven num den) ≤ den ∧
      (2 * scaledDist num den (roundHalfEven num den) = den → roundHalfEven num den % 2 = 0) := by
  obtain ⟨f, r, rfl, hr, ⟨hk, hle, heven⟩ | ⟨hk, hle, heven⟩⟩ := roundHalfEven_cases num hden
  · have hdist : scaledDist (f * den + r) den f = r := by unfold scaledDist; push_cast; omega
    rw [hk, hdist]
    exact ⟨hle, heven⟩
  · have hdist : scaledDist (f * den + r) den (f + 1) = den - r := by
      unfold scaledDist; push_cast; rw [add_mul]; omega
    rw [hk, hdist]
    exact ⟨by omega, fun h => heven (by omega)⟩

/-- Two different integers are at least 1 apart. -/
theorem le_scaledDist_add {num den j k : Nat} (h : j ≠ k) : den ≤ scaledDist num den j + scaledDist num den k := by
  have hone : 1 ≤ ((j : Int) - k).natAbs := by omega
  have hgap : den ≤ (((j : Int) - k) * den).natAbs := by
    rw [Int.natAbs_mul, Int.natAbs_natCast]
    exact Nat.le_mul_of_pos_left den hone
  rw [sub_mul] at hgap
  unfold scaledDist
  omega

/-- No integer is nearer than the rounded one, and another as near means that the rounded one is even (R170). -/
theorem roundHalfEven_nearest (num : Nat) {den : Nat} (hden : 0 < den) (j : Nat) :
    scaledDist num den (roundHalfEven num den) ≤ scaledDist num den j ∧
      (scaledDist num den j = scaledDist num den (roundHalfEven num den) → j ≠ roundHalfEven num den →
        roundHalfEven num den % 2 = 0) := by
  obtain ⟨hhalf, htie⟩ := roundHalfEven_dist num hden
  by_cases hj : j = roundHalfEven num den
  · subst hj; exact ⟨le_rfl, fun _ h => absurd rfl h⟩
  · have hgap := le_scaledDist_add (num := num) (den := den) hj
    exact ⟨by omega, fun heq _ => htie (by omega)⟩

/-- An integer less than one half away is the rounded one. -/
theorem roundHalfEven_eq {num den j : Nat} (h : 2 * scaledDist num den j < den) : roundHalfEven num den = j := by
  by_contra hne
  have hgap := le_scaledDist_add (num := num) (den := den) hne
  have hhalf := (roundHalfEven_dist num (den := den) (by omega)).1
  omega

/-- Rounding depends on the quotient alone. -/
theorem roundHalfEven_mul_right (num den : Nat) {c : Nat} (hc : 0 < c) :
    roundHalfEven (num * c) (den * c) = roundHalfEven num den := by
  have hlt (a b : Nat) : a * c < b * c ↔ a < b := Nat.mul_lt_mul_right hc
  simp only [roundHalfEven, Nat.mul_div_mul_right _ _ hc, Nat.mul_mod_mul_right, ← Nat.mul_assoc, hlt]

/-! ## Finite binary32 numbers -/

/-- A number of a binade is an integer number of the units of any lower one. -/
theorem scaledValue_of_lt_expField {w : Word} {e : Nat} (h : e < expField w) :
    scaledValue w = (2 ^ 23 + fracField w) * 2 ^ (expField w - (e + 1)) * 2 ^ e := by
  rw [scaledValue, if_neg (by omega), Nat.mul_assoc, ← Nat.pow_add]
  congr 2
  omega

/-- A number below a binade is below the binade's first number, of significand 2^23. -/
theorem scaledValue_lt_of_expField_le {w : Word} {e : Nat} (h : expField w ≤ e) : scaledValue w < 2 ^ 23 * 2 ^ e := by
  have hfrac : fracField w < 2 ^ 23 := Nat.mod_lt _ (by decide)
  unfold scaledValue
  split_ifs with h0
  · exact hfrac.trans_le (Nat.le_mul_of_pos_right _ (Nat.two_pow_pos _))
  · calc (2 ^ 23 + fracField w) * 2 ^ (expField w - 1)
        < (2 ^ 23 * 2) * 2 ^ (expField w - 1) := Nat.mul_lt_mul_of_pos_right (by omega) (Nat.two_pow_pos _)
      _ = 2 ^ 23 * 2 ^ (expField w - 1 + 1) := by rw [Nat.pow_succ]; ring
      _ ≤ 2 ^ 23 * 2 ^ e := Nat.mul_le_mul_left _ (Nat.pow_le_pow_right (by decide) (by omega))

/-- Non-negative binary32 numbers are ordered as their encodings. -/
theorem scaledValue_lt_scaledValue {v w : Word} (hw : w.toNat < 0x7F800000) (h : v.toNat < w.toNat) :
    scaledValue v < scaledValue w := by
  obtain hexp | ⟨hexp, hfrac⟩ : expField v < expField w ∨ expField v = expField w ∧ fracField v < fracField w := by
    unfold expField fracField; omega
  · have hpos : expField w ≠ 0 := by omega
    refine (scaledValue_lt_of_expField_le (Nat.le_sub_one_of_lt hexp)).trans_le ?_
    rw [scaledValue, if_neg hpos]
    exact Nat.mul_le_mul_right _ (Nat.le_add_right _ _)
  · unfold scaledValue
    rw [hexp]
    split_ifs
    · exact hfrac
    · exact Nat.mul_lt_mul_of_pos_right (Nat.add_lt_add_left hfrac _) (Nat.two_pow_pos _)

/-- A finite non-negative binary32 number has one encoding. -/
theorem eq_of_scaledValue_eq {v w : Word} (hv : v.toNat < 0x7F800000) (hw : w.toNat < 0x7F800000)
    (h : scaledValue v = scaledValue w) : v = w := by
  obtain hlt | heq | hgt := Nat.lt_trichotomy v.toNat w.toNat
  · exact absurd h (scaledValue_lt_scaledValue hw hlt).ne
  · exact BitVec.eq_of_toNat_eq heq
  · exact absurd h (scaledValue_lt_scaledValue hv hgt).ne'

/-- The value of an encoding by its biased exponent e + 1 and its significand k; k = 2^24 carries into the exponent. -/
theorem scaledValue_of_toNat {w : Word} {e k : Nat} (he : e < 254) (hk : 2 ^ 23 ≤ k) (hk' : k ≤ 2 ^ 24)
    (h : w.toNat = (e + 1) * 2 ^ 23 + (k - 2 ^ 23)) : scaledValue w = k * 2 ^ e := by
  obtain hlt | rfl := Nat.lt_or_eq_of_le hk'
  · have hexp : expField w = e + 1 := by unfold expField; omega
    have hfrac : fracField w = k - 2 ^ 23 := by unfold fracField; omega
    rw [scaledValue, hexp, hfrac, if_neg e.succ_ne_zero, Nat.add_sub_cancel' hk, Nat.add_sub_cancel]
  · have hexp : expField w = e + 1 + 1 := by unfold expField; omega
    have hfrac : fracField w = 0 := by unfold fracField; omega
    rw [scaledValue, hexp, hfrac, if_neg (Nat.succ_ne_zero _), Nat.add_sub_cancel, Nat.pow_succ]
    ring

end Sys2Proof.Machine
end

section
/-! The converter (R170, R171, R174): the result is the nearest integer number of the units of its binade, and no binary32
number of another binade is nearer. -/

namespace Sys2Proof.Machine

theorem divisor_pos {div : Nat} (h : div ∈ [1, 10, 100]) : 0 < div := by
  have hmem : div = 1 ∨ div = 10 ∨ div = 100 := by simpa using h
  omega

/-! ## The result is the nearest number -/

/-- The significand of R170 is raw/div rounded in units of 2^(l+119), on the scale of `scaledValue`. -/
theorem significand_eq (raw div l : Nat) :
    significand raw div l = roundHalfEven (raw * 2 ^ 149) (div * 2 ^ (l + 119)) := by
  unfold significand
  split_ifs with hl
  · have hpow : 2 ^ 149 = 2 ^ (30 - l) * 2 ^ (l + 119) := by rw [← Nat.pow_add]; congr 1; omega
    rw [hpow, ← Nat.mul_assoc, roundHalfEven_mul_right _ _ (Nat.two_pow_pos _)]
  · have hpow : 2 ^ (l + 119) = 2 ^ (l - 30) * 2 ^ 149 := by rw [← Nat.pow_add]; congr 1; omega
    rw [hpow, ← Nat.mul_assoc, roundHalfEven_mul_right _ _ (Nat.two_pow_pos _)]

/-- No number of units of 2^(l+119) is nearer to raw/div than the significand, and another as near means that the
significand is even (R170). -/
theorem significand_nearest (raw : Nat) {div : Nat} (hdiv : 0 < div) (l j : Nat) :
    scaledDist (raw * 2 ^ 149) div (significand raw div l * 2 ^ (l + 119)) ≤
        scaledDist (raw * 2 ^ 149) div (j * 2 ^ (l + 119)) ∧
      (scaledDist (raw * 2 ^ 149) div (j * 2 ^ (l + 119)) =
          scaledDist (raw * 2 ^ 149) div (significand raw div l * 2 ^ (l + 119)) →
        j ≠ significand raw div l → significand raw div l % 2 = 0) := by
  rw [scaledDist_mul, scaledDist_mul, significand_eq]
  exact roundHalfEven_nearest _ (Nat.mul_pos hdiv (Nat.two_pow_pos _)) j

/-- The result for a non-zero raw value, by the binade of raw/div: its value is the significand in the binade's units
and its last fraction bit is the significand's (R170). -/
theorem fx2fSingle_spec {raw div : Nat} (h0 : raw ≠ 0) (hraw : raw < 2 ^ 32) (hdiv : div ∈ [1, 10, 100]) :
    ∃ l, 2 ^ 23 * 2 ^ (l + 119) * div ≤ raw * 2 ^ 149 ∧
      scaledValue (fx2fSingle raw div) = significand raw div l * 2 ^ (l + 119) ∧
      (significand raw div l % 2 = 0 → (fx2fSingle raw div).getLsbD 0 = false) := by
  have hmem : div = 1 ∨ div = 10 ∨ div = 100 := by simpa using hdiv
  have hpos : 0 < div := by omega
  have hle : div ≤ raw * 128 := by omega
  obtain ⟨hlo, hhi⟩ := biasedExp_spec hpos hle
  obtain ⟨hk, hk'⟩ := significand_bounds hpos hlo hhi
  have hl := biasedExp_le hpos hle hraw
  have hbits := fx2fSingle_toNat h0 hk' hl
  refine ⟨biasedExp raw div, ?_, scaledValue_of_toNat (by omega) hk hk' hbits, fun heven => ?_⟩
  · calc 2 ^ 23 * 2 ^ (biasedExp raw div + 119) * div = 2 ^ biasedExp raw div * div * 2 ^ 142 := by
          rw [Nat.pow_add]; ring
      _ ≤ raw * 128 * 2 ^ 142 := Nat.mul_le_mul_right _ hlo
      _ = raw * 2 ^ 149 := by ring
  · rw [BitVec.getLsbD, hbits, Nat.testBit_zero, decide_eq_false_iff_not]
    omega

/-- R170 for a non-zero raw value. A number of the result's binade or a higher one is an integer number of the binade's
units; one of a lower binade is farther away than the binade's first number. -/
theorem fx2fSingle_nearest {raw div : Nat} (h0 : raw ≠ 0) (hraw : raw < 2 ^ 32) (hdiv : div ∈ [1, 10, 100]) {w : Word}
    (hw : w.toNat < 0x7F800000) :
    scaledDist (raw * 2 ^ 149) div (scaledValue (fx2fSingle raw div)) ≤ scaledDist (raw * 2 ^ 149) div (scaledValue w) ∧
      (scaledDist (raw * 2 ^ 149) div (scaledValue w) =
          scaledDist (raw * 2 ^ 149) div (scaledValue (fx2fSingle raw div)) →
        w ≠ fx2fSingle raw div → (fx2fSingle raw div).getLsbD 0 = false) := by
  have hpos := divisor_pos hdiv
  have hfinite : (fx2fSingle raw div).toNat < 0x7F800000 := (fx2fSingle_range h0 hraw hdiv).2.trans_lt (by decide)
  obtain ⟨l, hbinade, hvalue, heven⟩ := fx2fSingle_spec h0 hraw hdiv
  have hnearest := significand_nearest raw hpos l
  rw [← hvalue] at hnearest
  obtain hhigh | hlow := Nat.lt_or_ge (l + 119) (expField w)
  · have hunits := scaledValue_of_lt_expField hhigh
    obtain ⟨hle, htie⟩ := hnearest ((2 ^ 23 + fracField w) * 2 ^ (expField w - (l + 119 + 1)))
    rw [← hunits] at hle htie
    refine ⟨hle, fun heq hne => heven (htie heq fun hsame => hne (eq_of_scaledValue_eq hw hfinite ?_))⟩
    rw [hunits, hsame, hvalue]
  · have hfarther := scaledDist_lt_of_lt hpos (scaledValue_lt_of_expField_le hlow) hbinade
    have hlt := (hnearest (2 ^ 23)).1.trans_lt hfarther
    exact ⟨hlt.le, fun heq => absurd heq hlt.ne'⟩

/-- Settles O51: +0.0 is exact, and the other results are `fx2fSingle_nearest`. -/
theorem converterRoundsToNearestEven : Obligations.ConverterRoundsToNearestEven := by
  intro raw div hraw hdiv r dist
  have hdist (x : Word) : dist x = scaledDist (raw * 2 ^ 149) div (scaledValue x) := by
    simp only [dist, scaledDist]; push_cast; rfl
  simp only [hdist]
  by_cases h0 : raw = 0
  · subst h0
    have hr : r = 0#32 := rfl
    have hzero : scaledDist (0 * 2 ^ 149) div (scaledValue 0#32) = 0 := by
      rw [show scaledValue 0#32 = 0 by decide]; simp [scaledDist]
    rw [hr, hzero]
    exact ⟨by decide, fun w _ => ⟨Nat.zero_le _, fun _ _ => rfl⟩⟩
  · exact ⟨(fx2fSingle_range h0 hraw hdiv).2.trans_lt (by decide), fun w hw => fx2fSingle_nearest h0 hraw hdiv hw⟩

/-! ## The range of the converter, and its two settings -/

/-- The result is at most half a unit in its last place away from raw/div, and 2^23 such units are at most raw/div. -/
theorem scaledDist_fx2fSingle_le {raw div : Nat} (h0 : raw ≠ 0) (hraw : raw < 2 ^ 32) (hdiv : div ∈ [1, 10, 100]) :
    2 ^ 24 * scaledDist (raw * 2 ^ 149) div (scaledValue (fx2fSingle raw div)) ≤ raw * 2 ^ 149 := by
  have hpos := divisor_pos hdiv
  obtain ⟨l, hbinade, hvalue, _⟩ := fx2fSingle_spec h0 hraw hdiv
  have hhalf := (roundHalfEven_dist (raw * 2 ^ 149) (Nat.mul_pos hpos (Nat.two_pow_pos (l + 119)))).1
  rw [← significand_eq, ← scaledDist_mul, ← hvalue] at hhalf
  calc 2 ^ 24 * scaledDist (raw * 2 ^ 149) div (scaledValue (fx2fSingle raw div))
      = 2 ^ 23 * (2 * scaledDist (raw * 2 ^ 149) div (scaledValue (fx2fSingle raw div))) := by ring
    _ ≤ 2 ^ 23 * (div * 2 ^ (l + 119)) := Nat.mul_le_mul_left _ hhalf
    _ = 2 ^ 23 * 2 ^ (l + 119) * div := by ring
    _ ≤ raw * 2 ^ 149 := hbinade

/-- How far a is from raw · scale / div is how far raw is from a · div / scale: the one for the converter, the other for
the way back. -/
theorem scaledDist_comm_scale (raw div a scale : Nat) :
    scaledDist (raw * scale) div a = scaledDist (a * div) scale raw := by
  unfold scaledDist
  push_cast
  omega

/-- Rounding value · div gives a raw value below 2^23 back (R174). -/
theorem roundHalfEven_scaledValue_fx2fSingle {raw div : Nat} (hraw : raw < 2 ^ 23) (hdiv : div ∈ [1, 10, 100]) :
    roundHalfEven (scaledValue (fx2fSingle raw div) * div) (2 ^ 149) = raw := by
  by_cases h0 : raw = 0
  · subst h0
    rw [show fx2fSingle 0 div = 0#32 from rfl, show scaledValue 0#32 = 0 by decide, Nat.zero_mul]
    decide
  · have hdist := scaledDist_fx2fSingle_le h0 (by omega) hdiv
    rw [scaledDist_comm_scale] at hdist
    exact roundHalfEven_eq (by omega)

/-- Settles O52: the range is `fx2fSingle_range`, and the bounds and the collision are computed. -/
theorem converterRange : Obligations.ConverterRange := by
  refine ⟨fun raw div hraw hdiv =>
      ⟨⟨fun hz => ?_, fun h0 => by subst h0; rfl⟩, fun h0 => fx2fSingle_range h0 hraw hdiv⟩,
    by decide, by decide, fun raw div hraw hdiv => ?_, by decide⟩
  · by_contra h0
    have hlo := (fx2fSingle_range h0 hraw hdiv).1
    rw [show fx2fSingle raw div = 0#32 from hz] at hlo
    exact absurd hlo (by decide)
  · exact roundHalfEven_scaledValue_fx2fSingle (by omega) hdiv

/-- A raw value below 2^24 is a binary32 number itself (R170, R171). -/
theorem scaledValue_fx2fSingle_one {raw : Nat} (h0 : raw ≠ 0) (hraw : raw < 2 ^ 24) :
    scaledValue (fx2fSingle raw 1) = raw * 2 ^ 149 := by
  obtain ⟨l, hbinade, hvalue, _⟩ := fx2fSingle_spec h0 (by omega) (div := 1) (by decide)
  have hl : l ≤ 30 := by
    have hpow : 2 ^ (l + 142) < 2 ^ 173 :=
      calc 2 ^ (l + 142) = 2 ^ 23 * 2 ^ (l + 119) * 1 := by ring
        _ ≤ raw * 2 ^ 149 := hbinade
        _ < 2 ^ 24 * 2 ^ 149 := Nat.mul_lt_mul_of_pos_right hraw (Nat.two_pow_pos 149)
        _ = 2 ^ 173 := by norm_num
    have := (Nat.pow_lt_pow_iff_right (by decide)).1 hpow
    omega
  have hsig : significand raw 1 l = raw * 2 ^ (30 - l) := by
    rw [significand, if_pos hl]
    exact roundHalfEven_eq (by simp [scaledDist])
  rw [hvalue, hsig, Nat.mul_assoc, ← Nat.pow_add]
  congr 2
  omega

/-- Settles O53: below 2^24 the first rounding of DOUBLE changes nothing. -/
theorem roundingSettingsAgreeBelow2Pow24 : Obligations.RoundingSettingsAgreeBelow2Pow24 := by
  refine ⟨fun raw div hraw _ => ?_, by decide, by decide⟩
  by_cases h0 : raw = 0
  · subst h0; rfl
  · have hround : roundedRaw raw = raw := by
      rw [roundedRaw, scaledValue_fx2fSingle_one h0 hraw, Nat.mul_div_cancel _ (by decide)]
    rw [fx2f, fx2f, hround]

end Sys2Proof.Machine
end

section
/-! The register decoder's operations (R172, R173, R175 to R182): what DEC_MEAS and DEC_PARAM write, when they refuse,
and which frames they accept. -/

namespace Sys2Proof.Machine

/-! ## The decoders and the frames they accept -/

/-- The number of payload bytes a group is decoded from (R90, R91). -/
def Group.payloadBytes : Group → Nat
  | .meas => Config.measBytes
  | .param => Config.paramBytes

/-- A decoder leaves in DEC_OK whether its precondition held (R29, R175). -/
theorem exec_decoder_decOk {g : Group} {s t : State} (h : exec g.decoder s = .next t) :
    t.decOk = s.decReady 0 g.payloadBytes := by
  cases g with
  | meas => rw [Group.decoder, exec_decMeas] at h; injection h with h; rw [← h]; rfl
  | param => rw [Group.decoder, exec_decParam] at h; injection h with h; rw [← h]; rfl

/-- With its precondition unmet, a decoder keeps all but DEC_OK and ILL (R176, R180). -/
theorem exec_decoder_keeps_of_not_ready {g : Group} {s t : State} (h : exec g.decoder s = .next t)
    (hno : s.decReady 0 g.payloadBytes = false) : KeepsAllBut [.decOk, .ill] s t := by
  have hrefused : exec g.decoder s = .next (((s.setDecOk false).setIll false).drew 2) := by
    cases g with
    | meas =>
      rw [Group.payloadBytes] at hno
      rw [Group.decoder, exec_decMeas, State.measDecoded, hno, if_neg Bool.false_ne_true]
    | param =>
      rw [Group.payloadBytes] at hno
      rw [Group.decoder, exec_decParam, State.paramDecoded, hno, if_neg Bool.false_ne_true]
  rw [hrefused] at h
  injection h with h
  subst h
  exact ((s.setDecOk_keeps false).andThen (State.setIll_keeps _ false)).andThen (State.drew_keeps _ 2)

/-- The two halves of a decoder's refusal, from its precondition clause by clause. -/
theorem exec_decoder_refuses {g : Group} {s t : State} (h : exec g.decoder s = .next t)
    (hno : ¬ (s.valid = true ∧ s.blen.toNat = 5 + g.payloadBytes ∧ s.byteAt 0 2 = BitVec.ofNat 8 g.payloadBytes)) :
    t.decOk = false ∧ KeepsAllBut [.decOk, .ill] s t := by
  have hready : s.decReady 0 g.payloadBytes = false :=
    Bool.eq_false_iff.2 fun hr => hno ((s.decReady_iff 0 g.payloadBytes).1 hr)
  exact ⟨(exec_decoder_decOk h).trans hready, exec_decoder_keeps_of_not_ready h hready⟩

/-- An operation other than ENCODE keeps every byte of BUF. -/
theorem exec_keepsBuf {i : Instr} {s t : State} (hi : i ≠ .encode) (h : exec i s = .next t) : KeepsBuf s t :=
  fun j => by rw [exec_buf hi h]

/-- With its precondition met, DEC_PARAM writes the four outputs from the payload words (R180 to R182). -/
theorem exec_decParam_of_ready {s t : State} (hready : s.decReady 0 Config.paramBytes = true)
    (h : exec .decParam s = .next t) :
    t.phv = convert (s.payloadWord 1 0).toNat Config.divTh ∧ t.plv = convert (s.payloadWord 1 1).toNat Config.divTh ∧
      t.pAddr = lo8 (s.payloadWord 1 2) ∧ t.pShunt = s.payloadWord 1 3 ∧ t.decOk = true := by
  rw [exec_decParam, State.paramDecoded, hready, if_pos rfl] at h
  injection h with h
  subst h
  exact ⟨rfl, rfl, rfl, rfl, rfl⟩

/-- A response longer than the 8 bytes of an echo is a read response (R140). -/
theorem readResponse_of_lt_frameTotal {fc b2 : Byte} (h : 8 < frameTotal Config.params fc b2) :
    fc = 0x03#8 ∨ fc = 0x04#8 := by
  by_contra hread
  obtain ⟨_, hecho, hother, _⟩ := responseLengthByFunctionCode fc b2
  by_cases he : fc = 0x06#8 ∨ fc = 0x42#8
  · have := hecho he; omega
  · have := hother (by simp only [List.mem_cons, List.not_mem_nil, or_false]; tauto)
    omega

/-! ## The claims -/

/-- Settles O55: `decReady` decides between the decode and the refusal. -/
theorem decMeasDecodesTheMeasurementPayload : Obligations.DecMeasDecodesTheMeasurementPayload := by
  refine ⟨rfl, fun s => ?_⟩
  obtain ⟨t, ht⟩ := exec_answers .decMeas s
  refine ⟨t, ht, ⟨fun hready => ?_, exec_decoder_refuses (g := .meas) ht⟩, exec_ill ht, exec_keepsBuf (by decide) ht⟩
  obtain ⟨hdec, hv, hi, hp, he, hh, hl⟩ := exec_decMeas_of_ready ((s.decReady_iff 0 Config.measBytes).2 hready) ht
  exact ⟨hv, hi, hp, he, by rw [hh]; exact alarm_iff _, by rw [hl]; exact alarm_iff _, hdec, exec_keepsAllBut ht⟩

/-- Settles O56: `decReady` decides between the decode and the refusal. -/
theorem decParamDecodesTheParameterPayload : Obligations.DecParamDecodesTheParameterPayload := by
  refine ⟨rfl, fun s => ?_⟩
  obtain ⟨t, ht⟩ := exec_answers .decParam s
  refine ⟨t, ht, ⟨fun hready => ?_, exec_decoder_refuses (g := .param) ht⟩, exec_ill ht, exec_keepsBuf (by decide) ht⟩
  obtain ⟨hhv, hlv, ha, hsh, hdec⟩ := exec_decParam_of_ready ((s.decReady_iff 0 Config.paramBytes).2 hready) ht
  exact ⟨hhv, hlv, ha, hsh, hdec, exec_keepsAllBut ht⟩

/-- Settles O57: the frame is 5 + N bytes long by the precondition and of its response length by the invariant, and only
a read response is longer than 8 bytes. -/
theorem decodersAcceptReadResponsesOnly : Obligations.DecodersAcceptReadResponsesOnly := by
  intro i s t hi hinv hwritten he hok
  obtain ⟨g, rfl⟩ : ∃ g : Group, i = g.decoder := hi.elim (fun h => ⟨.meas, h⟩) fun h => ⟨.param, h⟩
  obtain ⟨hvalid, hlen, _⟩ := (s.decReady_iff 0 _).1 ((exec_decoder_decOk he).symm.trans hok)
  have hlong : 8 < 5 + g.payloadBytes := by cases g <;> decide
  have hdelimited := (hinv.frame hvalid hwritten).delimited
  exact readResponse_of_lt_frameTotal (b2 := s.byteAt 0 2) (by omega)

/-- Settles O54, by the definitions of the assembler and the comparator; the bound is that of the two 16-bit words. -/
theorem pairsAndAlarms : Obligations.PairsAndAlarms :=
  ⟨fun f g => ⟨rfl, rfl, pair_lt _ f g, pair_lt _ f g⟩, rfl, by decide, alarm_iff⟩

end Sys2Proof.Machine
end

section
/-! The control operations (R200, R201): NOP and the reserved codes change ILL and nothing else. -/

namespace Sys2Proof.Machine

/-- The list of R201 holds reserved codes only. -/
theorem isReserved_of_mem_reservedCodes {i : Instr}
    (hi : i ∈ [.reserved9, .reservedA, .reservedB, .reservedC, .reservedD, .reservedE, .reservedF]) :
    i.isReserved = true := by
  fin_cases hi <;> rfl

/-- What a reserved code may change is ILL alone (R201). -/
theorem writes_of_isReserved {i : Instr} (hi : i.isReserved = true) : i.writes = [.ill] := by
  cases i with
  | reserved9 | reservedA | reservedB | reservedC | reservedD | reservedE | reservedF => rfl
  | _ => cases hi

/-- An operation that may change ILL alone completes, leaves in ILL whether its code is reserved, and keeps the rest. -/
theorem exec_of_writes_ill {i : Instr} (hi : i.writes = [.ill]) (s : State) :
    ∃ t, exec i s = .next t ∧ t.ill = i.isReserved ∧ KeepsBuf s t ∧ KeepsAllBut [.ill] s t := by
  obtain ⟨t, ht⟩ := exec_answers i s
  have hne : i ≠ .encode := fun h => absurd (h ▸ hi) (by decide)
  exact ⟨t, ht, exec_ill ht, exec_keepsBuf hne ht, hi ▸ exec_keepsAllBut ht⟩

/-- Settles O32: a reserved code may change ILL alone, and whichever operation runs next leaves there whether its own
code is reserved. -/
theorem reservedCodesOnlySetIll : Obligations.ReservedCodesOnlySetIll := by
  intro i s hi
  have hres := isReserved_of_mem_reservedCodes hi
  obtain ⟨t, ht, hill, hbuf, hkeeps⟩ := exec_of_writes_ill (writes_of_isReserved hres) s
  exact ⟨t, ht, hill.trans hres, hbuf, hkeeps, fun j u hj hu => (exec_ill hu).trans hj⟩

/-- Settles O31: NOP may change ILL alone and is no reserved code, and a CMD word is decoded by its OP field. -/
theorem nopOnlyClearsIll : Obligations.NopOnlyClearsIll :=
  ⟨rfl, fun _ hop => decodeOp_eq_iff.2 hop, exec_of_writes_ill (i := .nop) rfl⟩

end Sys2Proof.Machine
end

section
/-! Exceptions (R214 to R217, R226): a failed PARSE leaves the decoded outputs standing and both decoders refusing, and
where a step stops for a reason outside the access. -/

namespace Sys2Proof.Machine

/-! ## After a failed PARSE -/

/-- An operation other than the group's decoder keeps the group's registers (R70). -/
theorem exec_keeps_group {g : Group} {i : Instr} {s t : State} (hi : i ≠ g.decoder) (h : exec i s = .next t) :
    ∀ r ∈ g.regs, t.readReg r = s.readReg r :=
  Group.readReg_congr fun p hp => (exec_keepsAllBut h).part (Group.parts_not_mem_writes hi p hp)

/-- With VALID clear, a group's decoder completes with DEC_OK = 0 and keeps the group's registers (R175, R217). -/
theorem exec_decoder_refuses_of_valid_false (g : Group) {s : State} (hvalid : s.valid = false) :
    ∃ t, exec g.decoder s = .next t ∧ t.decOk = false ∧ ∀ r ∈ g.regs, t.readReg r = s.readReg r := by
  obtain ⟨t, ht⟩ := exec_answers g.decoder s
  obtain ⟨hdec, hkeeps⟩ := exec_decoder_refuses ht fun ⟨hv, _⟩ => Bool.false_ne_true (hvalid.symm.trans hv)
  have houtside : ∀ p ∈ g.parts, p ∉ [Part.decOk, .ill] := by cases g <;> decide
  exact ⟨t, ht, hdec, Group.readReg_congr fun p hp => hkeeps.part (houtside p hp)⟩

/-- Settles O46: a failed PARSE clears VALID and CONN and writes neither group; without VALID both decoders refuse. -/
theorem failedParsePreservesTheSnapshot : Obligations.FailedParsePreservesTheSnapshot := by
  intro s t h hne
  obtain ⟨hvalid, hconn⟩ := exec_parse_valid_conn h
  have hfailed : (t.err == 0#3) = false := beq_eq_false_iff_ne.2 hne
  have hrefuses (g : Group) (hg : Instr.parse ≠ g.decoder) :
      ∃ u, exec g.decoder t = .next u ∧ u.decOk = false ∧ ∀ r ∈ g.regs, u.readReg r = s.readReg r := by
    obtain ⟨u, hu, hdec, hkeeps⟩ := exec_decoder_refuses_of_valid_false g (hvalid.trans hfailed)
    exact ⟨u, hu, hdec, fun r hr => (hkeeps r hr).trans (exec_keeps_group hg h r hr)⟩
  exact ⟨hconn.trans hfailed, hrefuses .meas (by decide), hrefuses .param (by decide)⟩

/-! ## Where a step stops -/

/-- A step at a pending event performs it, with the event taken off the list (R71). -/
theorem step_event {s : State} {e : Event} {rest : List Event} (herr : s.err.toNat ≤ 4) (hp : s.pending = e :: rest) :
    step s = performEvent e { s with pending := rest } := by
  rw [step, stepHost, if_neg (Nat.not_lt.2 herr), hp]

/-- Settles O6: the check of ERR comes before any event, and of the events only two accesses at once have no meaning. -/
theorem stepsThatStop : Obligations.StepsThatStop := by
  refine ⟨fun s herr => ?_, fun s a b rest herr hp => ?_⟩
  · rw [step, stepHost, if_pos herr]
  · rw [step_event herr hp, performEvent]

end Sys2Proof.Machine
end

section
/-! Reset (R240, R241) and the address settings (R254): the reset state, and that ADDR and BCAST stand until ADDR is written
again. -/

namespace Sys2Proof.Machine

/-! ## The reset state -/

/-- Settles O9: reset from the reset state is the reset state. -/
theorem resetMeetsTheInvariant : Obligations.ResetMeetsTheInvariant := State.resetBlock_inv State.reset

theorem State.reset_readReg (r : RegName) : State.reset.readReg r = 0#32 := by cases r <;> rfl

/-- The reset input leaves the block as the reset state has it, whatever the state before (R240). -/
theorem State.resetBlock_readReg (s : State) (r : RegName) : s.resetBlock.readReg r = 0#32 :=
  (State.readReg_congr (s := State.reset) rfl r).trans (State.reset_readReg r)

/-- Settles O10: every field of the block is 0 after reset, and BUF is the empty list. -/
theorem resetZeroesEveryRegister : Obligations.ResetZeroesEveryRegister :=
  ⟨State.reset_readReg, Memory.get?_nil, fun s => ⟨s.resetBlock, rfl, s.resetBlock_readReg, Memory.get?_nil⟩⟩

/-! ## The address settings -/

/-- A host write of a register other than ADDR has neither ADDR nor BCAST among what it may change (R31 to R36). -/
theorem RegName.address_not_mem_hostWrites {r : RegName} (hr : r ≠ .addr) :
    ∀ p ∈ [Part.addr, .bcast], p ∉ r.hostWrites := by
  cases r with
  | addr => exact absurd rfl hr
  | _ => decide

/-- A part is the block's: the host's accesses, the read log and the draws do not show in it (R20). -/
theorem State.part_congr {s t : State} (h : t.toBlock = s.toBlock) (p : Part) : t.part p = s.part p := by
  obtain ⟨_, _, _, _⟩ := s
  obtain ⟨_, _, _, _⟩ := t
  obtain rfl := h
  cases p <;> rfl

/-- An access other than a write at ADDR's offset keeps ADDR and BCAST (R254). -/
theorem perform_keeps_address {a : Access} {s t : State} (ha : ∀ n v, a ≠ .write 0x008 n v) (h : perform a s = .next t) :
    ∀ p ∈ [Part.addr, .bcast], t.part p = s.part p := by
  intro p hp
  cases a with
  | read off n =>
    obtain ⟨hblock, _⟩ := perform_read_frame h
    exact State.part_congr hblock p
  | write off n v =>
    obtain ⟨_, _, he⟩ | ⟨r, _, rfl, _, rfl⟩ | ⟨_, _, rfl⟩ | ⟨i, _, _, _, rfl⟩ := performWrite_cases h
    · exact (exec_keepsAllBut he).part (operand_not_mem_writes _ p (List.mem_append_left [Part.fc, .reg, .val] hp))
    · have hr : r ≠ .addr := fun hr => ha n v (hr ▸ rfl)
      exact (s.writeReg_keeps _ r).part (RegName.address_not_mem_hostWrites hr p hp)
    · rfl
    · exact (s.writeBufSpace_keeps i _).part (by revert p; decide)

/-- Settles O19, event by event. -/
theorem searchModeStaysUntilAddrIsWritten : Obligations.SearchModeStaysUntilAddrIsWritten := by
  intro e s t hreset haddr h
  cases e with
  | access a =>
    have hkeep := perform_keeps_address (fun n v ha => haddr n v (congrArg Event.access ha)) h
    exact ⟨eq_of_bool_toNat_eq (hkeep .bcast (by decide)), BitVec.eq_of_toNat_eq (hkeep .addr (by decide))⟩
  | concurrent a b => cases h
  | reset => exact absurd rfl hreset

end Sys2Proof.Machine
end

section
/-! The hazards of the buffer (R251, R252, R255): FRAMELEN before PARSE, a frame not yet sent, and a frame changed after
PARSE. -/

namespace Sys2Proof.Machine

/-! ## FRAMELEN and PARSE agree -/

/-- A frame that arrived whole is judged by its CRC and its address, never as late (R145, R215). -/
theorem State.judgeFrame_err_ne_timeout (s : State) (n : Nat) : (s.judgeFrame n).err ≠ Err.timeout.code := by
  obtain ⟨_, h⟩ | ⟨_, _, _, h⟩ | ⟨_, _, h⟩ := s.judgeFrame_cases n <;> rw [h]
  · exact (by decide : Err.checksumMismatch.code ≠ Err.timeout.code)
  · exact (by decide : Err.addressMismatch.code ≠ Err.timeout.code)
  · exact (by decide : Err.ok.code ≠ Err.timeout.code)

/-- From five bytes on, PARSE reports TIMEOUT exactly where the frame its header delimits has not all arrived (R145). -/
theorem exec_parse_timeout_iff {s t : State} (h5 : 5 ≤ s.blen.toNat) (h : exec .parse s = .next t) :
    t.err = Err.timeout.code ↔ s.blen.toNat < frameTotal Config.params (s.byteAt 0 1) (s.byteAt 0 2) := by
  obtain ⟨herr, _⟩ := exec_parse_results h
  rw [herr, State.parseFrame_of_header h5]
  split_ifs with hlt
  · exact iff_of_true rfl hlt
  · exact iff_of_false (s.judgeFrame_err_ne_timeout _) hlt

/-- Settles O47: FRAMELEN keeps BLEN and BUF, so PARSE finds in the two written header bytes the length FRAMELEN found. -/
theorem framelenForetellsParse : Obligations.FramelenForetellsParse := by
  intro s t u b1 b2 h1 h2 h5 hframelen hparse
  have hblen : t.blen = s.blen := BitVec.eq_of_toNat_eq ((exec_keepsAllBut hframelen).part (p := .blen) (by decide))
  have hbuf : t.buf = s.buf := exec_buf (by decide) hframelen
  have hexp := exec_framelen_expLen hframelen
  have htimeout := exec_parse_timeout_iff (hblen ▸ h5) hparse
  rw [if_neg (Nat.not_lt.2 h5), State.byteAt_of_written h1, State.byteAt_of_written h2] at hexp
  rw [hblen, State.byteAt_of_written (hbuf ▸ h1), State.byteAt_of_written (hbuf ▸ h2), ← hexp] at htimeout
  exact htimeout

/-! ## A frame not yet sent -/

theorem State.writeReg_buf (s : State) (w : Word) (r : RegName) : (s.writeReg w r).buf = s.buf := by
  obtain ⟨_, _, _, _, _, _, _, h⟩ := s.writeReg_frame w r
  rw [h]

theorem perform_read_keepsBuf {off n : Nat} {s t : State} (h : perform (.read off n) s = .next t) : KeepsBuf s t := by
  obtain ⟨hblock, _⟩ := perform_read_frame h
  exact fun i => by rw [hblock]

/-- A host write outside the BUF window that starts no ENCODE keeps every byte of BUF (R43, R63). -/
theorem perform_write_keepsBuf {off n v : Nat} {s t : State}
    (hcmd : off = 0x000 → decodeCmd (BitVec.ofNat 32 v) ≠ .encode)
    (hout : ¬ (bufBase ≤ off ∧ off < bufBase + Config.bufCap)) (h : perform (.write off n v) s = .next t) :
    KeepsBuf s t := by
  obtain ⟨hoff, _, he⟩ | ⟨r, _, _, _, rfl⟩ | ⟨_, _, rfl⟩ | ⟨i, hoff, _, _, rfl⟩ := performWrite_cases h
  · exact exec_keepsBuf (hcmd hoff) he
  · exact fun j => by rw [s.writeReg_buf]
  · exact fun _ => rfl
  · have hi : Config.bufCap ≤ i := by omega
    exact fun j => by rw [s.writeBufSpace_reserved hi]

/-- With a frame unsent, the duties allow a host write outside the BUF window only, and it leaves a frame unsent (R251). -/
theorem Exchange.afterEvent_write_of_unsent {c c' : Exchange} {off n v : Nat} {t : State} (hunsent : c.unsent = true)
    (h : c.afterEvent (.access (.write off n v)) t = some c') :
    ¬ (bufBase ≤ off ∧ off < bufBase + Config.bufCap) ∧ c'.unsent = true := by
  rw [afterEvent] at h
  by_cases hcmd : off = RegName.cmd.offset ∧ n = 4
  · rw [if_pos hcmd] at h
    obtain ⟨rfl, _⟩ := hcmd
    refine ⟨by decide, ?_⟩
    split at h <;> injection h with h <;> subst h
    · rfl
    · exact hunsent
    · exact hunsent
  · rw [if_neg hcmd] at h
    split_ifs at h with hin
    injection h with h
    exact ⟨fun ⟨hlo, hhi⟩ => hin ⟨hlo, hhi, hunsent⟩, h ▸ hunsent⟩

/-- Settles O50: the duties leave reads, which change nothing of the block, and writes outside the BUF window. -/
theorem dutifulHostKeepsTheEncodedFrame : Obligations.DutifulHostKeepsTheEncodedFrame := by
  intro c c' e s t hunsent h hduty hreset hencode
  cases e with
  | access a =>
    cases a with
    | read off n =>
      injection hduty with hduty
      exact ⟨perform_read_keepsBuf h, hduty ▸ hunsent⟩
    | write off n v =>
      obtain ⟨hout, hunsent'⟩ := Exchange.afterEvent_write_of_unsent hunsent hduty
      exact ⟨perform_write_keepsBuf (hencode off n v rfl) hout h, hunsent'⟩
  | concurrent a b => cases h
  | reset => exact absurd rfl hreset

/-! ## A frame changed after PARSE -/

/-- Settles O58: the write clears VALID (R27), and without VALID both decoders refuse. -/
theorem decodeNeedsAFreshFrame : Obligations.DecodeNeedsAFreshFrame := by
  intro s t u a _ _ hwrite h
  obtain ⟨_, _, _, _, hblen, hbuf, _⟩ := validIsClearedByEveryChangeOfTheFrame
  have hvalid : u.valid = false := by
    obtain ⟨i, v, hi, rfl⟩ | ⟨v, hv, rfl⟩ := hwrite
    · exact hbuf t i v u hi h
    · rw [hblen t v u h, if_pos hv]
  obtain ⟨m, hm, hmeas, _⟩ := exec_decoder_refuses_of_valid_false .meas hvalid
  obtain ⟨p, hp, hparam, _⟩ := exec_decoder_refuses_of_valid_false .param hvalid
  exact ⟨hvalid, ⟨m, hm, hmeas⟩, p, hp, hparam⟩

end Sys2Proof.Machine
end
